-- ==== Sys2Proof/Word.lean ====
section
/-! DEFINITION. The word types of IRRE2 and its register identifiers (00_scope.md R9, R10; 10_state.md R18 to R21). -/

namespace Sys2Proof

/-- `Word32`: an unsigned 32-bit value, arithmetic modulo 2^32 (00_scope.md R10). -/
abbrev Word := BitVec 32

/-- A byte: a raw field of an instruction word, or one cell of memory (00_scope.md R15). -/
abbrev Byte := BitVec 8

/-- A register identifier: one of the 37 values 0x00 to 0x24 (10_state.md R18). -/
abbrev RegId := Fin 37

/-- Identifier 0x20, the program counter as an operand (10_state.md R19). -/
abbrev pcReg : RegId := 0x20

/-- Identifier 0x21, the link register (10_state.md R19). -/
abbrev lrReg : RegId := 0x21

/-- Identifier 0x22, a scratch register (10_state.md R19). -/
abbrev adReg : RegId := 0x22

/-- Identifier 0x23, a scratch register (10_state.md R19). -/
abbrev atReg : RegId := 0x23

/-- Identifier 0x24, the stack pointer (10_state.md R19). -/
abbrev spReg : RegId := 0x24

/-- The three shift operators of the IR (40_lifter_ir.md R86); the first argument of `SHIFT_OVERSIZE` (R95). -/
inductive ShiftKind where
  /-- shift left, filling zeros -/
  | shl
  /-- shift right, filling zeros -/
  | lsr
  /-- shift right, filling copies of bit 31 -/
  | asr
deriving DecidableEq, Repr

end Sys2Proof
end

