-- ==== Sys2Proof/Config.lean ====
section
/-! DEFINITION. The parameters the spec leaves OPEN (00_scope.md R8), as constants with no body: no proof can rest on a value of one. -/

namespace Sys2Proof

/-- The two settings of `MISALIGNED_POLICY` (20_memory.md R40). -/
inductive MisalignedPolicy where
  /-- a misaligned 4-byte access is performed byte by byte -/
  | bytewise
  /-- a misaligned 4-byte access raises `MisalignedAccess` -/
  | fault
deriving DecidableEq, Repr, Inhabited

/-- `LS_OFFSET_SIGNED`: whether the offset byte of a load or store is sign-extended (43_load_store.md R116, D5). Free: log 6. -/
opaque Config.lsOffsetSigned : Bool

/-- `MISALIGNED_POLICY` (20_memory.md R40, D9). Free: log 7. -/
opaque Config.misalignedPolicy : MisalignedPolicy

/-- `SHIFT_OVERSIZE(kind, a, s)`: the result of shifting `a` by `s ≥ 32`, "an arbitrary Word32 per occurrence"
(40_lifter_ir.md R95, 93_implementation_defined.md U2). The last argument counts the occurrences. Free: log 5. -/
opaque Config.shiftOversize : ShiftKind → Word → Word → Nat → Word

/-- `INVALID_PLACEHOLDER`: the characters of the token rendered for an absent instruction (30_encoding.md R81, D20). Free: log 8. -/
opaque Config.invalidPlaceholder : List Char

/-- `ENTRY_BASE`: the address the container's `entry_offset` is relative to (20_memory.md R47, D29). Free: log 9. -/
opaque Config.entryBase : Word

end Sys2Proof
end

