-- ==== Sys2Proof/Syntax.lean ====
section
/-! DEFINITION. The instructions: one constructor per row of spec/opcode_table.json, in the table's order.
Operands stand in the order of the raw fields a1, a2, a3 (00_scope.md R15: rA, rB, rC; v, v0, v1). A register operand is
the raw 8-bit field, so that the records of 40_lifter_ir.md R84 (b), whose register lies outside 0x00 to 0x24, can be
written down; `Instr.wf` says when it names a register (30_encoding.md R66). -/

namespace Sys2Proof

/-- A decoded instruction: opcode and operand tuple (10_state.md R29; formats of 30_encoding.md R69). -/
inductive Instr where
  /-- no operation (46_system.md R131) -/
  | nop
  /-- add (41_arith_logic.md R101) -/
  | add (rA rB rC : Byte)
  /-- subtract (R102) -/
  | sub (rA rB rC : Byte)
  /-- bitwise and (R106) -/
  | and (rA rB rC : Byte)
  /-- bitwise or (R107) -/
  | orr (rA rB rC : Byte)
  /-- bitwise exclusive or (R108) -/
  | xor (rA rB rC : Byte)
  /-- bitwise complement (R109) -/
  | not (rA rB : Byte)
  /-- bidirectional logical shift (R110) -/
  | lsh (rA rB rC : Byte)
  /-- bidirectional arithmetic shift (R111) -/
  | ash (rA rB rC : Byte)
  /-- three-way unsigned compare (45_compare_sia.md R127) -/
  | tcu (rA rB rC : Byte)
  /-- three-way signed compare (R128) -/
  | tcs (rA rB rC : Byte)
  /-- load a 16-bit constant (42_move_const.md R112) -/
  | set (rA : Byte) (v : BitVec 16)
  /-- register copy (R113) -/
  | mov (rA rB : Byte)
  /-- load word (43_load_store.md R117) -/
  | ldw (rA rB v : Byte)
  /-- store word (R118) -/
  | stw (rA rB v : Byte)
  /-- load byte, zero-extended (R119) -/
  | ldb (rA rB v : Byte)
  /-- store byte (R120) -/
  | stb (rA rB v : Byte)
  /-- jump to an immediate absolute address (44_control.md R121) -/
  | jmi (v : BitVec 24)
  /-- jump to a register address (R122) -/
  | jmp (rA : Byte)
  /-- branch to rA if rB equals an immediate (R123) -/
  | bve (rA rB v : Byte)
  /-- branch to rA if rB differs from an immediate (R124) -/
  | bvn (rA rB v : Byte)
  /-- call through a register (R125) -/
  | cal (rA : Byte)
  /-- return through the link register, clearing it (R126) -/
  | ret
  /-- multiply (41_arith_logic.md R103) -/
  | mul (rA rB rC : Byte)
  /-- unsigned divide (R104) -/
  | div (rA rB rC : Byte)
  /-- unsigned remainder (R105) -/
  | mod (rA rB rC : Byte)
  /-- shift-and-add an immediate (45_compare_sia.md R130) -/
  | sia (rA v0 v1 : Byte)
  /-- set upper half-word (42_move_const.md R114) -/
  | sup (rA : Byte) (v : BitVec 16)
  /-- sign-extend the low half-word (R115) -/
  | sxt (rA rB : Byte)
  /-- set if equal to an immediate (45_compare_sia.md R129) -/
  | seq (rA rB v : Byte)
  /-- software interrupt (46_system.md R133) -/
  | int (v : BitVec 24)
  /-- device send, unmodelled by the source (R134) -/
  | snd (rA rB rC : Byte)
  /-- halt (R132) -/
  | hlt
deriving DecidableEq, Repr

end Sys2Proof
end

