-- ==== Sys2Proof/WellFormed.lean ====
section
/-! DEFINITION. Which instructions the decoder can produce: every register operand names a register (30_encoding.md R66).
The immediates need no check, their widths being their types' (30_encoding.md R68). -/

namespace Sys2Proof

/-- A raw field used as a register is valid exactly when it is at most 0x24 (30_encoding.md R66). -/
def regFieldOk (f : Byte) : Bool :=
  decide (f.toNat ≤ 0x24)

/-- Every register operand of the instruction is valid: the validation column of 30_encoding.md R58 to R65. -/
def Instr.wf : Instr → Bool
  | .nop | .ret | .hlt | .jmi _ | .int _ => true
  | .jmp a | .cal a | .set a _ | .sup a _ | .sia a _ _ => regFieldOk a
  | .not a b | .mov a b | .sxt a b | .ldw a b _ | .stw a b _ | .ldb a b _ | .stb a b _
  | .bve a b _ | .bvn a b _ | .seq a b _ => regFieldOk a && regFieldOk b
  | .add a b c | .sub a b c | .and a b c | .orr a b c | .xor a b c | .lsh a b c | .ash a b c
  | .tcu a b c | .tcs a b c | .mul a b c | .div a b c | .mod a b c | .snd a b c =>
      regFieldOk a && regFieldOk b && regFieldOk c

end Sys2Proof
end

