-- ==== Sys2Proof/Decode.lean ====
section
/-! DEFINITION. The decoder (30_encoding.md R54 to R75), the bytes port's algorithm (20_memory.md R41), the decoded-instruction
record (10_state.md R29), and the encoder (30_encoding.md R76). The opcode values other than ADD's and SET's are the spec's
default map (R69), which the spec marks as general knowledge: PRESUMED, unsafe, log 10. -/

namespace Sys2Proof

/-- The 33 mnemonics (30_encoding.md R69). -/
inductive Mnemonic where
  | nop | add | sub | and | orr | xor | not | lsh | ash
  | tcu | tcs | set | mov | ldw | stw | ldb | stb | jmi
  | jmp | bve | bvn | cal | ret | mul | div | mod | sia
  | sup | sxt | seq | int | snd | hlt
deriving DecidableEq, Repr

/-- The eight operand formats, in the order of their codes 0 to 7 (30_encoding.md R57). -/
inductive Format where
  | none | reg | imm24 | regImm16 | regReg | regRegImm8 | regImm8Imm8 | regRegReg
deriving DecidableEq, Repr

/-- The format-select code of a format (30_encoding.md R57). -/
def Format.code : Format → BitVec 3
  | .none => 0
  | .reg => 1
  | .imm24 => 2
  | .regImm16 => 3
  | .regReg => 4
  | .regRegImm8 => 5
  | .regImm8Imm8 => 6
  | .regRegReg => 7

/-- The operand count of a format (30_encoding.md R57, the operand tuple column). -/
def Format.operandCount : Format → Nat
  | .none => 0
  | .reg | .imm24 => 1
  | .regImm16 | .regReg => 2
  | .regRegImm8 | .regImm8Imm8 | .regRegReg => 3

/-- One operand of the tuple: a register operand or an immediate of 8, 16 or 24 bits (10_state.md R29). A register operand is the raw
field, so that a record with a register out of range can be written down (40_lifter_ir.md R84 (b); log 19); the decode port drives its 6
bits, `Sys2Proof.Machine.slotOf`. -/
inductive Operand where
  | reg (r : Byte)
  | imm8 (v : BitVec 8)
  | imm16 (v : BitVec 16)
  | imm24 (v : BitVec 24)
deriving DecidableEq, Repr

/-- The decoded-instruction record, "immutable value: opcode, format, mnemonic, operand tuple" (10_state.md R29). A record
built outside the decoder may have any operand tuple (40_lifter_ir.md R84). -/
structure Decoded where
  opcode : Byte
  format : Format
  mnemonic : Mnemonic
  operands : List Operand
deriving DecidableEq, Repr

/-- The three errors of the decoder (60_exceptions.md R135). An error carries no payload (R138). -/
inductive DecodeError where
  /-- "opcode byte has no table entry" -/
  | unknownOpcode
  /-- a field used as a register is greater than 0x24 -/
  | invalidRegisterField
  /-- "fewer than 4 bytes available at the requested offset" -/
  | truncatedInput
deriving DecidableEq, Repr

/-- The code of an error on the `err` output (60_exceptions.md R135). -/
def DecodeError.code : DecodeError → Nat
  | .unknownOpcode => 1
  | .invalidRegisterField => 2
  | .truncatedInput => 3

/-! ### The word's fields (30_encoding.md R55) -/

/-- bits [31:24] -/
def opcodeField (w : Word) : Byte := w.extractLsb' 24 8

/-- bits [23:16], the raw field a1 -/
def field1 (w : Word) : Byte := w.extractLsb' 16 8

/-- bits [15:8], the raw field a2 -/
def field2 (w : Word) : Byte := w.extractLsb' 8 8

/-- bits [7:0], the raw field a3 -/
def field3 (w : Word) : Byte := w.extractLsb' 0 8

/-! ### The opcode map (30_encoding.md R56, R69) -/

/-- The default opcode map's 33 entries: opcode byte, mnemonic, format (30_encoding.md R69). -/
def opcodeTable : List (Byte × Mnemonic × Format) :=
  [(0x00, .nop, .none), (0x01, .add, .regRegReg), (0x02, .sub, .regRegReg), (0x03, .and, .regRegReg),
   (0x04, .orr, .regRegReg), (0x05, .xor, .regRegReg), (0x06, .not, .regReg), (0x07, .lsh, .regRegReg),
   (0x08, .ash, .regRegReg), (0x09, .tcu, .regRegReg), (0x0A, .tcs, .regRegReg), (0x0B, .set, .regImm16),
   (0x0C, .mov, .regReg), (0x0D, .ldw, .regRegImm8), (0x0E, .stw, .regRegImm8), (0x0F, .ldb, .regRegImm8),
   (0x10, .stb, .regRegImm8), (0x20, .jmi, .imm24), (0x21, .jmp, .reg), (0x24, .bve, .regRegImm8),
   (0x25, .bvn, .regRegImm8), (0x2A, .cal, .reg), (0x2B, .ret, .none), (0x30, .mul, .regRegReg),
   (0x31, .div, .regRegReg), (0x32, .mod, .regRegReg), (0x40, .sia, .regImm8Imm8), (0x41, .sup, .regImm16),
   (0x42, .sxt, .regReg), (0x43, .seq, .regRegImm8), (0xF0, .int, .imm24), (0xFD, .snd, .regRegReg),
   (0xFF, .hlt, .none)]

/-- `OPCODE_MAP`: opcode byte to mnemonic and format; an undefined entry means an invalid opcode (30_encoding.md R56). -/
def opcodeMap (b : Byte) : Option (Mnemonic × Format) :=
  opcodeTable.lookup b

/-- The check of a format on the raw fields: each field it uses as a register is valid (30_encoding.md R58 to R65, R73). -/
def Format.fieldsOk : Format → (a1 a2 a3 : Byte) → Bool
  | .none, _, _, _ | .imm24, _, _, _ => true
  | .reg, a1, _, _ | .regImm16, a1, _, _ | .regImm8Imm8, a1, _, _ => regFieldOk a1
  | .regReg, a1, a2, _ | .regRegImm8, a1, a2, _ => regFieldOk a1 && regFieldOk a2
  | .regRegReg, a1, a2, a3 => regFieldOk a1 && regFieldOk a2 && regFieldOk a3

/-- The operand tuple of a format, from the raw fields (30_encoding.md R57, R73). -/
def Format.operands : Format → (a1 a2 a3 : Byte) → List Operand
  | .none, _, _, _ => []
  | .reg, a1, _, _ => [.reg a1]
  | .imm24, a1, a2, a3 => [.imm24 (a1 ++ a2 ++ a3)]
  | .regImm16, a1, a2, a3 => [.reg a1, .imm16 (a2 ++ a3)]
  | .regReg, a1, a2, _ => [.reg a1, .reg a2]
  | .regRegImm8, a1, a2, a3 => [.reg a1, .reg a2, .imm8 a3]
  | .regImm8Imm8, a1, a2, a3 => [.reg a1, .imm8 a2, .imm8 a3]
  | .regRegReg, a1, a2, a3 => [.reg a1, .reg a2, .reg a3]

/-- `decode`, to the record: the algorithm of 30_encoding.md R73, word for word. -/
def decodeRecord (w : Word) : Except DecodeError Decoded :=
  match opcodeMap (opcodeField w) with
  | none => .error .unknownOpcode
  | some (m, f) =>
      if f.fieldsOk (field1 w) (field2 w) (field3 w) then
        .ok ⟨opcodeField w, f, m, f.operands (field1 w) (field2 w) (field3 w)⟩
      else .error .invalidRegisterField

/-- The instruction of a mnemonic with its operands taken from the raw fields of its format (30_encoding.md R57, R69);
a field the format does not use is ignored (R67). -/
def Mnemonic.assemble (m : Mnemonic) (a1 a2 a3 : Byte) : Instr :=
  match m with
  | .nop => .nop
  | .add => .add a1 a2 a3
  | .sub => .sub a1 a2 a3
  | .and => .and a1 a2 a3
  | .orr => .orr a1 a2 a3
  | .xor => .xor a1 a2 a3
  | .not => .not a1 a2
  | .lsh => .lsh a1 a2 a3
  | .ash => .ash a1 a2 a3
  | .tcu => .tcu a1 a2 a3
  | .tcs => .tcs a1 a2 a3
  | .set => .set a1 (a2 ++ a3)
  | .mov => .mov a1 a2
  | .ldw => .ldw a1 a2 a3
  | .stw => .stw a1 a2 a3
  | .ldb => .ldb a1 a2 a3
  | .stb => .stb a1 a2 a3
  | .jmi => .jmi (a1 ++ a2 ++ a3)
  | .jmp => .jmp a1
  | .bve => .bve a1 a2 a3
  | .bvn => .bvn a1 a2 a3
  | .cal => .cal a1
  | .ret => .ret
  | .mul => .mul a1 a2 a3
  | .div => .div a1 a2 a3
  | .mod => .mod a1 a2 a3
  | .sia => .sia a1 a2 a3
  | .sup => .sup a1 (a2 ++ a3)
  | .sxt => .sxt a1 a2
  | .seq => .seq a1 a2 a3
  | .int => .int (a1 ++ a2 ++ a3)
  | .snd => .snd a1 a2 a3
  | .hlt => .hlt

/-- `decode`, to the instruction: the same algorithm (30_encoding.md R73). -/
def decode (w : Word) : Except DecodeError Instr :=
  match opcodeMap (opcodeField w) with
  | none => .error .unknownOpcode
  | some (m, f) =>
      if f.fieldsOk (field1 w) (field2 w) (field3 w) then
        .ok (m.assemble (field1 w) (field2 w) (field3 w))
      else .error .invalidRegisterField

/-- Four bytes as an instruction word, little-endian: `b3 ‖ b2 ‖ b1 ‖ b0` (20_memory.md R36). -/
def wordOfBytes (b0 b1 b2 b3 : Byte) : Word := b3 ++ b2 ++ b1 ++ b0

/-- The word that `decode_from_bytes` reads at an offset, or `TruncatedInput` when fewer than 4 bytes remain
(20_memory.md R41). -/
def wordAt (buf : List Byte) (off : Nat) : Except DecodeError Word :=
  match buf.drop off with
  | b0 :: b1 :: b2 :: b3 :: _ => .ok (wordOfBytes b0 b1 b2 b3)
  | _ => .error .truncatedInput

/-- `decode_from_bytes(buffer, offset)` (20_memory.md R41). -/
def decodeBytes (buf : List Byte) (off : Nat) : Except DecodeError Instr :=
  match wordAt buf off with
  | .error e => .error e
  | .ok w => decode w

/-! ### The record of an instruction, and the instruction of a record -/

/-- The opcode byte of an instruction (30_encoding.md R69). -/
def Instr.opcode : Instr → Byte
  | .nop => 0x00
  | .add _ _ _ => 0x01
  | .sub _ _ _ => 0x02
  | .and _ _ _ => 0x03
  | .orr _ _ _ => 0x04
  | .xor _ _ _ => 0x05
  | .not _ _ => 0x06
  | .lsh _ _ _ => 0x07
  | .ash _ _ _ => 0x08
  | .tcu _ _ _ => 0x09
  | .tcs _ _ _ => 0x0A
  | .set _ _ => 0x0B
  | .mov _ _ => 0x0C
  | .ldw _ _ _ => 0x0D
  | .stw _ _ _ => 0x0E
  | .ldb _ _ _ => 0x0F
  | .stb _ _ _ => 0x10
  | .jmi _ => 0x20
  | .jmp _ => 0x21
  | .bve _ _ _ => 0x24
  | .bvn _ _ _ => 0x25
  | .cal _ => 0x2A
  | .ret => 0x2B
  | .mul _ _ _ => 0x30
  | .div _ _ _ => 0x31
  | .mod _ _ _ => 0x32
  | .sia _ _ _ => 0x40
  | .sup _ _ => 0x41
  | .sxt _ _ => 0x42
  | .seq _ _ _ => 0x43
  | .int _ => 0xF0
  | .snd _ _ _ => 0xFD
  | .hlt => 0xFF

/-- The mnemonic of an instruction (30_encoding.md R69). -/
def Instr.mnemonic : Instr → Mnemonic
  | .nop => .nop
  | .add _ _ _ => .add
  | .sub _ _ _ => .sub
  | .and _ _ _ => .and
  | .orr _ _ _ => .orr
  | .xor _ _ _ => .xor
  | .not _ _ => .not
  | .lsh _ _ _ => .lsh
  | .ash _ _ _ => .ash
  | .tcu _ _ _ => .tcu
  | .tcs _ _ _ => .tcs
  | .set _ _ => .set
  | .mov _ _ => .mov
  | .ldw _ _ _ => .ldw
  | .stw _ _ _ => .stw
  | .ldb _ _ _ => .ldb
  | .stb _ _ _ => .stb
  | .jmi _ => .jmi
  | .jmp _ => .jmp
  | .bve _ _ _ => .bve
  | .bvn _ _ _ => .bvn
  | .cal _ => .cal
  | .ret => .ret
  | .mul _ _ _ => .mul
  | .div _ _ _ => .div
  | .mod _ _ _ => .mod
  | .sia _ _ _ => .sia
  | .sup _ _ => .sup
  | .sxt _ _ => .sxt
  | .seq _ _ _ => .seq
  | .int _ => .int
  | .snd _ _ _ => .snd
  | .hlt => .hlt

/-- The format of an instruction: a property of its opcode, never of the operands (30_encoding.md R56, R69). -/
def Instr.format : Instr → Format
  | .nop | .ret | .hlt => .none
  | .jmp _ | .cal _ => .reg
  | .jmi _ | .int _ => .imm24
  | .set _ _ | .sup _ _ => .regImm16
  | .not _ _ | .mov _ _ | .sxt _ _ => .regReg
  | .ldw _ _ _ | .stw _ _ _ | .ldb _ _ _ | .stb _ _ _ | .bve _ _ _ | .bvn _ _ _ | .seq _ _ _ => .regRegImm8
  | .sia _ _ _ => .regImm8Imm8
  | .add _ _ _ | .sub _ _ _ | .and _ _ _ | .orr _ _ _ | .xor _ _ _ | .lsh _ _ _ | .ash _ _ _ | .tcu _ _ _ | .tcs _ _ _ | .mul _ _ _ | .div _ _ _ | .mod _ _ _ | .snd _ _ _ => .regRegReg

/-- The operand tuple of an instruction (10_state.md R29). -/
def Instr.operands : Instr → List Operand
  | .nop | .ret | .hlt => []
  | .jmp a | .cal a => [.reg a]
  | .jmi v | .int v => [.imm24 v]
  | .set a v | .sup a v => [.reg a, .imm16 v]
  | .not a b | .mov a b | .sxt a b => [.reg a, .reg b]
  | .ldw a b v | .stw a b v | .ldb a b v | .stb a b v | .bve a b v | .bvn a b v | .seq a b v => [.reg a, .reg b, .imm8 v]
  | .sia a v w => [.reg a, .imm8 v, .imm8 w]
  | .add a b c | .sub a b c | .and a b c | .orr a b c | .xor a b c | .lsh a b c | .ash a b c | .tcu a b c | .tcs a b c | .mul a b c | .div a b c | .mod a b c | .snd a b c => [.reg a, .reg b, .reg c]

/-- The decoded-instruction record of an instruction (10_state.md R29). -/
def Instr.record (i : Instr) : Decoded :=
  ⟨i.opcode, i.format, i.mnemonic, i.operands⟩

/-! The instruction of an operand tuple of a format's shape, or none where the tuple has another (10_state.md R29). -/

/-- The shape () (10_state.md R29). -/
def ofNone (k : Instr) : List Operand → Option Instr
  | [] => some k
  | _ => none

/-- The shape (rA) (10_state.md R29). -/
def ofReg (k : Byte → Instr) : List Operand → Option Instr
  | [.reg a] => some (k a)
  | _ => none

/-- The shape (v: 24-bit) (10_state.md R29). -/
def ofImm24 (k : BitVec 24 → Instr) : List Operand → Option Instr
  | [.imm24 v] => some (k v)
  | _ => none

/-- The shape (rA, v: 16-bit) (10_state.md R29). -/
def ofRegImm16 (k : Byte → BitVec 16 → Instr) : List Operand → Option Instr
  | [.reg a, .imm16 v] => some (k a v)
  | _ => none

/-- The shape (rA, rB) (10_state.md R29). -/
def ofRegReg (k : Byte → Byte → Instr) : List Operand → Option Instr
  | [.reg a, .reg b] => some (k a b)
  | _ => none

/-- The shape (rA, rB, v: 8-bit) (10_state.md R29). -/
def ofRegRegImm8 (k : Byte → Byte → BitVec 8 → Instr) : List Operand → Option Instr
  | [.reg a, .reg b, .imm8 v] => some (k a b v)
  | _ => none

/-- The shape (rA, v0: 8-bit, v1: 8-bit) (10_state.md R29). -/
def ofRegImm8Imm8 (k : Byte → BitVec 8 → BitVec 8 → Instr) : List Operand → Option Instr
  | [.reg a, .imm8 v, .imm8 w] => some (k a v w)
  | _ => none

/-- The shape (rA, rB, rC) (10_state.md R29). -/
def ofRegRegReg (k : Byte → Byte → Byte → Instr) : List Operand → Option Instr
  | [.reg a, .reg b, .reg c] => some (k a b c)
  | _ => none

/-- The instruction of a mnemonic and an operand tuple, or none when the tuple does not have the shape of the mnemonic's
format. A register operand out of range is kept: `Instr.wf` tells it. -/
def Mnemonic.instr? (m : Mnemonic) (ops : List Operand) : Option Instr :=
  match m with
  | .nop => ofNone .nop ops
  | .add => ofRegRegReg .add ops
  | .sub => ofRegRegReg .sub ops
  | .and => ofRegRegReg .and ops
  | .orr => ofRegRegReg .orr ops
  | .xor => ofRegRegReg .xor ops
  | .not => ofRegReg .not ops
  | .lsh => ofRegRegReg .lsh ops
  | .ash => ofRegRegReg .ash ops
  | .tcu => ofRegRegReg .tcu ops
  | .tcs => ofRegRegReg .tcs ops
  | .set => ofRegImm16 .set ops
  | .mov => ofRegReg .mov ops
  | .ldw => ofRegRegImm8 .ldw ops
  | .stw => ofRegRegImm8 .stw ops
  | .ldb => ofRegRegImm8 .ldb ops
  | .stb => ofRegRegImm8 .stb ops
  | .jmi => ofImm24 .jmi ops
  | .jmp => ofReg .jmp ops
  | .bve => ofRegRegImm8 .bve ops
  | .bvn => ofRegRegImm8 .bvn ops
  | .cal => ofReg .cal ops
  | .ret => ofNone .ret ops
  | .mul => ofRegRegReg .mul ops
  | .div => ofRegRegReg .div ops
  | .mod => ofRegRegReg .mod ops
  | .sia => ofRegImm8Imm8 .sia ops
  | .sup => ofRegImm16 .sup ops
  | .sxt => ofRegReg .sxt ops
  | .seq => ofRegRegImm8 .seq ops
  | .int => ofImm24 .int ops
  | .snd => ofRegRegReg .snd ops
  | .hlt => ofNone .hlt ops

/-- The instruction a record stands for, or none where the lifter falls back for its shape ("unexpected operand arity", 40_lifter_ir.md
R84 (b)). The lifter is "one case statement over the opcode of its input" (R83): the opcode says which instruction it is, and the
mnemonic and format fields of the record are not asked (log 19). A record whose opcode the map does not hold stands for none. -/
def Decoded.instr? (d : Decoded) : Option Instr :=
  match opcodeMap d.opcode with
  | some (m, _) => m.instr? d.operands
  | none => none

/-! ### The encoder (30_encoding.md R76) -/

/-- The word with the given opcode byte and raw fields: `opcode ‖ a1 ‖ a2 ‖ a3` (30_encoding.md R55). -/
def wordOf (op a1 a2 a3 : Byte) : Word := op ++ a1 ++ a2 ++ a3

/-- `encode`: the operands in the fields of their format, every ignored field 0 (30_encoding.md R57, R76). -/
def encode (i : Instr) : Word :=
  match i with
  | .nop => wordOf 0x00 0 0 0
  | .add a b c => wordOf 0x01 a b c
  | .sub a b c => wordOf 0x02 a b c
  | .and a b c => wordOf 0x03 a b c
  | .orr a b c => wordOf 0x04 a b c
  | .xor a b c => wordOf 0x05 a b c
  | .not a b => wordOf 0x06 a b 0
  | .lsh a b c => wordOf 0x07 a b c
  | .ash a b c => wordOf 0x08 a b c
  | .tcu a b c => wordOf 0x09 a b c
  | .tcs a b c => wordOf 0x0A a b c
  | .set a v => wordOf 0x0B a (v.extractLsb' 8 8) (v.extractLsb' 0 8)
  | .mov a b => wordOf 0x0C a b 0
  | .ldw a b v => wordOf 0x0D a b v
  | .stw a b v => wordOf 0x0E a b v
  | .ldb a b v => wordOf 0x0F a b v
  | .stb a b v => wordOf 0x10 a b v
  | .jmi v => wordOf 0x20 (v.extractLsb' 16 8) (v.extractLsb' 8 8) (v.extractLsb' 0 8)
  | .jmp a => wordOf 0x21 a 0 0
  | .bve a b v => wordOf 0x24 a b v
  | .bvn a b v => wordOf 0x25 a b v
  | .cal a => wordOf 0x2A a 0 0
  | .ret => wordOf 0x2B 0 0 0
  | .mul a b c => wordOf 0x30 a b c
  | .div a b c => wordOf 0x31 a b c
  | .mod a b c => wordOf 0x32 a b c
  | .sia a v w => wordOf 0x40 a v w
  | .sup a v => wordOf 0x41 a (v.extractLsb' 8 8) (v.extractLsb' 0 8)
  | .sxt a b => wordOf 0x42 a b 0
  | .seq a b v => wordOf 0x43 a b v
  | .int v => wordOf 0xF0 (v.extractLsb' 16 8) (v.extractLsb' 8 8) (v.extractLsb' 0 8)
  | .snd a b c => wordOf 0xFD a b c
  | .hlt => wordOf 0xFF 0 0 0

/-- The four bytes of a word as memory holds them, the lowest address first (20_memory.md R36). -/
def bytesOfWord (w : Word) : List Byte := [field3 w, field2 w, field1 w, opcodeField w]

/-- The instruction the decoder reads from an instruction whose bits are `w`, bit 0 the least significant of the first byte;
the bits from `nbits` up are 0. The bytes are laid out as memory holds them and given to the bytes port. -/
def decodeTableWord (nbits w : Nat) : Option Instr :=
  match decodeBytes (bytesOfWord (BitVec.ofNat 32 (w % 2 ^ nbits))) 0 with
  | .ok i => some i
  | .error _ => none

end Sys2Proof
end

