-- ==== Sys2Proof/Machine/State.lean ====
section
/-! DEFINITION. The state of the reference evaluation (10_state.md R31) and of the host's label table (R27), as plain data;
the faults and refusals that end a run (60_exceptions.md R150); the state after reset. -/

namespace Sys2Proof.Machine

/-- Where an unwritten value was read: a register or a byte (10_state.md R32), or a temporary (DESIGN CHOICE, log 34). -/
inductive Location where
  /-- a register -/
  | reg (r : RegId)
  /-- a byte of memory -/
  | mem (addr : Word)
  /-- a lift-local temporary; no canonical sequence reads one before it sets it (40_lifter_ir.md R89) -/
  | temp (k : Nat)
deriving DecidableEq, Repr

/-- Why an evaluation stops with a fault. -/
inductive Fault where
  /-- The 4 bytes at pc do not decode (40_lifter_ir.md R99). Raised by the fetch; safe: the spec names it. -/
  | illegalInstruction (e : DecodeError)
  /-- An unwritten register or memory byte was read (10_state.md R32). Raised by every reading operation and by the fetch; safe: the
  spec names it, and nothing can be proved past it. Also raised, by `readTemp` alone, for a temporary with no value: the spec does not
  say what that read does, DESIGN CHOICE, log 34; safe, for no sequence the lifter emits comes to it. -/
  | unwrittenRead (loc : Location)
  /-- DIV or MOD by 0 (40_lifter_ir.md R97). Raised by DIV and MOD; safe: the spec names it. -/
  | divideByZero
  /-- A 4-byte access at an address that is no multiple of 4, where MISALIGNED_POLICY is fault (20_memory.md R40). Raised by
  LDW and STW; safe: the spec names it, and no proof can tell the policy. -/
  | misalignedAccess (addr : Word)
  /-- A step was asked of a halted machine: "stuck, no next state" (93_implementation_defined.md U9). Raised by `step`
  alone; safe: log 17. -/
  | stuckHalted
  /-- A step was asked after a system call: "in effect stuck for this model" (93_implementation_defined.md U8). Raised by
  `step` alone; safe: log 17. -/
  | stuckSyscall (code : BitVec 24)
deriving DecidableEq, Repr

/-- Why an evaluation declines to go on. -/
inductive Refusal where
  /-- exec's arm for an instruction that has no meaning yet; no arm answers it in this model. Safe. -/
  | notModelled (mnemonic : String)
  /-- Register 0x20 (pc) was read or written as an operand (40_lifter_ir.md R98). Raised by every register access; safe:
  the spec names it. -/
  | pcOperand
  /-- The lifter's marker `Unimplemented` was evaluated: SND, or an instruction record no decoder produces
  (40_lifter_ir.md R84, R96; 46_system.md R134). Safe: the spec names it. -/
  | unmodelled (opcode : Byte)
  /-- An IR sequence of no instruction: a jump to a local label that the sequence does not mark, or an endless one. Raised by
  the IR evaluation alone, and by no sequence the lifter emits; safe: log 16. -/
  | malformedSequence
deriving DecidableEq, Repr

/-- The status of the evaluation (10_state.md R31). -/
inductive Status where
  /-- the machine steps -/
  | running
  /-- HLT was evaluated; final (46_system.md R132) -/
  | halted
  /-- INT was evaluated, with this code (46_system.md R133) -/
  | syscall (code : BitVec 24)
  /-- a fault ended the run (60_exceptions.md R150) -/
  | fault (r : Fault)
  /-- a refusal ended the run (60_exceptions.md R150) -/
  | refused (r : Refusal)
deriving DecidableEq, Repr

/-- What a register holds: a word, or the spec's own value *unwritten* (10_state.md R31). -/
inductive RegValue where
  | unwritten
  | value (w : Word)
deriving DecidableEq, Repr

/-- Memory: the written bytes, addresses strictly rising (10_state.md R31, 20_memory.md R35). An address that is not listed
is *unwritten* and has no value: reading it faults (10_state.md R32; log 3). -/
abbrev Memory := List Host.Cell

/-- The evaluation state (10_state.md R31), the host's label table (R27), and the model's own counter of free values. -/
structure State where
  /-- `x`: what each register identifier 0x00 to 0x24 holds -/
  x : Vector RegValue 37
  /-- `pc`: the address of the instruction being evaluated -/
  pc : Word
  /-- `mem`: the written bytes of memory -/
  mem : Memory
  /-- `t`: the lift-local temporaries, empty at the start of each instruction's sequence (40_lifter_ir.md R89) -/
  temps : List (Nat × Word)
  /-- `status` -/
  status : Status
  /-- the host's label table: the addresses that have a label, in the order of creation (10_state.md R27; log 4) -/
  labels : List Word
  /-- the MODEL's own: how many oversize shifts have drawn their result (40_lifter_ir.md R95; log 5) -/
  draws : Nat
deriving DecidableEq, Repr

/-- The machine after reset. The spec gives no reset value of any of these (10_state.md R34, 70_reset_and_hazards.md R152)
but that every byte of memory is unwritten and `t` is empty. The rest is DESIGN CHOICE, unsafe: registers 0 (log 1), pc 0 and
status running (log 2), no label (log 4), no draw (log 5). -/
def State.reset : State where
  x := Vector.replicate 37 (.value 0)
  pc := 0
  mem := []
  temps := []
  status := .running
  labels := []
  draws := 0

end Sys2Proof.Machine
end

