-- ==== Sys2Proof/Machine/Memory.lean ====
section
/-! DEFINITION. Reading and writing one byte of memory, and the canonical form of memory (10_state.md R31, 20_memory.md R35).
The key of a cell is the address as a natural number below 2^32. -/

namespace Sys2Proof.Machine

/-- The addresses rise strictly, none lies below `lo`, and none reaches 2^32. -/
def Memory.wfFrom (lo : Nat) : Memory → Bool
  | [] => true
  | (a, _) :: m => decide (lo ≤ a) && decide (a < 2 ^ 32) && Memory.wfFrom (a + 1) m

/-- Memory's canonical form: addresses strictly rising and below 2^32. An unlisted address has no value (10_state.md R31), so
no entry can repeat what an unlisted address reads as. -/
def Memory.wf (m : Memory) : Bool := Memory.wfFrom 0 m

/-- The byte at an address, or none where it is unwritten (10_state.md R31). -/
def Memory.read : Memory → Nat → Option Byte
  | [], _ => none
  | (k, b) :: m, a => if a = k then some b else Memory.read m a

/-- Memory with the byte at one address written. -/
def Memory.write : Memory → Nat → Byte → Memory
  | [], a, v => [(a, v)]
  | (k, b) :: m, a, v =>
      if a < k then (a, v) :: (k, b) :: m
      else if a = k then (k, v) :: m
      else (k, b) :: Memory.write m a v

end Sys2Proof.Machine
end

