-- ==== Sys2Proof/Machine/Ops.lean ====
section
/-! DEFINITION. The named operations over the state: registers (10_state.md R20, R31, R32; 40_lifter_ir.md R98), memory
(20_memory.md R38 to R42), the program counter (40_lifter_ir.md R96), the label table (10_state.md R27), the system call and the
halt (60_exceptions.md R140, R145), and how a fault or refusal ends a run (R144, R150). -/

namespace Sys2Proof.Machine

/-- The result of an operation: a value, a fault or a refusal. -/
abbrev Res (α : Type) := Host.Outcome α Fault Refusal

/-- Go on with the value; a fault or a refusal ends the evaluation (60_exceptions.md R144). -/
def Res.andThen {α β : Type} (r : Res α) (k : α → Res β) : Res β :=
  match r with
  | .next a => k a
  | .fault e => .fault e
  | .refused e => .refused e

/-! ### One field at a time -/

/-- The state with another program counter. -/
def State.setPc (s : State) (v : Word) : State := { s with pc := v }

/-- The state with another status. -/
def State.setStatus (s : State) (v : Status) : State := { s with status := v }

/-- The state with another memory. -/
def State.setMem (s : State) (v : Memory) : State := { s with mem := v }

/-- The state with other temporaries. -/
def State.setTemps (s : State) (v : List (Nat × Word)) : State := { s with temps := v }

/-- The state with another label table. -/
def State.setLabels (s : State) (v : List Word) : State := { s with labels := v }

/-- The state with another count of draws. -/
def State.setDraws (s : State) (v : Nat) : State := { s with draws := v }

/-- What register `r` holds (10_state.md R31). -/
def State.reg (s : State) (r : RegId) : RegValue := s.x[r.val]

/-- The state with the word `v` in register `r` (10_state.md R31). -/
def State.setReg (s : State) (r : RegId) (v : Word) : State := { s with x := s.x.set r.val (.value v) }

/-! ### Registers -/

/-- The register a raw field names, if it is valid (30_encoding.md R66). -/
def regId? (f : Byte) : Option RegId :=
  if h : f.toNat < 37 then some ⟨f.toNat, h⟩ else none

/-- Go on with the register a raw field names. A field above 0x24 comes from no decoder: the lifter falls back to
`Unimplemented`, and evaluating that refuses (40_lifter_ir.md R84 (b), R96). -/
def withReg (opcode f : Byte) (k : RegId → Res State) : Res State :=
  match regId? f with
  | some r => k r
  | none => .refused (.unmodelled opcode)

/-- `x[r]` as an operand: pc refuses (40_lifter_ir.md R98), an unwritten register faults (10_state.md R32). No register is
hardwired (10_state.md R20). -/
def readReg (r : RegId) (s : State) : Res Word :=
  if r = pcReg then .refused .pcOperand
  else
    match s.reg r with
    | .value w => .next w
    | .unwritten => .fault (.unwrittenRead (.reg r))

/-- `x[r] <- v`: pc refuses (40_lifter_ir.md R98). -/
def writeReg (r : RegId) (v : Word) (s : State) : Res State :=
  if r = pcReg then .refused .pcOperand else .next (s.setReg r v)

/-! ### Memory -/

/-- `MemRead(a, 1)`: an unwritten byte faults (10_state.md R32). -/
def readByte (a : Word) (s : State) : Res Byte :=
  match s.mem.read a.toNat with
  | some b => .next b
  | none => .fault (.unwrittenRead (.mem a))

/-- The four bytes at `a` to `a + 3`, addresses modulo 2^32, little-endian (20_memory.md R38), read from the lowest address on:
the first unwritten one is the one reported (DESIGN CHOICE, log 15). -/
def readFour (a : Word) (s : State) : Res Word :=
  (readByte a s).andThen fun b0 =>
  (readByte (a + 1) s).andThen fun b1 =>
  (readByte (a + 2) s).andThen fun b2 =>
  (readByte (a + 3) s).andThen fun b3 =>
  .next (wordOfBytes b0 b1 b2 b3)

/-- The alignment rule of a 4-byte data access (20_memory.md R40): an address that is no multiple of 4 follows
MISALIGNED_POLICY. -/
def wordAccess (a : Word) : Res Unit :=
  if a.toNat % 4 = 0 then .next ()
  else
    match Config.misalignedPolicy with
    | .bytewise => .next ()
    | .fault => .fault (.misalignedAccess a)

/-- `MemRead(a, 4)` as a data access (20_memory.md R38, R40). The alignment is looked at before any byte (DESIGN CHOICE,
log 15). -/
def readWord (a : Word) (s : State) : Res Word :=
  (wordAccess a).andThen fun _ => readFour a s

/-- `MemWrite(a, 1, b)`. -/
def writeByte (a : Word) (b : Byte) (s : State) : State :=
  s.setMem (s.mem.write a.toNat b)

/-- The four bytes of `v` at `a` to `a + 3`, addresses modulo 2^32, little-endian (20_memory.md R38). -/
def writeFour (a v : Word) (s : State) : State :=
  writeByte (a + 3) (opcodeField v) (writeByte (a + 2) (field1 v) (writeByte (a + 1) (field2 v) (writeByte a (field3 v) s)))

/-- `MemWrite(a, 4, v)` as a data access (20_memory.md R38, R40). -/
def writeWord (a v : Word) (s : State) : Res State :=
  (wordAccess a).andThen fun _ => .next (writeFour a v s)

/-! ### The program counter -/

/-- The end of a sequence: `pc <- address + 4` (40_lifter_ir.md R96, 10_state.md R22). -/
def advance (s : State) : State := s.setPc (s.pc + 4)

/-- The state at the sequential successor. -/
def fallThrough (s : State) : Res State := .next (advance s)

/-- `x[r] <- v`, then the sequential successor. -/
def setRegNext (r : RegId) (v : Word) (s : State) : Res State :=
  (writeReg r v s).andThen fallThrough

/-- `pc <- target`; targets are not checked for alignment (20_memory.md R40). -/
def jumpTo (target : Word) (s : State) : Res State := .next (s.setPc target)

/-! ### The host's label table -/

/-- A host label: a handle that names an address (00_scope.md R15, 40_lifter_ir.md R88). `id` tells handles apart. -/
structure HostLabel where
  id : Nat
  addr : Word
deriving DecidableEq, Repr

/-- `get_or_create_label(addr)`: the host's label for `addr`, created first if none exists (10_state.md R27). A handle's `id`
is its place in the order of creation: DESIGN CHOICE, log 4. -/
def getOrCreateLabel (addr : Word) (s : State) : HostLabel × State :=
  (⟨s.labels.idxOf addr, addr⟩, s.setLabels (if addr ∈ s.labels then s.labels else s.labels ++ [addr]))

/-! ### The system call, the halt, and how a run ends -/

/-- Taking the one trap there is, INT's: the status becomes syscall(code), pc the sequential successor, and nothing is saved
(60_exceptions.md R139, R140). There is no return from it (R141). -/
def enterSyscall (code : BitVec 24) (s : State) : Res State :=
  .next ((advance s).setStatus (.syscall code))

/-- The halt: the status becomes halted, and pc stays (40_lifter_ir.md R96, `NoRet`). -/
def halt (s : State) : Res State :=
  .next (s.setStatus .halted)

/-- The evaluation state after an outcome: a fault or refusal ends the run with that status, "and pc keeps the address of the
instruction that raised it"; the instruction has no effect (60_exceptions.md R144, R150). A machine that was halted or in a system
call stays as it is: the status is final (40_lifter_ir.md R99). -/
def State.settle (s : State) : Res State → State
  | .next t => t
  | .fault .stuckHalted => s
  | .fault (.stuckSyscall _) => s
  | .fault (.illegalInstruction e) => s.setStatus (.fault (.illegalInstruction e))
  | .fault (.unwrittenRead l) => s.setStatus (.fault (.unwrittenRead l))
  | .fault .divideByZero => s.setStatus (.fault .divideByZero)
  | .fault (.misalignedAccess a) => s.setStatus (.fault (.misalignedAccess a))
  | .refused r => s.setStatus (.refused r)

end Sys2Proof.Machine
end

