-- ==== Sys2Proof/Machine/Operands.lean ====
section
/-! DEFINITION. The operand forms: how each immediate is widened (30_encoding.md R68), the effective address of a load or
store (43_load_store.md R116), and the value operations with a corner the spec leaves open or gives a fault (shifts,
40_lifter_ir.md R95; division, R97). -/

namespace Sys2Proof.Machine

/-- An 8-bit immediate zero-extended: the comparand of BVE, BVN and SEQ, and SIA's two literals (30_encoding.md R68, D6;
log 13). -/
def zext8 (v : BitVec 8) : Word := v.setWidth 32

/-- A 16-bit immediate zero-extended: SET and SUP (30_encoding.md R68). -/
def zext16 (v : BitVec 16) : Word := v.setWidth 32

/-- A 24-bit immediate zero-extended: JMI's absolute target (30_encoding.md R68). -/
def zext24 (v : BitVec 24) : Word := v.setWidth 32

/-- `off32 = LS_OFFSET_SIGNED ? sext_32(v) : zext_32(v)` (43_load_store.md R116). "For v in 0x00 to 0x7F both settings give the
same": the parameter is asked only where bit 7 is set. -/
def offset32 (v : Byte) : Word :=
  if v.msb && Config.lsOffsetSigned then v.signExtend 32 else v.setWidth 32

/-- The effective address `x[rB] + off32` modulo 2^32, of a base value (43_load_store.md R116). -/
def effAddr (base : Word) (v : Byte) : Word := base + offset32 v

/-- A shift by fewer than 32 (40_lifter_ir.md R95). -/
def shiftBelow32 : ShiftKind → Word → Nat → Word
  | .shl, a, n => a <<< n
  | .lsr, a, n => a >>> n
  | .asr, a, n => a.sshiftRight n

/-- A shift of the evaluation (40_lifter_ir.md R95). A count of 32 or more yields the free value `SHIFT_OVERSIZE`, a new one
at each occurrence (log 5). -/
def shiftBy (k : ShiftKind) (a c : Word) (s : State) : Word × State :=
  if c.toNat < 32 then (shiftBelow32 k a c.toNat, s)
  else (Config.shiftOversize k a c s.draws, s.setDraws (s.draws + 1))

/-- `DivU(a, b)`: unsigned quotient; by 0 it faults (40_lifter_ir.md R94, R97). -/
def divU (a b : Word) : Res Word :=
  if b = 0 then .fault .divideByZero else .next (BitVec.ofNat 32 (a.toNat / b.toNat))

/-- `ModU(a, b)`: unsigned remainder `a - b * floor(a / b)`; by 0 it faults (40_lifter_ir.md R94, R97). -/
def modU (a b : Word) : Res Word :=
  if b = 0 then .fault .divideByZero else .next (BitVec.ofNat 32 (a.toNat % b.toNat))

/-- `sext_32(v[15:0])` (42_move_const.md R115). -/
def sextLow16 (v : Word) : Word := (v.extractLsb' 0 16).signExtend 32

end Sys2Proof.Machine
end

