-- ==== Sys2Proof/Machine/Flags.lean ====
section
/-! DEFINITION. The comparisons. IRRE2 has no flags and no condition codes (10_state.md R23): a comparison writes a general register
(TCU, TCS, SEQ) or stands inside a branch condition (BVE, BVN). -/

namespace Sys2Proof.Machine

/-- `bool_to_word(b)` (00_scope.md R10). -/
def boolToWord (b : Bool) : Word := if b then 1 else 0

/-- The three-way unsigned comparison `(b >u c) - (b <u c)` (45_compare_sia.md R127). -/
def compareU (b c : Word) : Word :=
  boolToWord (decide (c.toNat < b.toNat)) - boolToWord (decide (b.toNat < c.toNat))

/-- The three-way signed comparison (45_compare_sia.md R128). -/
def compareS (b c : Word) : Word :=
  boolToWord (decide (c.toInt < b.toInt)) - boolToWord (decide (b.toInt < c.toInt))

/-- The equality of a register's value and a zero-extended 8-bit immediate (44_control.md R123, 45_compare_sia.md R129). -/
def equalsImm (b : Word) (v : BitVec 8) : Bool := decide (b = zext8 v)

end Sys2Proof.Machine
end

