-- ==== Sys2Proof/Machine/ArithLogic.lean ====
section
/-! DEFINITION. The arithmetic, logical and shift instructions (41_arith_logic.md R100 to R111). -/

namespace Sys2Proof.Machine

/-- The form reg+reg+reg: both sources are read, rB first, before rA is written; then the sequential successor
(41_arith_logic.md R100). -/
def regRegRegOp (opcode rA rB rC : Byte) (f : Word → Word → Res Word) (s : State) : Res State :=
  withReg opcode rA fun a => withReg opcode rB fun b => withReg opcode rC fun c =>
    (readReg b s).andThen fun vb =>
    (readReg c s).andThen fun vc =>
    (f vb vc).andThen fun v => setRegNext a v s

/-- The form reg+reg: rB is read before rA is written; then the sequential successor (41_arith_logic.md R100, R109). -/
def regRegOp (opcode rA rB : Byte) (f : Word → Word) (s : State) : Res State :=
  withReg opcode rA fun a => withReg opcode rB fun b =>
    (readReg b s).andThen fun vb => setRegNext a (f vb) s

/-- The bidirectional shift (41_arith_logic.md R110, R111): a count `signed(x[rC]) ≥ 0` shifts left, a negative one shifts
right by `0 - x[rC]`. The condition reads rC before rB is read (log 15). -/
def bidirectionalShift (right : ShiftKind) (opcode rA rB rC : Byte) (s : State) : Res State :=
  withReg opcode rA fun a => withReg opcode rB fun b => withReg opcode rC fun c =>
    (readReg c s).andThen fun vc =>
    (readReg b s).andThen fun vb =>
    let r := if 0 ≤ vc.toInt then shiftBy .shl vb vc s else shiftBy right vb (-vc) s
    setRegNext a r.1 r.2

/-- ADD: `x[rA] <- x[rB] + x[rC]` (R101). -/
def execAdd (rA rB rC : Byte) (s : State) : Res State :=
  regRegRegOp 0x01 rA rB rC (fun b c => .next (b + c)) s

/-- SUB: `x[rA] <- x[rB] - x[rC]` (R102). -/
def execSub (rA rB rC : Byte) (s : State) : Res State :=
  regRegRegOp 0x02 rA rB rC (fun b c => .next (b - c)) s

/-- MUL: the low 32 bits of the product (R103). -/
def execMul (rA rB rC : Byte) (s : State) : Res State :=
  regRegRegOp 0x30 rA rB rC (fun b c => .next (b * c)) s

/-- DIV: the unsigned quotient; a divisor of 0 faults and x[rA] is not written (R104). -/
def execDiv (rA rB rC : Byte) (s : State) : Res State :=
  regRegRegOp 0x31 rA rB rC divU s

/-- MOD: the unsigned remainder; a divisor of 0 faults (R105). -/
def execMod (rA rB rC : Byte) (s : State) : Res State :=
  regRegRegOp 0x32 rA rB rC modU s

/-- AND: `x[rA] <- x[rB] & x[rC]` (R106). -/
def execAnd (rA rB rC : Byte) (s : State) : Res State :=
  regRegRegOp 0x03 rA rB rC (fun b c => .next (b &&& c)) s

/-- ORR: `x[rA] <- x[rB] | x[rC]` (R107). -/
def execOrr (rA rB rC : Byte) (s : State) : Res State :=
  regRegRegOp 0x04 rA rB rC (fun b c => .next (b ||| c)) s

/-- XOR: `x[rA] <- x[rB] ^ x[rC]` (R108). -/
def execXor (rA rB rC : Byte) (s : State) : Res State :=
  regRegRegOp 0x05 rA rB rC (fun b c => .next (b ^^^ c)) s

/-- NOT: `x[rA] <- ~x[rB]` (R109). -/
def execNot (rA rB : Byte) (s : State) : Res State :=
  regRegOp 0x06 rA rB (fun b => ~~~b) s

/-- LSH: left, or right filling zeros, by the sign of x[rC] (R110). -/
def execLsh (rA rB rC : Byte) (s : State) : Res State :=
  bidirectionalShift .lsr 0x07 rA rB rC s

/-- ASH: left, or right filling copies of bit 31, by the sign of x[rC] (R111). -/
def execAsh (rA rB rC : Byte) (s : State) : Res State :=
  bidirectionalShift .asr 0x08 rA rB rC s

end Sys2Proof.Machine
end

