-- ==== Sys2Proof/Machine/MoveConst.lean ====
section
/-! DEFINITION. The constant and move instructions (42_move_const.md R112 to R115). -/

namespace Sys2Proof.Machine

/-- SET: `x[rA] <- zext_32(v)`; no register is read (R112). -/
def execSet (rA : Byte) (v : BitVec 16) (s : State) : Res State :=
  withReg 0x0B rA fun a => setRegNext a (zext16 v) s

/-- MOV: `x[rA] <- x[rB]` (R113). -/
def execMov (rA rB : Byte) (s : State) : Res State :=
  regRegOp 0x0C rA rB (fun b => b) s

/-- SUP: `x[rA] <- (x[rA] & 0x0000FFFF) | (zext_32(v) << 16)` (R114; the source itself doubts that the low half-word is kept,
90_conflicts.md C8, log 14). -/
def execSup (rA : Byte) (v : BitVec 16) (s : State) : Res State :=
  withReg 0x41 rA fun a =>
    (readReg a s).andThen fun va =>
    setRegNext a ((va &&& (0x0000FFFF : Word)) ||| (zext16 v <<< 16)) s

/-- SXT: `x[rA] <- sext_32(x[rB][15:0])` (R115). -/
def execSxt (rA rB : Byte) (s : State) : Res State :=
  regRegOp 0x42 rA rB sextLow16 s

end Sys2Proof.Machine
end

