-- ==== Sys2Proof/Machine/LoadStore.lean ====
section
/-! DEFINITION. The loads and stores (43_load_store.md R116 to R120). -/

namespace Sys2Proof.Machine

/-- A load: the base rB is read, then memory at the effective address, then rA is written (R116, R117, R119). -/
def loadOp (opcode rA rB v : Byte) (access : Word → State → Res Word) (s : State) : Res State :=
  withReg opcode rA fun a => withReg opcode rB fun b =>
    (readReg b s).andThen fun base =>
    (access (effAddr base v) s).andThen fun w => setRegNext a w s

/-- A store: the base rB is read, then the data register rA, then memory is written (R116, R118, R120). -/
def storeOp (opcode rA rB v : Byte) (access : Word → Word → State → Res State) (s : State) : Res State :=
  withReg opcode rA fun a => withReg opcode rB fun b =>
    (readReg b s).andThen fun base =>
    (readReg a s).andThen fun w =>
    (access (effAddr base v) w s).andThen fallThrough

/-- LDW: `x[rA] <- MemRead(x[rB] + off32, 4)` (R117). -/
def execLdw (rA rB v : Byte) (s : State) : Res State :=
  loadOp 0x0D rA rB v readWord s

/-- STW: `MemWrite(x[rB] + off32, 4, x[rA])` (R118). -/
def execStw (rA rB v : Byte) (s : State) : Res State :=
  storeOp 0x0E rA rB v writeWord s

/-- LDB: `x[rA] <- zext_32(MemRead(x[rB] + off32, 1))` (R119). -/
def execLdb (rA rB v : Byte) (s : State) : Res State :=
  loadOp 0x0F rA rB v (fun a s => (readByte a s).andThen fun b => .next (zext8 b)) s

/-- STB: `MemWrite(x[rB] + off32, 1, x[rA][7:0])` (R120). -/
def execStb (rA rB v : Byte) (s : State) : Res State :=
  storeOp 0x10 rA rB v (fun a w s => .next (writeByte a (field3 w) s)) s

end Sys2Proof.Machine
end

