-- ==== Sys2Proof/Machine/Control.lean ====
section
/-! DEFINITION. The control transfers (44_control.md R121 to R126). There is no delay slot, and no target is checked. -/

namespace Sys2Proof.Machine

/-- A branch to x[rA] when `taken x[rB]`, else the sequential successor. "x[rA] is read only when the branch is taken"
(44_control.md R123, R124). -/
def branchOp (opcode rA rB : Byte) (taken : Word → Bool) (s : State) : Res State :=
  withReg opcode rA fun a => withReg opcode rB fun b =>
    (readReg b s).andThen fun vb =>
    if taken vb then (readReg a s).andThen fun target => jumpTo target s else fallThrough s

/-- JMI: `pc <- zext_32(v)`, through the host's label for that address, which is requested once and created if there is none
(R121; 10_state.md R27; the port answers a handle for every address, 40_lifter_ir.md R99). -/
def execJmi (v : BitVec 24) (s : State) : Res State :=
  let r := getOrCreateLabel (zext24 v) s
  jumpTo r.1.addr r.2

/-- JMP: `pc <- x[rA]` (R122). -/
def execJmp (rA : Byte) (s : State) : Res State :=
  withReg 0x21 rA fun a => (readReg a s).andThen fun target => jumpTo target s

/-- BVE: `if x[rB] = zext_32(v) then pc <- x[rA] else pc <- address + 4` (R123). -/
def execBve (rA rB v : Byte) (s : State) : Res State :=
  branchOp 0x24 rA rB (fun b => equalsImm b v) s

/-- BVN: `if x[rB] != zext_32(v) then pc <- x[rA] else pc <- address + 4` (R124). -/
def execBvn (rA rB v : Byte) (s : State) : Res State :=
  branchOp 0x25 rA rB (fun b => !equalsImm b v) s

/-- CAL: `tgt <- x[rA]; x[lr] <- address + 4; pc <- tgt` (R125, D12). -/
def execCal (rA : Byte) (s : State) : Res State :=
  withReg 0x2A rA fun a =>
    (readReg a s).andThen fun target =>
    jumpTo target (s.setReg lrReg (s.pc + 4))

/-- RET: `tgt <- x[lr]; x[lr] <- 0; pc <- tgt` (R126; 70_reset_and_hazards.md R155). -/
def execRet (s : State) : Res State :=
  (readReg lrReg s).andThen fun target => jumpTo target (s.setReg lrReg 0)

end Sys2Proof.Machine
end

