-- ==== Sys2Proof/Machine/CompareSia.lean ====
section
/-! DEFINITION. The comparisons into a register, and shift-and-add (45_compare_sia.md R127 to R130). -/

namespace Sys2Proof.Machine

/-- TCU: -1, 0 or 1 by the unsigned order of x[rB] and x[rC] (R127). -/
def execTcu (rA rB rC : Byte) (s : State) : Res State :=
  regRegRegOp 0x09 rA rB rC (fun b c => .next (compareU b c)) s

/-- TCS: -1, 0 or 1 by the signed order of x[rB] and x[rC] (R128). -/
def execTcs (rA rB rC : Byte) (s : State) : Res State :=
  regRegRegOp 0x0A rA rB rC (fun b c => .next (compareS b c)) s

/-- SEQ: `x[rA] <- (x[rB] = zext_32(v)) ? 1 : 0` (R129). -/
def execSeq (rA rB v : Byte) (s : State) : Res State :=
  regRegOp 0x43 rA rB (fun b => boolToWord (equalsImm b v)) s

/-- SIA: `x[rA] <- x[rA] + (zext_32(v0) << zext_32(v1))`; a count of 32 to 255 gives `SHIFT_OVERSIZE` (R130). -/
def execSia (rA v0 v1 : Byte) (s : State) : Res State :=
  withReg 0x40 rA fun a =>
    (readReg a s).andThen fun va =>
    let r := shiftBy .shl (zext8 v0) (zext8 v1) s
    setRegNext a (va + r.1) r.2

end Sys2Proof.Machine
end

