-- ==== Sys2Proof/Machine/System.lean ====
section
/-! DEFINITION. The system instructions (46_system.md R131 to R134). None needs a privilege (60_exceptions.md R142). -/

namespace Sys2Proof.Machine

/-- NOP: no effect, then the sequential successor (R131). -/
def execNop (s : State) : Res State := fallThrough s

/-- HLT: the status becomes halted, and pc stays (R132). -/
def execHlt (s : State) : Res State := halt s

/-- INT: the status becomes syscall(v), with pc at the sequential successor (R133, 60_exceptions.md R140). -/
def execInt (v : BitVec 24) (s : State) : Res State := enterSyscall v s

/-- SND: the device send that the source leaves unmodelled; the evaluation refuses, whatever the operands are (R134,
40_lifter_ir.md R84, R96; log 12). -/
def execSnd (_rA _rB _rC : Byte) (_s : State) : Res State := .refused (.unmodelled 0xFD)

end Sys2Proof.Machine
end

