-- ==== Sys2Proof/Machine/Dispatch.lean ====
section
/-! DEFINITION. The dispatch from an instruction to its meaning (40_lifter_ir.md R83): one arm per constructor. -/

namespace Sys2Proof.Machine

def exec (i : Instr) (s : State) : Host.Outcome State Fault Refusal :=
  match i with
  | .nop => Sys2Proof.Machine.execNop s
  | .add rA rB rC => Sys2Proof.Machine.execAdd rA rB rC s
  | .sub rA rB rC => Sys2Proof.Machine.execSub rA rB rC s
  | .and rA rB rC => Sys2Proof.Machine.execAnd rA rB rC s
  | .orr rA rB rC => Sys2Proof.Machine.execOrr rA rB rC s
  | .xor rA rB rC => Sys2Proof.Machine.execXor rA rB rC s
  | .not rA rB => Sys2Proof.Machine.execNot rA rB s
  | .lsh rA rB rC => Sys2Proof.Machine.execLsh rA rB rC s
  | .ash rA rB rC => Sys2Proof.Machine.execAsh rA rB rC s
  | .tcu rA rB rC => Sys2Proof.Machine.execTcu rA rB rC s
  | .tcs rA rB rC => Sys2Proof.Machine.execTcs rA rB rC s
  | .set rA v => Sys2Proof.Machine.execSet rA v s
  | .mov rA rB => Sys2Proof.Machine.execMov rA rB s
  | .ldw rA rB v => Sys2Proof.Machine.execLdw rA rB v s
  | .stw rA rB v => Sys2Proof.Machine.execStw rA rB v s
  | .ldb rA rB v => Sys2Proof.Machine.execLdb rA rB v s
  | .stb rA rB v => Sys2Proof.Machine.execStb rA rB v s
  | .jmi v => Sys2Proof.Machine.execJmi v s
  | .jmp rA => Sys2Proof.Machine.execJmp rA s
  | .bve rA rB v => Sys2Proof.Machine.execBve rA rB v s
  | .bvn rA rB v => Sys2Proof.Machine.execBvn rA rB v s
  | .cal rA => Sys2Proof.Machine.execCal rA s
  | .ret => Sys2Proof.Machine.execRet s
  | .mul rA rB rC => Sys2Proof.Machine.execMul rA rB rC s
  | .div rA rB rC => Sys2Proof.Machine.execDiv rA rB rC s
  | .mod rA rB rC => Sys2Proof.Machine.execMod rA rB rC s
  | .sia rA v0 v1 => Sys2Proof.Machine.execSia rA v0 v1 s
  | .sup rA v => Sys2Proof.Machine.execSup rA v s
  | .sxt rA rB => Sys2Proof.Machine.execSxt rA rB s
  | .seq rA rB v => Sys2Proof.Machine.execSeq rA rB v s
  | .int v => Sys2Proof.Machine.execInt v s
  | .snd rA rB rC => Sys2Proof.Machine.execSnd rA rB rC s
  | .hlt => Sys2Proof.Machine.execHlt s

end Sys2Proof.Machine
end

