-- ==== Sys2Proof/Machine/Fetch.lean ====
section
/-! DEFINITION. Fetching the instruction at pc (40_lifter_ir.md R99, steps 1 and 2), and placing an instruction there. -/

namespace Sys2Proof.Machine

/-- Read the 4 bytes at pc to pc + 3 from memory; an unwritten one faults (R99). They are read from the lowest on, so that of several
unwritten ones the lowest is reported: DESIGN CHOICE, log 15. The fetch has no alignment
rule (20_memory.md R40), and reads the same memory as data (20_memory.md R52; log 11). -/
def fetchBytes (s : State) : Res (List Byte) :=
  (readByte s.pc s).andThen fun b0 =>
  (readByte (s.pc + 1) s).andThen fun b1 =>
  (readByte (s.pc + 2) s).andThen fun b2 =>
  (readByte (s.pc + 3) s).andThen fun b3 =>
  .next [b0, b1, b2, b3]

/-- Fetch and decode: a decode error is the fault `IllegalInstruction(err)` (R99). -/
def fetch (s : State) : Res Instr :=
  (fetchBytes s).andThen fun buf =>
    match decodeBytes buf 0 with
    | .ok i => .next i
    | .error e => .fault (.illegalInstruction e)

/-- The state with the word `w` in memory at pc, little-endian (20_memory.md R36), and running. -/
def placeInstr (s : State) (w : Word) : State :=
  (writeFour s.pc w s).setStatus .running

end Sys2Proof.Machine
end

