-- ==== Sys2Proof/Machine/Step.lean ====
section
/-! DEFINITION. One step of the reference machine (40_lifter_ir.md R99), and the fetch word. -/

namespace Sys2Proof.Machine

/-- One step at pc: fetch, decode, and evaluate, while the status is running (40_lifter_ir.md R99). Once it is not, there is no
step: a fault or refusal is never cleared (60_exceptions.md R150), and a halt or system call is stuck
(93_implementation_defined.md U8, U9; log 17). -/
def step (s : State) : Host.Outcome State Fault Refusal :=
  match s.status with
  | .running => Res.andThen (fetch s) fun i => exec i s
  | .halted => .fault .stuckHalted
  | .syscall code => .fault (.stuckSyscall code)
  | .fault r => .fault r
  | .refused r => .refused r

/-- `s` with the instruction whose bits are `w` (bit 0 the least significant of the first byte, the bits from `nbits` up 0) stored
where the next step fetches, and running: the load of a program from outside (log 18). -/
def State.withFetchWord (s : State) (nbits w : Nat) : State :=
  placeInstr s (BitVec.ofNat 32 (w % 2 ^ nbits))

end Sys2Proof.Machine
end

