-- ==== Sys2Proof/Machine/Container.lean ====
section
/-! DEFINITION. The container of the upstream collaborator (20_memory.md R45 to R47). The block never parses it; its header, its one
validity check and its two sections are modelled for the interface's completeness, and no step uses them. -/

namespace Sys2Proof.Machine

/-- The 24-byte header (20_memory.md R45), the magic as its four bytes in the order of the file. `magic`, `version`, `reserved` and
`reserved2` are checked by nothing (R46). -/
structure ContainerHeader where
  magic : Vector Byte 4
  version : BitVec 16
  reserved : BitVec 16
  entryOffset : BitVec 32
  codeSize : BitVec 32
  dataSize : BitVec 32
  reserved2 : BitVec 32
deriving DecidableEq, Repr

/-- The stated magic, the 4 bytes "RGVM" (20_memory.md R45). -/
def containerMagic : Vector Byte 4 := #v[0x52, 0x47, 0x56, 0x4D]

/-- The header bears the stated magic (20_memory.md R45). "The source states no check on `magic`", so `parseContainer` does not ask
(R46). -/
def ContainerHeader.hasMagic (h : ContainerHeader) : Bool := decide (h.magic = containerMagic)

/-- A container: header, code bytes, data bytes (20_memory.md R45). -/
structure Container where
  header : ContainerHeader
  code : List Byte
  data : List Byte
deriving DecidableEq, Repr

/-- The byte of a file at an offset. Only `parseContainer` asks, of offsets the file has. -/
def fileByte (file : List Byte) (off : Nat) : Byte := file.getD off 0

/-- A little-endian 16-bit field (20_memory.md R45). -/
def fileHalf (file : List Byte) (off : Nat) : BitVec 16 := fileByte file (off + 1) ++ fileByte file off

/-- A little-endian 32-bit field (20_memory.md R45). -/
def fileWord (file : List Byte) (off : Nat) : BitVec 32 :=
  wordOfBytes (fileByte file off) (fileByte file (off + 1)) (fileByte file (off + 2)) (fileByte file (off + 3))

/-- The header's fields at their byte offsets: magic 0 to 3, version 4 to 5, reserved 6 to 7, entry_offset 8 to 11, code_size 12 to 15,
data_size 16 to 19, reserved2 20 to 23 (20_memory.md R45). -/
def containerHeader (file : List Byte) : ContainerHeader where
  magic := #v[fileByte file 0, fileByte file 1, fileByte file 2, fileByte file 3]
  version := fileHalf file 4
  reserved := fileHalf file 6
  entryOffset := fileWord file 8
  codeSize := fileWord file 12
  dataSize := fileWord file 16
  reserved2 := fileWord file 20

/-- A container, or none where it is rejected: "total file length must equal `24 + code_size + data_size`" (20_memory.md R46). Code
starts at byte 24, data at byte 24 + code_size (R45). -/
def parseContainer (file : List Byte) : Option Container :=
  let h := containerHeader file
  if 24 ≤ file.length ∧ file.length = 24 + h.codeSize.toNat + h.dataSize.toNat then
    some ⟨h, (file.drop 24).take h.codeSize.toNat, (file.drop (24 + h.codeSize.toNat)).take h.dataSize.toNat⟩
  else none

/-- The address of the first instruction: `entry_offset` from the parameter ENTRY_BASE (20_memory.md R47; log 9). -/
def entryAddress (h : ContainerHeader) : Word := Config.entryBase + h.entryOffset

end Sys2Proof.Machine
end

