-- ==== Sys2Proof/Machine/Format.lean ====
section
/-! DEFINITION. The text formatter (30_encoding.md R77 to R81), as characters, and the register map (10_state.md R17 (b), R18, R19).
The names pc, lr, ad, at, sp are marked as general knowledge by the spec: PRESUMED, log 20. -/

namespace Sys2Proof.Machine

/-- The rendering of a mnemonic, in lower case (R77). -/
def mnemonicText : Mnemonic → List Char
  | .nop => ['n', 'o', 'p']
  | .add => ['a', 'd', 'd']
  | .sub => ['s', 'u', 'b']
  | .and => ['a', 'n', 'd']
  | .orr => ['o', 'r', 'r']
  | .xor => ['x', 'o', 'r']
  | .not => ['n', 'o', 't']
  | .lsh => ['l', 's', 'h']
  | .ash => ['a', 's', 'h']
  | .tcu => ['t', 'c', 'u']
  | .tcs => ['t', 'c', 's']
  | .set => ['s', 'e', 't']
  | .mov => ['m', 'o', 'v']
  | .ldw => ['l', 'd', 'w']
  | .stw => ['s', 't', 'w']
  | .ldb => ['l', 'd', 'b']
  | .stb => ['s', 't', 'b']
  | .jmi => ['j', 'm', 'i']
  | .jmp => ['j', 'm', 'p']
  | .bve => ['b', 'v', 'e']
  | .bvn => ['b', 'v', 'n']
  | .cal => ['c', 'a', 'l']
  | .ret => ['r', 'e', 't']
  | .mul => ['m', 'u', 'l']
  | .div => ['d', 'i', 'v']
  | .mod => ['m', 'o', 'd']
  | .sia => ['s', 'i', 'a']
  | .sup => ['s', 'u', 'p']
  | .sxt => ['s', 'x', 't']
  | .seq => ['s', 'e', 'q']
  | .int => ['i', 'n', 't']
  | .snd => ['s', 'n', 'd']
  | .hlt => ['h', 'l', 't']

/-- The canonical name of a register identifier, or none for an undefined entry of the register map (10_state.md R18, R19). -/
def registerName (f : Byte) : Option (List Char) :=
  if f.toNat < 0x20 then some ('r' :: Nat.toDigits 10 f.toNat)
  else if f = 0x20 then some ['p', 'c']
  else if f = 0x21 then some ['l', 'r']
  else if f = 0x22 then some ['a', 'd']
  else if f = 0x23 then some ['a', 't']
  else if f = 0x24 then some ['s', 'p']
  else none

/-- A decimal token (R79). -/
def decimalToken (n : Nat) : List Char := Nat.toDigits 10 n

/-- A `$`-prefixed token in lower-case hexadecimal digits with no leading zeros, `$0` for zero (R79). -/
def hexToken (n : Nat) : List Char := '$' :: Nat.toDigits 16 n

/-- The token of an operand: a register's name, an 8-bit immediate in decimal, a 16-bit or 24-bit immediate as a `$` token
(R78, R79, R80, D20); none for a register field that names no register. -/
def operandToken : Operand → Option (List Char)
  | .reg f => registerName f
  | .imm8 v => some (decimalToken v.toNat)
  | .imm16 v => some (hexToken v.toNat)
  | .imm24 v => some (hexToken v.toNat)

/-- The tokens of an instruction: the mnemonic, then one token for each operand (R80); none where a register field names no
register, the instruction being then already invalid (R81). -/
def instrTokens (i : Instr) : Option (List (List Char)) :=
  (i.operands.mapM operandToken).map fun ts => mnemonicText i.mnemonic :: ts

/-- The instruction of a valid record: one that the decoder can return, its mnemonic, format and operands being those of its opcode.
The spec does not say which records are "already-invalid" (R81): DESIGN CHOICE, log 35, every other one. -/
def validInstr? (d : Decoded) : Option Instr :=
  d.instr?.filter fun i => i.wf && decide (i.record = d)

/-- The tokens of a record, or the fixed placeholder token for an absent or already invalid one (R81; which ones: log 35). -/
def formatTokens (d : Option Decoded) : List (List Char) :=
  match d.bind fun d => (validInstr? d).bind instrTokens with
  | some ts => ts
  | none => [Config.invalidPlaceholder]

/-- The formatter: the tokens separated by one space (R77). -/
def formatText (d : Option Decoded) : List Char :=
  [' '].intercalate (formatTokens d)

end Sys2Proof.Machine
end

