-- ==== Sys2Proof/Machine/Ir.lean ====
section
/-! DEFINITION. The intermediate representation the lifter emits (40_lifter_ir.md R86, R87), and the control-flow edges (R92). -/

namespace Sys2Proof.Machine

/-- The width of an IR expression (40_lifter_ir.md R86). -/
inductive Width where
  | word | byte | bool
deriving DecidableEq, Repr

/-- The binary operations on Word32 (R86). -/
inductive BinOp where
  | add | sub | mul | divU | modU | and | or | xor
deriving DecidableEq, Repr

/-- `Not` and `Neg` (R86). -/
inductive UnOp where
  | not | neg
deriving DecidableEq, Repr

/-- The comparisons, U unsigned and S signed (R86, R94). -/
inductive CmpOp where
  | e | ne | ugt | ult | sgt | slt | sge
deriving DecidableEq, Repr

/-- An IR expression of a width (R86). -/
inductive Expr : Width → Type where
  /-- `Reg(r)` -/
  | reg (r : RegId) : Expr .word
  /-- `Temp(k)` -/
  | temp (k : Nat) : Expr .word
  /-- `Const(v)` -/
  | const (v : Word) : Expr .word
  /-- `ConstPtr(v)` -/
  | constPtr (v : Word) : Expr .word
  /-- `Add(a,b)` to `Xor(a,b)` -/
  | bin (op : BinOp) (a b : Expr .word) : Expr .word
  /-- `Not(a)`, `Neg(a)` -/
  | un (op : UnOp) (a : Expr .word) : Expr .word
  /-- `Shl(a,s)`, `Lsr(a,s)`, `Asr(a,s)` -/
  | shift (k : ShiftKind) (a c : Expr .word) : Expr .word
  /-- `CmpE(a,b)` to `CmpSGE(a,b)` -/
  | cmp (op : CmpOp) (a b : Expr .word) : Expr .bool
  /-- `BoolToInt(c)` -/
  | boolToInt (c : Expr .bool) : Expr .word
  /-- `Load4(a)` -/
  | load4 (a : Expr .word) : Expr .word
  /-- `Load1(a)` -/
  | load1 (a : Expr .word) : Expr .byte
  /-- `ZeroExt(e)` -/
  | zeroExt (e : Expr .byte) : Expr .word
  /-- `Low8(e)` -/
  | low8 (e : Expr .word) : Expr .byte
deriving DecidableEq, Repr

/-- Where `Goto` goes: a local label of the same lift, or a host label (R87, R88). -/
inductive Target where
  | loc (l : Nat)
  | host (h : HostLabel)
deriving DecidableEq, Repr

/-- An IR operation (R87). A local label is a number, distinct within its lift (R88). -/
inductive IrOp where
  /-- `SetReg(r, e)` -/
  | setReg (r : RegId) (e : Expr .word)
  /-- `SetTemp(k, e)` -/
  | setTemp (k : Nat) (e : Expr .word)
  /-- `Store1(a, e)` -/
  | store1 (a : Expr .word) (e : Expr .byte)
  /-- `Store4(a, e)` -/
  | store4 (a e : Expr .word)
  /-- `If(c, Lt, Lf)`: to local label Lt if c, else Lf -/
  | branch (c : Expr .bool) (lt lf : Nat)
  /-- `Goto(L)` -/
  | goto (target : Target)
  /-- `Jump(e)` -/
  | jump (e : Expr .word)
  /-- `Call(e)` -/
  | call (e : Expr .word)
  /-- `Ret(e)` -/
  | ret (e : Expr .word)
  /-- `Nop` -/
  | nop
  /-- `Unimplemented` -/
  | unimplemented
  /-- `Syscall(code)` -/
  | syscall (code : BitVec 24)
  /-- `NoRet` -/
  | noRet
  /-- `Label(L)` -/
  | label (l : Nat)
deriving DecidableEq, Repr

/-- An advisory control-flow edge (R92). -/
inductive Edge where
  /-- `Unconditional(t)`: a known target -/
  | unconditional (t : Word)
  /-- `Indirect`: a target computed at run time from a register -/
  | indirect
  /-- `TrueIndirect`: taken when a condition holds, to a register's value -/
  | trueIndirect
  /-- `False(t)`: taken when the condition fails, to t -/
  | falseTo (t : Word)
  /-- `CallIndirect`: a call through a register -/
  | callIndirect
  /-- `Return` -/
  | returns
  /-- `NoReturn`: no successor -/
  | noReturn
deriving DecidableEq, Repr

/-- The output of a lift: the operation sequence and the edge list (10_state.md R30). -/
structure Lifted where
  ops : List IrOp
  edges : List Edge
deriving DecidableEq, Repr

end Sys2Proof.Machine
end

