-- ==== Sys2Proof/Machine/Lift.lean ====
section
/-! DEFINITION. The semantic lifter (40_lifter_ir.md R83 to R93): for each instruction its canonical IR sequence, as the "IR" line
of its rule in 41_arith_logic.md to 46_system.md gives it, and its edges. -/

namespace Sys2Proof.Machine

/-- The three local labels of a lift, Lt, Lf and Le: "any distinct names conform" (40_lifter_ir.md R88, 95_test_vectors.md §3;
log 16). -/
abbrev labelT : Nat := 0
/-- The local label Lf. -/
abbrev labelF : Nat := 1
/-- The local label Le. -/
abbrev labelE : Nat := 2

/-- A sequence over one register field, or none where the field names no register (40_lifter_ir.md R84 (b)). -/
def lift1 (f1 : Byte) (k : RegId → List IrOp) : Option (List IrOp) :=
  (regId? f1).map k

/-- A sequence over two register fields. -/
def lift2 (f1 f2 : Byte) (k : RegId → RegId → List IrOp) : Option (List IrOp) :=
  (regId? f1).bind fun a => (regId? f2).map fun b => k a b

/-- A sequence over three register fields. -/
def lift3 (f1 f2 f3 : Byte) (k : RegId → RegId → RegId → List IrOp) : Option (List IrOp) :=
  (regId? f1).bind fun a => (regId? f2).bind fun b => (regId? f3).map fun c => k a b c

/-- `SetReg(rA, op(Reg(rB), Reg(rC)))` (41_arith_logic.md R101 to R108). -/
def binarySeq (op : BinOp) (a b c : RegId) : List IrOp :=
  [.setReg a (.bin op (.reg b) (.reg c))]

/-- The explicit two-way branch on the sign of rC (41_arith_logic.md R110, R111; 40_lifter_ir.md R90 (a)). -/
def shiftSeq (right : ShiftKind) (a b c : RegId) : List IrOp :=
  [.branch (.cmp .sge (.reg c) (.const 0)) labelT labelF,
   .label labelT,
   .setReg a (.shift .shl (.reg b) (.reg c)),
   .goto (.loc labelE),
   .label labelF,
   .setReg a (.shift right (.reg b) (.un .neg (.reg c))),
   .label labelE]

/-- Two boolean comparisons subtracted (45_compare_sia.md R127, R128; 40_lifter_ir.md R90 (b)). -/
def compareSeq (gt lt : CmpOp) (a b c : RegId) : List IrOp :=
  [.setReg a (.bin .sub (.boolToInt (.cmp gt (.reg b) (.reg c))) (.boolToInt (.cmp lt (.reg b) (.reg c))))]

/-- A conditional branch to x[rA], else the end of the sequence (44_control.md R123, R124). -/
def branchSeq (op : CmpOp) (a b : RegId) (v : Byte) : List IrOp :=
  [.branch (.cmp op (.reg b) (.const (zext8 v))) labelT labelF,
   .label labelT,
   .jump (.reg a),
   .label labelF]

/-- `EA = Add(Reg(rB), Const(off32))` (43_load_store.md R116). -/
def eaExpr (b : RegId) (v : Byte) : Expr .word := .bin .add (.reg b) (.const (offset32 v))

/-- The one request a lift makes of the host: JMI's, for a label of its target (44_control.md R121, 10_state.md R27). -/
def labelRequest : Instr → Option Word
  | .jmi v => some (zext24 v)
  | .nop | .add _ _ _ | .sub _ _ _ | .and _ _ _ | .orr _ _ _ | .xor _ _ _ | .not _ _ | .lsh _ _ _ | .ash _ _ _
  | .tcu _ _ _ | .tcs _ _ _ | .set _ _ | .mov _ _ | .ldw _ _ _ | .stw _ _ _ | .ldb _ _ _ | .stb _ _ _ | .jmp _
  | .bve _ _ _ | .bvn _ _ _ | .cal _ | .ret | .mul _ _ _ | .div _ _ _ | .mod _ _ _ | .sia _ _ _ | .sup _ _ | .sxt _ _
  | .seq _ _ _ | .int _ | .snd _ _ _ | .hlt => none

/-- The canonical sequence of an instruction, `answer` being the label port's answer to its request; none where a register field
names no register (40_lifter_ir.md R84 (b)). -/
def liftOps (i : Instr) (answer : Option HostLabel) : Option (List IrOp) :=
  match i with
  | .nop => some [.nop]
  | .add rA rB rC => lift3 rA rB rC (binarySeq .add)
  | .sub rA rB rC => lift3 rA rB rC (binarySeq .sub)
  | .and rA rB rC => lift3 rA rB rC (binarySeq .and)
  | .orr rA rB rC => lift3 rA rB rC (binarySeq .or)
  | .xor rA rB rC => lift3 rA rB rC (binarySeq .xor)
  | .not rA rB => lift2 rA rB fun a b => [.setReg a (.un .not (.reg b))]
  | .lsh rA rB rC => lift3 rA rB rC (shiftSeq .lsr)
  | .ash rA rB rC => lift3 rA rB rC (shiftSeq .asr)
  | .tcu rA rB rC => lift3 rA rB rC (compareSeq .ugt .ult)
  | .tcs rA rB rC => lift3 rA rB rC (compareSeq .sgt .slt)
  | .set rA v => lift1 rA fun a => [.setReg a (.const (zext16 v))]
  | .mov rA rB => lift2 rA rB fun a b => [.setReg a (.reg b)]
  | .ldw rA rB v => lift2 rA rB fun a b => [.setReg a (.load4 (eaExpr b v))]
  | .stw rA rB v => lift2 rA rB fun a b => [.store4 (eaExpr b v) (.reg a)]
  | .ldb rA rB v => lift2 rA rB fun a b => [.setReg a (.zeroExt (.load1 (eaExpr b v)))]
  | .stb rA rB v => lift2 rA rB fun a b => [.store1 (eaExpr b v) (.low8 (.reg a))]
  | .jmi v =>
      match answer with
      | some h => some [.goto (.host h)]
      | none => some [.jump (.constPtr (zext24 v))]
  | .jmp rA => lift1 rA fun a => [.jump (.reg a)]
  | .bve rA rB v => lift2 rA rB fun a b => branchSeq .e a b v
  | .bvn rA rB v => lift2 rA rB fun a b => branchSeq .ne a b v
  | .cal rA => lift1 rA fun a => [.call (.reg a)]
  | .ret => some [.setTemp 0 (.reg lrReg), .setReg lrReg (.const 0), .ret (.temp 0)]
  | .mul rA rB rC => lift3 rA rB rC (binarySeq .mul)
  | .div rA rB rC => lift3 rA rB rC (binarySeq .divU)
  | .mod rA rB rC => lift3 rA rB rC (binarySeq .modU)
  | .sia rA v0 v1 => lift1 rA fun a =>
      [.setReg a (.bin .add (.reg a) (.shift .shl (.const (zext8 v0)) (.const (zext8 v1))))]
  | .sup rA v => lift1 rA fun a =>
      [.setReg a (.bin .or (.bin .and (.reg a) (.const 0x0000FFFF)) (.shift .shl (.const (zext16 v)) (.const 16)))]
  | .sxt rA rB => lift2 rA rB fun a b =>
      [.setReg a (.shift .asr (.shift .shl (.reg b) (.const 16)) (.const 16))]
  | .seq rA rB v => lift2 rA rB fun a b => [.setReg a (.boolToInt (.cmp .e (.reg b) (.const (zext8 v))))]
  | .int v => some [.syscall v]
  | .snd _ _ _ => some [.unimplemented]
  | .hlt => some [.noRet]

/-- The edges of an instruction at an address (40_lifter_ir.md R93). -/
def liftEdges (i : Instr) (address : Word) : List Edge :=
  match i with
  | .jmi v => [.unconditional (zext24 v)]
  | .jmp _ => [.indirect]
  | .bve _ _ _ | .bvn _ _ _ => [.trueIndirect, .falseTo (address + 4)]
  | .cal _ => [.callIndirect]
  | .ret => [.returns]
  | .hlt => [.noReturn]
  | .nop | .add _ _ _ | .sub _ _ _ | .and _ _ _ | .orr _ _ _ | .xor _ _ _ | .not _ _ | .lsh _ _ _ | .ash _ _ _
  | .tcu _ _ _ | .tcs _ _ _ | .set _ _ | .mov _ _ | .ldw _ _ _ | .stw _ _ _ | .ldb _ _ _ | .stb _ _ _ | .mul _ _ _
  | .div _ _ _ | .mod _ _ _ | .sia _ _ _ | .sup _ _ | .sxt _ _ | .seq _ _ _ | .int _ | .snd _ _ _ => []

/-- The lifter's fallback: the marker alone, with no edge (40_lifter_ir.md R84). -/
def fallbackLift : Lifted := ⟨[.unimplemented], []⟩

/-- The lift of an instruction at an address, given the label port's answer (40_lifter_ir.md R83 to R85). -/
def lift (i : Instr) (address : Word) (answer : Option HostLabel) : Lifted :=
  match liftOps i answer with
  | some ops => ⟨ops, liftEdges i address⟩
  | none => fallbackLift

/-- The lift port: any record, its address, and the label port as an injected capability (10_state.md R27, R30). The arm is the
opcode's (40_lifter_ir.md R83; log 19), and a record whose operands do not fit its opcode gives the fallback (R84 (b)). -/
def liftRecord (d : Decoded) (address : Word) (port : Word → Option HostLabel) : Lifted :=
  match d.instr? with
  | some i => lift i address ((labelRequest i).bind port)
  | none => fallbackLift

/-! ### The classification sets (40_lifter_ir.md R91) -/

/-- is-branch = JMI, JMP, BVE, BVN. -/
def isBranch (m : Mnemonic) : Bool := decide (m ∈ [Mnemonic.jmi, .jmp, .bve, .bvn])

/-- is-conditional-branch = BVE, BVN. -/
def isConditionalBranch (m : Mnemonic) : Bool := decide (m ∈ [Mnemonic.bve, .bvn])

/-- is-call = CAL. -/
def isCall (m : Mnemonic) : Bool := decide (m ∈ [Mnemonic.cal])

/-- is-return = RET. -/
def isReturn (m : Mnemonic) : Bool := decide (m ∈ [Mnemonic.ret])

end Sys2Proof.Machine
end

