-- ==== Sys2Proof/Machine/Ports.lean ====
section
/-! DEFINITION. The decode port and the bytes port as the outputs they drive (10_state.md R26, R28; codes of 60_exceptions.md R135 and
30_encoding.md R57). The lift port is `liftRecord` (R30). -/

namespace Sys2Proof.Machine

/-- An operand slot of a port: a register identifier of 6 bits, or an immediate of 8, 16 or 24 bits (10_state.md R26). -/
inductive Slot where
  | reg (r : BitVec 6)
  | imm8 (v : BitVec 8)
  | imm16 (v : BitVec 16)
  | imm24 (v : BitVec 24)
deriving DecidableEq, Repr

/-- The slot that carries an operand. A decoded register is at most 0x24, so its 6 bits are all of it (10_state.md R26, 30_encoding.md
R66). -/
def slotOf : Operand → Slot
  | .reg r => .reg (r.setWidth 6)
  | .imm8 v => .imm8 v
  | .imm16 v => .imm16 v
  | .imm24 v => .imm24 v

/-- The outputs of a decode or bytes request: with `ok` = 1 the decoded instruction in its slots, with `ok` = 0 the error code
(10_state.md R26). A slot beyond `nops` holds nothing (log 30). -/
inductive PortOutput where
  | ok (opcode : Byte) (format : BitVec 3) (mnemonic : Mnemonic) (nops : Nat) (op0 op1 op2 : Option Slot)
  | err (code : Nat)
deriving DecidableEq, Repr

/-- The outputs for a decode's result. -/
def portOutput : Except DecodeError Decoded → PortOutput
  | .ok d =>
      let slots := d.operands.map slotOf
      .ok d.opcode d.format.code d.mnemonic d.operands.length slots[0]? slots[1]? slots[2]?
  | .error e => .err e.code

/-- The decode port (10_state.md R26). -/
def decodePort (w : Word) : PortOutput := portOutput (decodeRecord w)

/-- The bytes port (10_state.md R28, 20_memory.md R41): truncation is checked before any field of a word (60_exceptions.md R137). -/
def bytesPort (buf : List Byte) (off : Nat) : PortOutput :=
  match wordAt buf off with
  | .error e => .err e.code
  | .ok w => decodePort w

end Sys2Proof.Machine
end

