-- ==== Sys2Proof/Machine/Eval.lean ====
section
/-! DEFINITION. The reference evaluation of an IR sequence (40_lifter_ir.md R94 to R98). -/

namespace Sys2Proof.Machine

/-- The values of a width (40_lifter_ir.md R86). -/
abbrev Width.Val : Width → Type
  | .word => Word
  | .byte => Byte
  | .bool => Bool

/-- A binary operation on values (40_lifter_ir.md R94, R97). -/
def evalBin (op : BinOp) (a b : Word) : Res Word :=
  match op with
  | .add => .next (a + b)
  | .sub => .next (a - b)
  | .mul => .next (a * b)
  | .divU => divU a b
  | .modU => modU a b
  | .and => .next (a &&& b)
  | .or => .next (a ||| b)
  | .xor => .next (a ^^^ b)

/-- `Not` and `Neg` on values: `Neg(a) = 0 - a` (40_lifter_ir.md R94). -/
def evalUn (op : UnOp) (a : Word) : Word :=
  match op with
  | .not => ~~~a
  | .neg => 0 - a

/-- A comparison of values (40_lifter_ir.md R94). -/
def evalCmp (op : CmpOp) (a b : Word) : Bool :=
  match op with
  | .e => decide (a = b)
  | .ne => decide (a ≠ b)
  | .ugt => decide (b.toNat < a.toNat)
  | .ult => decide (a.toNat < b.toNat)
  | .sgt => decide (b.toInt < a.toInt)
  | .slt => decide (a.toInt < b.toInt)
  | .sge => decide (b.toInt ≤ a.toInt)

/-- `t[k]` (00_scope.md R13). Temporaries "start with no value" (40_lifter_ir.md R89), and the spec does not say what reading one then
does: it faults as an unwritten location does (10_state.md R32). DESIGN CHOICE, log 34; no canonical sequence reads one before setting
it. -/
def readTemp (k : Nat) (s : State) : Res Word :=
  match s.temps.lookup k with
  | some v => .next v
  | none => .fault (.unwrittenRead (.temp k))

/-- `E[e]` (40_lifter_ir.md R94, R95), operands from left to right. "No expression writes state": the state returned differs only in
the model's own count of free values. -/
def evalExpr : {w : Width} → Expr w → State → Res (w.Val × State)
  | _, .reg r, s => (readReg r s).andThen fun v => .next (v, s)
  | _, .temp k, s => (readTemp k s).andThen fun v => .next (v, s)
  | _, .const v, s => .next (v, s)
  | _, .constPtr v, s => .next (v, s)
  | _, .bin op a b, s =>
      (evalExpr a s).andThen fun p => (evalExpr b p.2).andThen fun q =>
      (evalBin op p.1 q.1).andThen fun v => .next (v, q.2)
  | _, .un op a, s => (evalExpr a s).andThen fun p => .next (evalUn op p.1, p.2)
  | _, .shift k a c, s =>
      (evalExpr a s).andThen fun p => (evalExpr c p.2).andThen fun q => .next (shiftBy k p.1 q.1 q.2)
  | _, .cmp op a b, s =>
      (evalExpr a s).andThen fun p => (evalExpr b p.2).andThen fun q => .next (evalCmp op p.1 q.1, q.2)
  | _, .boolToInt c, s => (evalExpr c s).andThen fun p => .next (boolToWord p.1, p.2)
  | _, .load4 a, s => (evalExpr a s).andThen fun p => (readWord p.1 p.2).andThen fun v => .next (v, p.2)
  | _, .load1 a, s => (evalExpr a s).andThen fun p => (readByte p.1 p.2).andThen fun v => .next (v, p.2)
  | _, .zeroExt e, s => (evalExpr e s).andThen fun p => .next (zext8 p.1, p.2)
  | _, .low8 e, s => (evalExpr e s).andThen fun p => .next (field3 p.1, p.2)

/-- How a sequence goes on after one operation: with the next one, after a local label, or not at all. -/
inductive Continue where
  | onward (s : State)
  | afterLabel (l : Nat) (s : State)
  | stop (s : State)
deriving DecidableEq, Repr

/-- One operation (40_lifter_ir.md R96) of the sequence lifted from the instruction at `address` with `opcode`. Every value it reads
is read before it writes anything. -/
def evalOp (address : Word) (opcode : Byte) (op : IrOp) (s : State) : Res Continue :=
  match op with
  | .setReg r e => (evalExpr e s).andThen fun p => (writeReg r p.1 p.2).andThen fun t => .next (.onward t)
  | .setTemp k e => (evalExpr e s).andThen fun p => .next (.onward (p.2.setTemps ((k, p.1) :: p.2.temps)))
  | .store1 a e =>
      (evalExpr a s).andThen fun p => (evalExpr e p.2).andThen fun q => .next (.onward (writeByte p.1 q.1 q.2))
  | .store4 a e =>
      (evalExpr a s).andThen fun p => (evalExpr e p.2).andThen fun q =>
      (writeWord p.1 q.1 q.2).andThen fun t => .next (.onward t)
  | .branch c lt lf => (evalExpr c s).andThen fun p => .next (.afterLabel (if p.1 then lt else lf) p.2)
  | .goto (.loc l) => .next (.afterLabel l s)
  | .goto (.host h) => .next (.stop (s.setPc h.addr))
  | .jump e => (evalExpr e s).andThen fun p => .next (.stop (p.2.setPc p.1))
  | .call e => (evalExpr e s).andThen fun p => .next (.stop ((p.2.setReg lrReg (address + 4)).setPc p.1))
  | .ret e => (evalExpr e s).andThen fun p => .next (.stop (p.2.setPc p.1))
  | .nop => .next (.onward s)
  | .unimplemented => .refused (.unmodelled opcode)
  | .syscall code => .next (.stop ((s.setStatus (.syscall code)).setPc (address + 4)))
  | .noRet => .next (.stop (s.setStatus .halted))
  | .label _ => .next (.onward s)

/-- The operations after `Label(l)` in a sequence (40_lifter_ir.md R96, "continue after Label(L)"). -/
def opsAfterLabel (l : Nat) : List IrOp → Option (List IrOp)
  | [] => none
  | op :: rest => if op = .label l then some rest else opsAfterLabel l rest

/-- Evaluate the operations that remain, in order (40_lifter_ir.md R96), at most `fuel` of them. A fault or refusal ends the
evaluation: operations before it keep their effects, and no later one runs (60_exceptions.md R144). -/
def evalOps (whole : List IrOp) (address : Word) (opcode : Byte) : Nat → List IrOp → State → State
  | _, [], s => s.setPc (address + 4)
  | 0, _ :: _, s => s.setStatus (.refused .malformedSequence)
  | fuel + 1, op :: rest, s =>
      match evalOp address opcode op s with
      | .next (.onward t) => evalOps whole address opcode fuel rest t
      | .next (.afterLabel l t) =>
          match opsAfterLabel l whole with
          | some rest' => evalOps whole address opcode fuel rest' t
          | none => t.setStatus (.refused .malformedSequence)
      | .next (.stop t) => t
      | .fault r => s.setStatus (.fault r)
      | .refused r => s.setStatus (.refused r)

/-- The evaluation of the sequence lifted from the instruction at `address` (40_lifter_ir.md R96). `t` is empty at its start and
does not survive it (R89). The bound on the number of operations, the length of the sequence, is reached only by a sequence that
evaluates an operation twice, which no lift does (log 16). -/
def evalSeq (ops : List IrOp) (address : Word) (opcode : Byte) (s : State) : State :=
  (evalOps ops address opcode ops.length ops (s.setTemps [])).setTemps []

end Sys2Proof.Machine
end

