-- ==== Sys2Proof/Machine/Reference.lean ====
section
/-! DEFINITION. The reference machine in the spec's own form (40_lifter_ir.md R99): fetch, decode, lift, and evaluate the lifted
sequence; and the run of evaluation states that `step` gives, in which a fault or refusal is a status (10_state.md R31). -/

namespace Sys2Proof.Machine

/-- The label port of the reference machine answers an instruction's request "with a handle for every address"
(40_lifter_ir.md R99), creating the label where there is none (10_state.md R27). -/
def answerLabel (i : Instr) (s : State) : Option HostLabel × State :=
  match labelRequest i with
  | none => (none, s)
  | some a =>
      let r := getOrCreateLabel a s
      (some r.1, r.2)

/-- Lift the instruction at pc and evaluate the sequence (40_lifter_ir.md R99, steps 3 and 4). -/
def evalLifted (i : Instr) (s : State) : State :=
  let r := answerLabel i s
  evalSeq (lift i s.pc r.1).ops s.pc i.opcode r.2

/-- One step of the reference machine through the lifter (40_lifter_ir.md R99). It runs while the status is running. -/
def liftedStep (s : State) : State :=
  if s.status = .running then
    match fetch s with
    | .next i => evalLifted i s
    | .fault r => s.setStatus (.fault r)
    | .refused r => s.setStatus (.refused r)
  else s

/-- The evaluation state after one step of the machine: the step's outcome as a status (10_state.md R31). -/
def refStep (s : State) : State := s.settle (step s)

/-- The evaluation state after `k` steps. -/
def refRun : Nat → State → State
  | 0, s => s
  | k + 1, s => refRun k (refStep s)

end Sys2Proof.Machine
end

