-- ==== Sys2Proof/Safety.lean ====
section
/-! DEFINITION. The vocabulary of the claims: the invariants of the state, what a run may stop for, which opcode maps the spec
admits, and the shapes that the rules of 41_arith_logic.md to 46_system.md share. -/

namespace Sys2Proof.Machine

/-! ### Invariants -/

/-- What every step keeps: memory in its canonical form, no temporary between two instructions (40_lifter_ir.md R89), and no
address with two host labels (10_state.md R27, "request-or-reuse"). -/
structure State.Inv (s : State) : Prop where
  memory : s.mem.wf = true
  temps : s.temps = []
  labels : s.labels.Nodup

/-- Every register holds a word: none is *unwritten* (10_state.md R31). -/
def State.AllWritten (s : State) : Prop := ∀ r : RegId, ∃ w, s.reg r = .value w

/-! ### Frames -/

/-- All memory reads the same in both states, byte by byte. -/
def SameMemory (s t : State) : Prop := ∀ adr : Nat, t.mem.read adr = s.mem.read adr

/-- Every register but `a` holds the same in both states. -/
def SameRegsBut (a : RegId) (s t : State) : Prop := ∀ q : RegId, q ≠ a → t.reg q = s.reg q

/-- Every register holds the same in both states. -/
def SameRegs (s t : State) : Prop := ∀ q : RegId, t.reg q = s.reg q

/-! ### What the spec admits of the opcode map -/

/-- The format of a mnemonic (30_encoding.md R69). -/
def mnemonicFormat (m : Mnemonic) : Format := (m.assemble 0 0 0).format

/-- What the source fixes of OPCODE_MAP (30_encoding.md R70): (a) each mnemonic has one opcode byte, (b) ADD is 0x01 and SET is
0x0B with their formats, (c) 0x99 is unmapped, (d) each mnemonic's format is R69's; a byte that stands for no mnemonic is unmapped
(e), which the map's type says. -/
structure OpcodeMapAdmissible (M : Byte → Option (Mnemonic × Format)) : Prop where
  oneByteEach : ∀ m : Mnemonic, ∃ b : Byte, (∃ f, M b = some (m, f)) ∧ ∀ b' f, M b' = some (m, f) → b' = b
  add : M 0x01 = some (.add, .regRegReg)
  set : M 0x0B = some (.set, .regImm16)
  unmapped : M 0x99 = none
  formats : ∀ b m f, M b = some (m, f) → f = mnemonicFormat m

/-- The unmapped opcode bytes as 30_encoding.md R71 lists them. -/
def unmappedByte (n : Nat) : Prop :=
  (0x11 ≤ n ∧ n ≤ 0x1F) ∨ n = 0x22 ∨ n = 0x23 ∨ (0x26 ≤ n ∧ n ≤ 0x29) ∨ (0x2C ≤ n ∧ n ≤ 0x2F) ∨
  (0x33 ≤ n ∧ n ≤ 0x3F) ∨ (0x44 ≤ n ∧ n ≤ 0xEF) ∨ (0xF1 ≤ n ∧ n ≤ 0xFC) ∨ n = 0xFE

/-! ### Ports and text -/

/-- An operand slot of the decode port carries an operand: a register slot, of 6 bits, the same number, in 0x00 to 0x24; an immediate's
slot the same immediate (10_state.md R26). -/
def SlotCarries : Slot → Operand → Prop
  | .reg q, .reg r => q.toNat = r.toNat ∧ q.toNat ≤ 0x24
  | .imm8 v, .imm8 w => v = w
  | .imm16 v, .imm16 w => v = w
  | .imm24 v, .imm24 w => v = w
  | _, _ => False

/-- `cs` writes `n` in a base: its digits, the most significant first and those from ten on in lower case, with no leading zero; "0" for
zero (30_encoding.md R79). -/
def IsNumeral (base n : Nat) (cs : List Char) : Prop :=
  ∃ ds : List Nat, ds ≠ [] ∧ (∀ d ∈ ds, d < base) ∧ (ds.head? = some 0 → ds = [0]) ∧
    ds.foldl (fun v d => v * base + d) 0 = n ∧ cs = ds.map Nat.digitChar

/-- `cs` is the canonical name of the register a raw field names (10_state.md R18, R19; the five special names: log 20). -/
def IsRegisterName (f : Byte) (cs : List Char) : Prop :=
  (f.toNat < 0x20 ∧ ∃ ds, IsNumeral 10 f.toNat ds ∧ cs = 'r' :: ds) ∨
  (f = 0x20 ∧ cs = "pc".toList) ∨ (f = 0x21 ∧ cs = "lr".toList) ∨ (f = 0x22 ∧ cs = "ad".toList) ∨
  (f = 0x23 ∧ cs = "at".toList) ∨ (f = 0x24 ∧ cs = "sp".toList)

/-- `cs` is the token of an operand: a register's name, an 8-bit immediate in decimal, a 16-bit or 24-bit one as `$` and hexadecimal
(30_encoding.md R78 to R80). -/
def IsToken : Operand → List Char → Prop
  | .reg f, cs => IsRegisterName f cs
  | .imm8 v, cs => IsNumeral 10 v.toNat cs
  | .imm16 v, cs => ∃ ds, IsNumeral 16 v.toNat ds ∧ cs = '$' :: ds
  | .imm24 v, cs => ∃ ds, IsNumeral 16 v.toNat ds ∧ cs = '$' :: ds

/-! ### The shapes of the instruction rules -/

/-- The raw field of a register. -/
def regField (r : RegId) : Byte := BitVec.ofNat 8 r.val

/-- The rule of an instruction of the form reg+reg+reg whose opcode is `op`: its encoding, whose register fields are all
checked; and for all registers a, b, c its canonical sequence and its empty edge list. -/
def RegRegRegForm (op : Byte) (mk : Byte → Byte → Byte → Instr) (seq : RegId → RegId → RegId → List IrOp) : Prop :=
  (∀ rA rB rC : Byte, decode (op ++ rA ++ rB ++ rC) =
    if rA.toNat ≤ 0x24 ∧ rB.toNat ≤ 0x24 ∧ rC.toNat ≤ 0x24 then .ok (mk rA rB rC) else .error .invalidRegisterField) ∧
  ∀ (a b c : RegId) (address : Word) (answer : Option HostLabel),
    lift (mk (regField a) (regField b) (regField c)) address answer = ⟨seq a b c, []⟩

/-- The rule of an instruction of the form reg+reg whose opcode is `op`: the field a3 is ignored. -/
def RegRegForm (op : Byte) (mk : Byte → Byte → Instr) (seq : RegId → RegId → List IrOp) : Prop :=
  (∀ rA rB a3 : Byte, decode (op ++ rA ++ rB ++ a3) =
    if rA.toNat ≤ 0x24 ∧ rB.toNat ≤ 0x24 then .ok (mk rA rB) else .error .invalidRegisterField) ∧
  ∀ (a b : RegId) (address : Word) (answer : Option HostLabel),
    lift (mk (regField a) (regField b)) address answer = ⟨seq a b, []⟩

/-- The rule of an instruction of the form reg+reg+imm8 whose opcode is `op`: the immediate is never checked. -/
def RegRegImm8Form (op : Byte) (mk : Byte → Byte → Byte → Instr) (seq : RegId → RegId → Byte → List IrOp)
    (edges : Word → List Edge) : Prop :=
  (∀ rA rB v : Byte, decode (op ++ rA ++ rB ++ v) =
    if rA.toNat ≤ 0x24 ∧ rB.toNat ≤ 0x24 then .ok (mk rA rB v) else .error .invalidRegisterField) ∧
  ∀ (a b : RegId) (v : Byte) (address : Word) (answer : Option HostLabel),
    lift (mk (regField a) (regField b) v) address answer = ⟨seq a b v, edges address⟩

/-- What an instruction that computes `f` of two sources into a destination does, for all registers but pc: it completes when both
sources are written, and the next state is the old one with the result in the destination and pc at the sequential successor. -/
def ComputesFrom2 (mk : Byte → Byte → Byte → Instr) (f : Word → Word → Word) : Prop :=
  ∀ (a b c : RegId) (s : State) (vb vc : Word), a ≠ pcReg → b ≠ pcReg → c ≠ pcReg →
    s.reg b = .value vb → s.reg c = .value vc →
    exec (mk (regField a) (regField b) (regField c)) s = .next ((s.setReg a (f vb vc)).setPc (s.pc + 4))

/-- What an instruction that computes `f` of one source into a destination does, for all registers but pc. -/
def ComputesFrom1 (mk : Byte → Byte → Instr) (f : Word → Word) : Prop :=
  ∀ (a b : RegId) (s : State) (vb : Word), a ≠ pcReg → b ≠ pcReg → s.reg b = .value vb →
    exec (mk (regField a) (regField b)) s = .next ((s.setReg a (f vb)).setPc (s.pc + 4))

/-- Where an instruction with two sources stops, the order in which its sources are looked at being left open: with no operand pc, on
an unwritten source, which the fault names (10_state.md R32); with an operand pc, and its other sources written, by refusing
(40_lifter_ir.md R98). -/
def StopsFrom2 (mk : Byte → Byte → Byte → Instr) : Prop :=
  ∀ (a b c : RegId) (s : State),
    (a ≠ pcReg → b ≠ pcReg → c ≠ pcReg → (s.reg b = .unwritten ∨ s.reg c = .unwritten) →
      ∃ r, (r = b ∨ r = c) ∧ s.reg r = .unwritten ∧
        exec (mk (regField a) (regField b) (regField c)) s = .fault (.unwrittenRead (.reg r))) ∧
    ((a = pcReg ∨ b = pcReg ∨ c = pcReg) → (b = pcReg ∨ s.reg b ≠ .unwritten) → (c = pcReg ∨ s.reg c ≠ .unwritten) →
      exec (mk (regField a) (regField b) (regField c)) s = .refused .pcOperand)

/-- Where an instruction with one source stops. -/
def StopsFrom1 (mk : Byte → Byte → Instr) : Prop :=
  ∀ (a b : RegId) (s : State),
    (a ≠ pcReg → b ≠ pcReg → s.reg b = .unwritten →
      exec (mk (regField a) (regField b)) s = .fault (.unwrittenRead (.reg b))) ∧
    ((a = pcReg ∨ b = pcReg) → (b = pcReg ∨ s.reg b ≠ .unwritten) →
      exec (mk (regField a) (regField b)) s = .refused .pcOperand)

end Sys2Proof.Machine
end

