-- ==== Sys2Proof/Certificates/Slice0/Obligations.lean ====
section
/-! DEFINITION. The statements for the provers. Each docstring names the rules it formalises. -/

open Sys2Proof Sys2Proof.Machine

/-! ### Encoding and decoding -/

/-- R76: decoding a word built from an opcode and operands within range reproduces exactly those operands, for every
instruction and every operand value the encoding admits. -/
def Obligations.EncodeThenDecodeReturnsInstr : Prop :=
  ∀ i : Instr, i.wf = true → decode (encode i) = .ok i

/-- 30_encoding.md §8 (R74, R75): what decode returns is a whole instruction of the word's own opcode, its registers in range, and
the canonical word of that instruction decodes to it again. -/
def Obligations.DecodedInstrIsWellFormed : Prop :=
  ∀ (w : Word) (i : Instr), decode w = .ok i →
    i.wf = true ∧ i.opcode = opcodeField w ∧ decode (encode i) = .ok i

/-- R71: under the default map, the words decode refuses as UnknownOpcode are exactly those whose opcode byte lies in the listed
unmapped ranges. -/
def Obligations.UnknownOpcodeExactlyUnmapped : Prop :=
  ∀ w : Word, decode w = .error .unknownOpcode ↔ unmappedByte (opcodeField w).toNat

/-- R72: a decode fails in exactly two cases: the opcode byte is unmapped, or a field its format uses as a register holds more
than 0x24. -/
def Obligations.DecodeFailsInExactlyTwoCases : Prop :=
  ∀ w : Word,
    (decode w = .error .unknownOpcode ↔ opcodeMap (opcodeField w) = none) ∧
    (decode w = .error .invalidRegisterField ↔
      ∃ m f r, opcodeMap (opcodeField w) = some (m, f) ∧
        Operand.reg r ∈ f.operands (field1 w) (field2 w) (field3 w) ∧ 0x24 < r.toNat) ∧
    decode w ≠ .error .truncatedInput

/-- R70: the default opcode map meets what the source does fix of any opcode map. -/
def Obligations.OpcodeMapMeetsSourceConstraints : Prop :=
  OpcodeMapAdmissible opcodeMap

/-- R67: a field that the format neither decodes nor validates does not affect whether the word decodes or what it decodes to; so
decode is not injective. -/
def Obligations.IgnoredFieldsDoNotMatter : Prop :=
  (∀ op ∈ [(0x00 : Byte), 0x2B, 0xFF], ∀ a1 a2 a3 b1 b2 b3 : Byte,
    decode (op ++ a1 ++ a2 ++ a3) = decode (op ++ b1 ++ b2 ++ b3)) ∧
  (∀ op ∈ [(0x21 : Byte), 0x2A], ∀ a1 a2 a3 b2 b3 : Byte,
    decode (op ++ a1 ++ a2 ++ a3) = decode (op ++ a1 ++ b2 ++ b3)) ∧
  (∀ op ∈ [(0x06 : Byte), 0x0C, 0x42], ∀ a1 a2 a3 b3 : Byte,
    decode (op ++ a1 ++ a2 ++ a3) = decode (op ++ a1 ++ a2 ++ b3)) ∧
  decode 0xFF000000 = .ok .hlt ∧ decode 0xFFFFFFFF = .ok .hlt

/-- 30_encoding.md §8 (R73) and 10_state.md R26, R29: the record the algorithm returns is the record of the instruction decode returns,
with the same errors; the instruction of that record is the decoded one; and the decode port drives that record: the word's opcode, the
format, the mnemonic, the operand count and a slot for each operand, a register in 6 bits. -/
def Obligations.DecodeRecordIsRecordOfDecode : Prop :=
  ∀ w : Word,
    (∀ e, decodeRecord w = .error e ↔ decode w = .error e) ∧
    (∀ i, decode w = .ok i → decodeRecord w = .ok i.record ∧ i.record.instr? = some i ∧
      ∃ slots : List Slot, List.Forall₂ SlotCarries slots i.operands ∧ slots.length = i.format.operandCount ∧
        decodePort w =
          .ok (opcodeField w) i.format.code i.mnemonic i.format.operandCount slots[0]? slots[1]? slots[2]?)

/-- R41, R137: the bytes port refuses with TruncatedInput when fewer than 4 bytes remain from the offset, an offset past the end
included; else it decodes the little-endian word of the 4 bytes at the offset, whatever stands before and after them; and exactly one
error is driven, by its code, with the priority TruncatedInput, UnknownOpcode, InvalidRegisterField. -/
def Obligations.BytesPortReadsLittleEndianWord : Prop :=
  (∀ (buf : List Byte) (off : Nat), (buf.length < off ∨ buf.length - off < 4) →
    decodeBytes buf off = .error .truncatedInput ∧ bytesPort buf off = .err 3) ∧
  (∀ (before after : List Byte) (b0 b1 b2 b3 : Byte),
    decodeBytes (before ++ b0 :: b1 :: b2 :: b3 :: after) before.length = decode (b3 ++ b2 ++ b1 ++ b0) ∧
    bytesPort (before ++ b0 :: b1 :: b2 :: b3 :: after) before.length = decodePort (b3 ++ b2 ++ b1 ++ b0)) ∧
  (∀ (a1 a2 a3 op : Byte), opcodeMap op = none → decodePort (op ++ a1 ++ a2 ++ a3) = .err 1) ∧
  (∀ (a1 a2 a3 op : Byte) (m : Mnemonic) (f : Format) (r : Byte), opcodeMap op = some (m, f) →
    Operand.reg r ∈ f.operands a1 a2 a3 → 0x24 < r.toNat → decodePort (op ++ a1 ++ a2 ++ a3) = .err 2)

/-- Sanity: words written out from the encodings of R101, R112, R121, R117, R126 and R130 decode to the instructions they stand for. -/
def Obligations.SampleWordsDecode : Prop :=
  decode 0x01020300 = .ok (.add 2 3 0) ∧ decode 0x0B000100 = .ok (.set 0 0x0100) ∧
  decode 0x20ABCDEF = .ok (.jmi 0xABCDEF) ∧ decode 0x0D010204 = .ok (.ldw 1 2 4) ∧
  decode 0x2B123456 = .ok .ret ∧ decode 0x4005FF00 = .ok (.sia 5 0xFF 0)

/-! ### The formatter -/

/-- 30_encoding.md §9 (R77 to R81): each mnemonic's text is its name in lower case; a valid instruction renders as that text, then one
token for each operand (R78, R79), "the format's operand count plus one" tokens in all, separated by one space; an absent instruction, and
one already invalid, renders as the one placeholder token; and the source's two renderings. That the already invalid records are those of
no valid instruction, one whose opcode, mnemonic, format and operands disagree among them, is the model's choice (log 35); the names of
the five special registers are general knowledge (log 20), and the placeholder's text is open (log 8). -/
def Obligations.FormatterText : Prop :=
  (∀ p ∈ ([(.nop, "nop"), (.add, "add"), (.sub, "sub"), (.and, "and"), (.orr, "orr"), (.xor, "xor"), (.not, "not"),
      (.lsh, "lsh"), (.ash, "ash"), (.tcu, "tcu"), (.tcs, "tcs"), (.set, "set"), (.mov, "mov"), (.ldw, "ldw"),
      (.stw, "stw"), (.ldb, "ldb"), (.stb, "stb"), (.jmi, "jmi"), (.jmp, "jmp"), (.bve, "bve"), (.bvn, "bvn"),
      (.cal, "cal"), (.ret, "ret"), (.mul, "mul"), (.div, "div"), (.mod, "mod"), (.sia, "sia"), (.sup, "sup"),
      (.sxt, "sxt"), (.seq, "seq"), (.int, "int"), (.snd, "snd"), (.hlt, "hlt")] : List (Mnemonic × String)),
    mnemonicText p.1 = p.2.toList) ∧
  (∀ i : Instr, i.wf = true →
    ∃ tokens : List (List Char), List.Forall₂ IsToken i.operands tokens ∧
      formatTokens (some i.record) = mnemonicText i.mnemonic :: tokens ∧
      (formatTokens (some i.record)).length = i.format.operandCount + 1 ∧
      formatText (some i.record) = mnemonicText i.mnemonic ++ tokens.flatMap (' ' :: ·)) ∧
  formatTokens none = [Config.invalidPlaceholder] ∧ formatText none = Config.invalidPlaceholder ∧
  (∀ d : Decoded, (∀ i : Instr, i.wf = true → d ≠ i.record) →
    formatTokens (some d) = [Config.invalidPlaceholder] ∧ formatText (some d) = Config.invalidPlaceholder) ∧
  formatText (decodeRecord 0x01020300).toOption = "add r2 r3 r0".toList ∧
  formatText (decodeRecord 0x0B000100).toOption = "set r0 $100".toList

/-! ### The lifter and its evaluation -/

/-- 40_lifter_ir.md §4 (R94 to R99) against the "Effect" lines of R101 to R134: evaluating the lifted sequence of any instruction, in
or out of the decoder's range, gives exactly what its meaning gives, from every state between two instructions. -/
def Obligations.LiftedEvaluationIsExec : Prop :=
  ∀ (i : Instr) (s : State), s.temps = [] → evalLifted i s = s.settle (exec i s)

/-- 40_lifter_ir.md R99: the reference machine that fetches, decodes, lifts and evaluates goes through the states that `step`
gives, for any number of steps. -/
def Obligations.LiftedMachineIsStepMachine : Prop :=
  ∀ (k : Nat) (s : State), s.temps = [] → Nat.iterate liftedStep k s = refRun k s

/-- 60_exceptions.md R144: in the evaluation of a lifted sequence, every instruction either completes or faults (or refuses) with no
effect: only the status differs. -/
def Obligations.LiftedStopHasNoEffect : Prop :=
  ∀ (i : Instr) (s : State), s.temps = [] → s.status = .running →
    (∀ r, (evalLifted i s).status = .fault r → evalLifted i s = s.setStatus (.fault r)) ∧
    (∀ r, (evalLifted i s).status = .refused r → evalLifted i s = s.setStatus (.refused r))

/-- 10_state.md R30, 70_reset_and_hazards.md R158: a lift emits 1 to 7 operations and 0 to 2 edges. -/
def Obligations.LiftSizeBounds : Prop :=
  ∀ (d : Decoded) (address : Word) (port : Word → Option HostLabel),
    1 ≤ (liftRecord d address port).ops.length ∧ (liftRecord d address port).ops.length ≤ 7 ∧
    (liftRecord d address port).edges.length ≤ 2

/-- R83, R84: the arm is the opcode's: a record with the opcode and the operands of an instruction lifts as that instruction, whatever its
mnemonic and format fields hold (log 19); the fallback is the marker alone with no edge, and it is emitted exactly for SND and for a record
whose operands have not the shape of its opcode's format or name a register out of range, which is to say that no well-formed instruction
but SND has its opcode and its operands (so for an opcode the map does not hold: log 19); the marker never stands beside another operation;
a record from the decoder falls back only for SND. -/
def Obligations.FallbackExactly : Prop :=
  ∀ (d : Decoded) (address : Word) (port : Word → Option HostLabel),
    (∀ i : Instr, i.opcode = d.opcode → i.operands = d.operands →
      liftRecord d address port = lift i address ((labelRequest i).bind port)) ∧
    (liftRecord d address port = fallbackLift ↔
      ∀ i : Instr, i.wf = true → i.opcode = d.opcode → i.operands = d.operands → ∃ rA rB rC, i = .snd rA rB rC) ∧
    (IrOp.unimplemented ∈ (liftRecord d address port).ops → liftRecord d address port = fallbackLift) ∧
    (∀ w, decodeRecord w = .ok d → (liftRecord d address port = fallbackLift ↔ d.mnemonic = .snd))

/-- 44_control.md R121, 10_state.md R33: only JMI asks the label port; and whether the port answers a handle for the target or none
does not change what the lifted sequence does. -/
def Obligations.LabelAnswerDoesNotChangeMeaning : Prop :=
  (∀ (i : Instr) (t : Word), labelRequest i = some t → ∃ v, i = .jmi v ∧ t = zext24 v) ∧
  ∀ (i : Instr) (s : State) (address : Word) (t : Word) (h : HostLabel), labelRequest i = some t → h.addr = t →
    lift i address (some h) = ⟨[.goto (.host h)], [.unconditional t]⟩ ∧
    lift i address none = ⟨[.jump (.constPtr t)], [.unconditional t]⟩ ∧
    evalSeq (lift i address (some h)).ops address i.opcode s = evalSeq (lift i address none).ops address i.opcode s

/-- 10_state.md R27: the label request is "request-or-reuse a label for address X": the handle names the address, the table then holds
it, asking again gives the same handle and creates nothing, and an address that had a handle keeps it. -/
def Obligations.LabelRequestReusesHandle : Prop :=
  ∀ (a b : Word) (s : State),
    (getOrCreateLabel a s).1.addr = a ∧ a ∈ (getOrCreateLabel a s).2.labels ∧
    getOrCreateLabel a (getOrCreateLabel a s).2 = getOrCreateLabel a s ∧
    (b ∈ s.labels → (getOrCreateLabel b (getOrCreateLabel a s).2).1 = (getOrCreateLabel b s).1) ∧
    (b ≠ a → (getOrCreateLabel b (getOrCreateLabel a s).2).1.id ≠ (getOrCreateLabel a s).1.id)

/-! ### The instruction rules -/

/-- R101, R102, R103: ADD, SUB and MUL, modulo 2^32: encoding, sequence, effect. -/
def Obligations.AddSubMulRules : Prop :=
  (RegRegRegForm 0x01 .add (fun a b c => [.setReg a (.bin .add (.reg b) (.reg c))]) ∧
    ComputesFrom2 .add (fun b c => b + c)) ∧
  (RegRegRegForm 0x02 .sub (fun a b c => [.setReg a (.bin .sub (.reg b) (.reg c))]) ∧
    ComputesFrom2 .sub (fun b c => b - c)) ∧
  (RegRegRegForm 0x30 .mul (fun a b c => [.setReg a (.bin .mul (.reg b) (.reg c))]) ∧
    ComputesFrom2 .mul (fun b c => BitVec.ofNat 32 (b.toNat * c.toNat)))

/-- R104, R105: DIV and MOD, unsigned: encoding, sequence (whatever the divisor), effect, and the fault of a divisor 0. -/
def Obligations.DivModRules : Prop :=
  RegRegRegForm 0x31 .div (fun a b c => [.setReg a (.bin .divU (.reg b) (.reg c))]) ∧
  RegRegRegForm 0x32 .mod (fun a b c => [.setReg a (.bin .modU (.reg b) (.reg c))]) ∧
  ∀ (a b c : RegId) (s : State) (vb vc : Word), a ≠ pcReg → b ≠ pcReg → c ≠ pcReg →
    s.reg b = .value vb → s.reg c = .value vc →
    (vc ≠ 0 →
      exec (.div (regField a) (regField b) (regField c)) s =
        .next ((s.setReg a (BitVec.ofNat 32 (vb.toNat / vc.toNat))).setPc (s.pc + 4)) ∧
      exec (.mod (regField a) (regField b) (regField c)) s =
        .next ((s.setReg a (vb - vc * BitVec.ofNat 32 (vb.toNat / vc.toNat))).setPc (s.pc + 4))) ∧
    (vc = 0 →
      exec (.div (regField a) (regField b) (regField c)) s = .fault .divideByZero ∧
      exec (.mod (regField a) (regField b) (regField c)) s = .fault .divideByZero)

/-- R106, R107, R108: AND, ORR and XOR, bit by bit: encoding, sequence, effect; and the stops of XOR, whose sources must have been
written even when they are one register. -/
def Obligations.BitwiseRules : Prop :=
  (RegRegRegForm 0x03 .and (fun a b c => [.setReg a (.bin .and (.reg b) (.reg c))]) ∧
    ComputesFrom2 .and (fun b c => b &&& c)) ∧
  (RegRegRegForm 0x04 .orr (fun a b c => [.setReg a (.bin .or (.reg b) (.reg c))]) ∧
    ComputesFrom2 .orr (fun b c => b ||| c)) ∧
  (RegRegRegForm 0x05 .xor (fun a b c => [.setReg a (.bin .xor (.reg b) (.reg c))]) ∧
    ComputesFrom2 .xor (fun b c => b ^^^ c) ∧ StopsFrom2 .xor)

/-- R109: NOT: encoding with a3 ignored and never checked, sequence, effect. -/
def Obligations.NotRule : Prop :=
  RegRegForm 0x06 .not (fun a b => [.setReg a (.un .not (.reg b))]) ∧ ComputesFrom1 .not (fun b => ~~~b)

/-- R110, R111: LSH and ASH: encoding; the explicit two-way branch on the sign of rC with both shifts present; and the effect: a count
of 0 to 31 shifts left, a negative count of -1 to -31 shifts right by its magnitude (filling zeros for LSH, copies of bit 31 for ASH),
and any other count gives the free value SHIFT_OVERSIZE (for every value it may have), the model's count of draws going up by one (log 5).
The three fresh local labels are the numbers 0, 1 and 2 by the model's choice: any distinct names conform (log 16). -/
def Obligations.ShiftRules : Prop :=
  RegRegRegForm 0x07 .lsh (fun a b c =>
    [.branch (.cmp .sge (.reg c) (.const 0)) 0 1, .label 0, .setReg a (.shift .shl (.reg b) (.reg c)), .goto (.loc 2),
     .label 1, .setReg a (.shift .lsr (.reg b) (.un .neg (.reg c))), .label 2]) ∧
  RegRegRegForm 0x08 .ash (fun a b c =>
    [.branch (.cmp .sge (.reg c) (.const 0)) 0 1, .label 0, .setReg a (.shift .shl (.reg b) (.reg c)), .goto (.loc 2),
     .label 1, .setReg a (.shift .asr (.reg b) (.un .neg (.reg c))), .label 2]) ∧
  ∀ (a b c : RegId) (s : State) (vb vc : Word), a ≠ pcReg → b ≠ pcReg → c ≠ pcReg →
    s.reg b = .value vb → s.reg c = .value vc →
    exec (.lsh (regField a) (regField b) (regField c)) s =
      .next (if 0 ≤ vc.toInt then
          if vc.toInt < 32 then (s.setReg a (vb <<< vc.toNat)).setPc (s.pc + 4)
          else ((s.setReg a (Config.shiftOversize .shl vb vc s.draws)).setDraws (s.draws + 1)).setPc (s.pc + 4)
        else if -32 < vc.toInt then (s.setReg a (vb >>> (-vc.toInt).toNat)).setPc (s.pc + 4)
          else ((s.setReg a (Config.shiftOversize .lsr vb (0 - vc) s.draws)).setDraws (s.draws + 1)).setPc (s.pc + 4)) ∧
    exec (.ash (regField a) (regField b) (regField c)) s =
      .next (if 0 ≤ vc.toInt then
          if vc.toInt < 32 then (s.setReg a (vb <<< vc.toNat)).setPc (s.pc + 4)
          else ((s.setReg a (Config.shiftOversize .shl vb vc s.draws)).setDraws (s.draws + 1)).setPc (s.pc + 4)
        else if -32 < vc.toInt then (s.setReg a (vb.sshiftRight (-vc.toInt).toNat)).setPc (s.pc + 4)
          else ((s.setReg a (Config.shiftOversize .asr vb (0 - vc) s.draws)).setDraws (s.draws + 1)).setPc (s.pc + 4))

/-- R100: where the arithmetic, logical and shift instructions (XOR apart, see BitwiseRules) stop on their operands: `UnwrittenRead` on an unwritten source, and
`refused(PcOperand)` on an operand 0x20. (Which of two unwritten sources is named is left open here; for DIV and MOD the divisor, when
it is written, is not 0.) -/
def Obligations.ArithmeticOperandStops : Prop :=
  StopsFrom2 .add ∧ StopsFrom2 .sub ∧ StopsFrom2 .mul ∧ StopsFrom2 .and ∧ StopsFrom2 .orr ∧
  StopsFrom2 .lsh ∧ StopsFrom2 .ash ∧ StopsFrom1 .not ∧
  ∀ (a b c : RegId) (s : State), (c = pcReg ∨ s.reg c ≠ .value 0) →
    ∀ i ∈ [Instr.div (regField a) (regField b) (regField c), Instr.mod (regField a) (regField b) (regField c)],
      (a ≠ pcReg → b ≠ pcReg → c ≠ pcReg → (s.reg b = .unwritten ∨ s.reg c = .unwritten) →
        ∃ r, (r = b ∨ r = c) ∧ s.reg r = .unwritten ∧ exec i s = .fault (.unwrittenRead (.reg r))) ∧
      ((a = pcReg ∨ b = pcReg ∨ c = pcReg) → (b = pcReg ∨ s.reg b ≠ .unwritten) → (c = pcReg ∨ s.reg c ≠ .unwritten) →
        exec i s = .refused .pcOperand)

/-- R112: SET: encoding, sequence, and the zero-extended constant; no register is read. -/
def Obligations.SetRule : Prop :=
  (∀ (rA : Byte) (hi lo : BitVec 8), decode ((0x0B : Byte) ++ rA ++ hi ++ lo) =
    if rA.toNat ≤ 0x24 then .ok (.set rA (hi ++ lo)) else .error .invalidRegisterField) ∧
  ∀ (a : RegId) (v : BitVec 16),
    (∀ (address : Word) (answer : Option HostLabel),
      lift (.set (regField a) v) address answer = ⟨[.setReg a (.const (v.zeroExtend 32))], []⟩) ∧
    ∀ s : State,
      (a ≠ pcReg → exec (.set (regField a) v) s = .next ((s.setReg a (v.zeroExtend 32)).setPc (s.pc + 4))) ∧
      (a = pcReg → exec (.set (regField a) v) s = .refused .pcOperand)

/-- R113, R115: MOV and SXT: encoding with a3 ignored, sequence (SXT's two shifts), effect (the copy; the sign-extended low half-word),
and the stops: even `mov r r` needs r written. -/
def Obligations.MovSxtRules : Prop :=
  (RegRegForm 0x0C .mov (fun a b => [.setReg a (.reg b)]) ∧ ComputesFrom1 .mov (fun b => b) ∧ StopsFrom1 .mov) ∧
  (RegRegForm 0x42 .sxt (fun a b => [.setReg a (.shift .asr (.shift .shl (.reg b) (.const 16)) (.const 16))]) ∧
    ComputesFrom1 .sxt (fun b => (b.extractLsb' 0 16).signExtend 32) ∧ StopsFrom1 .sxt)

/-- R114: SUP: encoding, sequence, the upper half-word set and the lower one kept, the stops on rA; and the pair
`set rA lo; sup rA hi` builds `hi ‖ lo`. (The source doubts SUP's formula, 90_conflicts.md C8; the rule adopts it.) -/
def Obligations.SupRule : Prop :=
  (∀ (rA : Byte) (hi lo : BitVec 8), decode ((0x41 : Byte) ++ rA ++ hi ++ lo) =
    if rA.toNat ≤ 0x24 then .ok (.sup rA (hi ++ lo)) else .error .invalidRegisterField) ∧
  ∀ (a : RegId) (v : BitVec 16),
    (∀ (address : Word) (answer : Option HostLabel), lift (.sup (regField a) v) address answer =
      ⟨[.setReg a (.bin .or (.bin .and (.reg a) (.const 0x0000FFFF)) (.shift .shl (.const (v.zeroExtend 32)) (.const 16)))], []⟩) ∧
    (∀ s : State, a = pcReg → exec (.sup (regField a) v) s = .refused .pcOperand) ∧
    ∀ s : State, a ≠ pcReg →
      (∀ va, s.reg a = .value va →
        exec (.sup (regField a) v) s = .next ((s.setReg a (v ++ va.extractLsb' 0 16)).setPc (s.pc + 4))) ∧
      (s.reg a = .unwritten → exec (.sup (regField a) v) s = .fault (.unwrittenRead (.reg a))) ∧
      (∀ lo, Res.andThen (exec (.set (regField a) lo) s) (exec (.sup (regField a) v)) =
        .next ((s.setReg a (v ++ lo)).setPc (s.pc + 4 + 4)))

/-- R116: the effective address: the base plus the offset byte, sign-extended or zero-extended as LS_OFFSET_SIGNED says, modulo 2^32;
below 0x80 both settings agree, from 0x80 on they differ by 0x100. -/
def Obligations.EffectiveAddressRule : Prop :=
  ∀ (base : Word) (v : Byte),
    effAddr base v = base + (if Config.lsOffsetSigned then v.signExtend 32 else v.zeroExtend 32) ∧
    (v.toNat < 0x80 → v.signExtend 32 = v.zeroExtend 32) ∧
    (0x80 ≤ v.toNat → base + v.zeroExtend 32 = base + v.signExtend 32 + 0x100)

/-- R117: LDW: encoding, sequence, and the effect: the four bytes from the effective address on, addresses modulo 2^32, little-endian;
a misaligned address follows MISALIGNED_POLICY; a destination pc is refused where the load itself goes on (40_lifter_ir.md R98), and the
load's own fault comes first (60_exceptions.md R144). -/
def Obligations.LdwRule : Prop :=
  RegRegImm8Form 0x0D .ldw (fun a b v => [.setReg a (.load4 (.bin .add (.reg b) (.const (offset32 v))))]) (fun _ => []) ∧
  ∀ (a b : RegId) (v : Byte) (s : State) (base : Word) (b0 b1 b2 b3 : Byte), b ≠ pcReg → s.reg b = .value base →
    s.mem.read (effAddr base v).toNat = some b0 → s.mem.read (effAddr base v + 1).toNat = some b1 →
    s.mem.read (effAddr base v + 2).toNat = some b2 → s.mem.read (effAddr base v + 3).toNat = some b3 →
    (a ≠ pcReg → (effAddr base v).toNat % 4 = 0 →
      exec (.ldw (regField a) (regField b) v) s = .next ((s.setReg a (b3 ++ b2 ++ b1 ++ b0)).setPc (s.pc + 4))) ∧
    (a ≠ pcReg → (effAddr base v).toNat % 4 ≠ 0 →
      exec (.ldw (regField a) (regField b) v) s =
        match Config.misalignedPolicy with
        | .bytewise => .next ((s.setReg a (b3 ++ b2 ++ b1 ++ b0)).setPc (s.pc + 4))
        | .fault => .fault (.misalignedAccess (effAddr base v))) ∧
    (a = pcReg → (effAddr base v).toNat % 4 = 0 → exec (.ldw (regField a) (regField b) v) s = .refused .pcOperand) ∧
    (a = pcReg → (effAddr base v).toNat % 4 ≠ 0 →
      exec (.ldw (regField a) (regField b) v) s =
        match Config.misalignedPolicy with
        | .bytewise => .refused .pcOperand
        | .fault => .fault (.misalignedAccess (effAddr base v)))

/-- R118: STW: encoding, sequence, and the effect: the data register's bytes at the effective address and the three after it,
addresses modulo 2^32, the lowest byte first; a misaligned address follows MISALIGNED_POLICY. -/
def Obligations.StwRule : Prop :=
  RegRegImm8Form 0x0E .stw (fun a b v => [.store4 (.bin .add (.reg b) (.const (offset32 v))) (.reg a)]) (fun _ => []) ∧
  ∀ (a b : RegId) (v : Byte) (s : State) (base w : Word), a ≠ pcReg → b ≠ pcReg →
    s.reg b = .value base → s.reg a = .value w →
    ∃ m : Memory,
      m.read (effAddr base v).toNat = some (w.extractLsb' 0 8) ∧
      m.read (effAddr base v + 1).toNat = some (w.extractLsb' 8 8) ∧
      m.read (effAddr base v + 2).toNat = some (w.extractLsb' 16 8) ∧
      m.read (effAddr base v + 3).toNat = some (w.extractLsb' 24 8) ∧
      (∀ adr : Nat, (∀ k ∈ [(0 : Word), 1, 2, 3], adr ≠ (effAddr base v + k).toNat) → m.read adr = s.mem.read adr) ∧
      ((effAddr base v).toNat % 4 = 0 →
        exec (.stw (regField a) (regField b) v) s = .next ((s.setMem m).setPc (s.pc + 4))) ∧
      ((effAddr base v).toNat % 4 ≠ 0 →
        exec (.stw (regField a) (regField b) v) s =
          match Config.misalignedPolicy with
          | .bytewise => .next ((s.setMem m).setPc (s.pc + 4))
          | .fault => .fault (.misalignedAccess (effAddr base v)))

/-- R119: LDB: encoding, sequence, and the effect: the byte at the effective address, zero-extended; never misaligned; a destination pc is
refused where the byte is written. -/
def Obligations.LdbRule : Prop :=
  RegRegImm8Form 0x0F .ldb (fun a b v => [.setReg a (.zeroExt (.load1 (.bin .add (.reg b) (.const (offset32 v)))))])
    (fun _ => []) ∧
  ∀ (a b : RegId) (v : Byte) (s : State) (base : Word) (m : Byte), b ≠ pcReg →
    s.reg b = .value base → s.mem.read (effAddr base v).toNat = some m →
    (a ≠ pcReg →
      exec (.ldb (regField a) (regField b) v) s = .next ((s.setReg a (m.zeroExtend 32)).setPc (s.pc + 4))) ∧
    (a = pcReg → exec (.ldb (regField a) (regField b) v) s = .refused .pcOperand)

/-- R120: STB: encoding, sequence, and the effect: the low byte of the data register at the effective address, every other byte
unchanged; never misaligned. -/
def Obligations.StbRule : Prop :=
  RegRegImm8Form 0x10 .stb (fun a b v => [.store1 (.bin .add (.reg b) (.const (offset32 v))) (.low8 (.reg a))])
    (fun _ => []) ∧
  ∀ (a b : RegId) (v : Byte) (s : State) (base w : Word), a ≠ pcReg → b ≠ pcReg →
    s.reg b = .value base → s.reg a = .value w →
    ∃ t, exec (.stb (regField a) (regField b) v) s = .next t ∧ t = (s.setMem t.mem).setPc (s.pc + 4) ∧
      t.mem.read (effAddr base v).toNat = some (w.extractLsb' 0 8) ∧
      ∀ adr : Nat, adr ≠ (effAddr base v).toNat → t.mem.read adr = s.mem.read adr

/-- 10_state.md R32 and 40_lifter_ir.md R98 as 43_load_store.md applies them: a load of a byte that is unwritten, with the base as it must
be, faults naming an unwritten byte of the access, whatever the destination is, pc too, for the load is evaluated before the destination is
written (60_exceptions.md R144); a misaligned one does so where MISALIGNED_POLICY is bytewise, and is MisalignedAccess where it is fault; a
base or data register pc refuses. That alignment is looked at before the bytes, and a store's base before its data register, is the model's
choice (log 15). -/
def Obligations.LoadStoreOperandStops : Prop :=
  ∀ (a b : RegId) (v : Byte) (s : State),
    (∀ base, b ≠ pcReg → s.reg b = .value base → s.mem.read (effAddr base v).toNat = none →
      exec (.ldb (regField a) (regField b) v) s = .fault (.unwrittenRead (.mem (effAddr base v)))) ∧
    (∀ base, b ≠ pcReg → s.reg b = .value base →
      (∃ k ∈ [(0 : Word), 1, 2, 3], s.mem.read (effAddr base v + k).toNat = none) →
      ∃ k ∈ [(0 : Word), 1, 2, 3], s.mem.read (effAddr base v + k).toNat = none ∧
        ((effAddr base v).toNat % 4 = 0 →
          exec (.ldw (regField a) (regField b) v) s = .fault (.unwrittenRead (.mem (effAddr base v + k)))) ∧
        ((effAddr base v).toNat % 4 ≠ 0 →
          exec (.ldw (regField a) (regField b) v) s =
            match Config.misalignedPolicy with
            | .bytewise => .fault (.unwrittenRead (.mem (effAddr base v + k)))
            | .fault => .fault (.misalignedAccess (effAddr base v)))) ∧
    (∀ i ∈ [Instr.ldw (regField a) (regField b) v, .ldb (regField a) (regField b) v, .stw (regField a) (regField b) v,
        .stb (regField a) (regField b) v],
      (b = pcReg → exec i s = .refused .pcOperand) ∧
      (b ≠ pcReg → s.reg b = .unwritten → exec i s = .fault (.unwrittenRead (.reg b)))) ∧
    (∀ i ∈ [Instr.stw (regField a) (regField b) v, .stb (regField a) (regField b) v],
      ∀ base, b ≠ pcReg → s.reg b = .value base →
        (a = pcReg → exec i s = .refused .pcOperand) ∧
        (a ≠ pcReg → s.reg a = .unwritten → exec i s = .fault (.unwrittenRead (.reg a))))

/-- R121: JMI: encoding with nothing checked; the one label request and both forms of the sequence; the edge; and the jump to the
zero-extended target from every state and address. -/
def Obligations.JmiRule : Prop :=
  (∀ a1 a2 a3 : Byte, decode ((0x20 : Byte) ++ a1 ++ a2 ++ a3) = .ok (.jmi (a1 ++ a2 ++ a3))) ∧
  ∀ v : BitVec 24,
    labelRequest (.jmi v) = some (v.zeroExtend 32) ∧
    (∀ (address : Word) (h : HostLabel),
      lift (.jmi v) address (some h) = ⟨[.goto (.host h)], [.unconditional (v.zeroExtend 32)]⟩ ∧
      lift (.jmi v) address none = ⟨[.jump (.constPtr (v.zeroExtend 32))], [.unconditional (v.zeroExtend 32)]⟩) ∧
    ∀ s : State, exec (.jmi v) s = .next ((getOrCreateLabel (v.zeroExtend 32) s).2.setPc (v.zeroExtend 32))

/-- R122: JMP: encoding with a2 and a3 ignored, sequence, edge, the jump to the register's value (the link register's too, without
clearing it), and the stops. -/
def Obligations.JmpRule : Prop :=
  (∀ rA a2 a3 : Byte, decode ((0x21 : Byte) ++ rA ++ a2 ++ a3) =
    if rA.toNat ≤ 0x24 then .ok (.jmp rA) else .error .invalidRegisterField) ∧
  ∀ a : RegId,
    (∀ (address : Word) (answer : Option HostLabel),
      lift (.jmp (regField a)) address answer = ⟨[.jump (.reg a)], [.indirect]⟩) ∧
    ∀ s : State,
      (∀ w, a ≠ pcReg → s.reg a = .value w → exec (.jmp (regField a)) s = .next (s.setPc w)) ∧
      (a ≠ pcReg → s.reg a = .unwritten → exec (.jmp (regField a)) s = .fault (.unwrittenRead (.reg a))) ∧
      (a = pcReg → exec (.jmp (regField a)) s = .refused .pcOperand)

/-- R123, R124: BVE and BVN: encoding, sequence, both edges always; the branch to x[rA] when the comparison with the zero-extended
immediate holds, else the fall-through, which does not read rA; an unwritten rA faults, and an rA that is pc is refused, only when the
branch is taken; rB is always read. That an untaken branch whose rA is pc falls through is the model's reading of R123 (log 24, DEDUCED: the
preamble of 44_control.md can be read to refuse it). The two fresh local labels are the numbers 0 and 1 by the model's choice: any distinct
names conform (log 16). -/
def Obligations.BranchRules : Prop :=
  RegRegImm8Form 0x24 .bve (fun a b v =>
    [.branch (.cmp .e (.reg b) (.const (v.zeroExtend 32))) 0 1, .label 0, .jump (.reg a), .label 1])
    (fun address => [.trueIndirect, .falseTo (address + 4)]) ∧
  RegRegImm8Form 0x25 .bvn (fun a b v =>
    [.branch (.cmp .ne (.reg b) (.const (v.zeroExtend 32))) 0 1, .label 0, .jump (.reg a), .label 1])
    (fun address => [.trueIndirect, .falseTo (address + 4)]) ∧
  (∀ (a b : RegId) (v : Byte) (s : State),
    ∀ i ∈ [Instr.bve (regField a) (regField b) v, .bvn (regField a) (regField b) v],
      (b = pcReg → exec i s = .refused .pcOperand) ∧
      (b ≠ pcReg → s.reg b = .unwritten → exec i s = .fault (.unwrittenRead (.reg b)))) ∧
  ∀ (a b : RegId) (v : Byte) (s : State) (vb : Word), b ≠ pcReg → s.reg b = .value vb →
    (vb ≠ v.zeroExtend 32 → exec (.bve (regField a) (regField b) v) s = .next (s.setPc (s.pc + 4))) ∧
    (vb = v.zeroExtend 32 → exec (.bvn (regField a) (regField b) v) s = .next (s.setPc (s.pc + 4))) ∧
    (∀ target, a ≠ pcReg → s.reg a = .value target →
      (vb = v.zeroExtend 32 → exec (.bve (regField a) (regField b) v) s = .next (s.setPc target)) ∧
      (vb ≠ v.zeroExtend 32 → exec (.bvn (regField a) (regField b) v) s = .next (s.setPc target))) ∧
    (a ≠ pcReg → s.reg a = .unwritten →
      (vb = v.zeroExtend 32 → exec (.bve (regField a) (regField b) v) s = .fault (.unwrittenRead (.reg a))) ∧
      (vb ≠ v.zeroExtend 32 → exec (.bvn (regField a) (regField b) v) s = .fault (.unwrittenRead (.reg a)))) ∧
    (a = pcReg →
      (vb = v.zeroExtend 32 → exec (.bve (regField a) (regField b) v) s = .refused .pcOperand) ∧
      (vb ≠ v.zeroExtend 32 → exec (.bvn (regField a) (regField b) v) s = .refused .pcOperand))

/-- R125: CAL: encoding with a2 and a3 ignored, sequence, edge, and the effect: the target is read, then the link register gets the
address after the instruction (`cal lr` jumps to the old link value); and the stops on the target register. -/
def Obligations.CalRule : Prop :=
  (∀ rA a2 a3 : Byte, decode ((0x2A : Byte) ++ rA ++ a2 ++ a3) =
    if rA.toNat ≤ 0x24 then .ok (.cal rA) else .error .invalidRegisterField) ∧
  ∀ a : RegId,
    (∀ (address : Word) (answer : Option HostLabel),
      lift (.cal (regField a)) address answer = ⟨[.call (.reg a)], [.callIndirect]⟩) ∧
    ∀ s : State,
      (∀ target, a ≠ pcReg → s.reg a = .value target →
        exec (.cal (regField a)) s = .next ((s.setReg lrReg (s.pc + 4)).setPc target)) ∧
      (a ≠ pcReg → s.reg a = .unwritten → exec (.cal (regField a)) s = .fault (.unwrittenRead (.reg a))) ∧
      (a = pcReg → exec (.cal (regField a)) s = .refused .pcOperand)

/-- R126: RET: encoding with every field ignored; the link register captured, then cleared, then returned through; the fault of an
unwritten link register; and a second RET with no CAL between goes to address 0. -/
def Obligations.RetRule : Prop :=
  (∀ a1 a2 a3 : Byte, decode ((0x2B : Byte) ++ a1 ++ a2 ++ a3) = .ok .ret) ∧
  (∀ (address : Word) (answer : Option HostLabel),
    lift .ret address answer = ⟨[.setTemp 0 (.reg lrReg), .setReg lrReg (.const 0), .ret (.temp 0)], [.returns]⟩) ∧
  ∀ s : State,
    (∀ target, s.reg lrReg = .value target →
      exec .ret s = .next ((s.setReg lrReg 0).setPc target) ∧
      Res.andThen (exec .ret s) (exec .ret) = .next ((s.setReg lrReg 0).setPc 0)) ∧
    (s.reg lrReg = .unwritten → exec .ret s = .fault (.unwrittenRead (.reg lrReg)))

/-- 44_control.md R125 and R126 together: a call whose callee changes neither the link register nor anything else returns to the
address after the call, with the link register cleared. -/
def Obligations.CallThenReturnComesBack : Prop :=
  ∀ (a : RegId) (s : State) (target : Word), a ≠ pcReg → s.reg a = .value target →
    ∃ t, Res.andThen (exec (.cal (regField a)) s) (exec .ret) = .next t ∧
      t.pc = s.pc + 4 ∧ t.reg lrReg = .value 0 ∧ SameRegsBut lrReg s t ∧ SameMemory s t

/-- R127, R128: TCU and TCS: encoding, the two comparisons subtracted, and the result -1, 0 or 1 by the unsigned or the signed order;
and the stops. -/
def Obligations.ThreeWayCompareRules : Prop :=
  (RegRegRegForm 0x09 .tcu (fun a b c =>
      [.setReg a (.bin .sub (.boolToInt (.cmp .ugt (.reg b) (.reg c))) (.boolToInt (.cmp .ult (.reg b) (.reg c))))]) ∧
    ComputesFrom2 .tcu (fun b c => if b.toNat < c.toNat then 0xFFFFFFFF else if b = c then 0 else 1) ∧ StopsFrom2 .tcu) ∧
  (RegRegRegForm 0x0A .tcs (fun a b c =>
      [.setReg a (.bin .sub (.boolToInt (.cmp .sgt (.reg b) (.reg c))) (.boolToInt (.cmp .slt (.reg b) (.reg c))))]) ∧
    ComputesFrom2 .tcs (fun b c => if b.toInt < c.toInt then 0xFFFFFFFF else if b = c then 0 else 1) ∧ StopsFrom2 .tcs)

/-- R129: SEQ: encoding, sequence, 1 or 0 by equality with the zero-extended immediate, and the stops. -/
def Obligations.SeqRule : Prop :=
  RegRegImm8Form 0x43 .seq (fun a b v => [.setReg a (.boolToInt (.cmp .e (.reg b) (.const (v.zeroExtend 32))))])
    (fun _ => []) ∧
  ∀ v : Byte, ComputesFrom1 (fun rA rB => .seq rA rB v) (fun b => if b = v.zeroExtend 32 then 1 else 0) ∧
    StopsFrom1 (fun rA rB => .seq rA rB v)

/-- R130: SIA: encoding with neither literal checked, sequence, the shifted literal added to rA modulo 2^32; a count of 32 to 255 adds
the free value SHIFT_OVERSIZE (whatever it is); and the stops on rA. -/
def Obligations.SiaRule : Prop :=
  (∀ rA v0 v1 : Byte, decode ((0x40 : Byte) ++ rA ++ v0 ++ v1) =
    if rA.toNat ≤ 0x24 then .ok (.sia rA v0 v1) else .error .invalidRegisterField) ∧
  ∀ (a : RegId) (v0 v1 : Byte),
    (∀ (address : Word) (answer : Option HostLabel), lift (.sia (regField a) v0 v1) address answer =
      ⟨[.setReg a (.bin .add (.reg a) (.shift .shl (.const (v0.zeroExtend 32)) (.const (v1.zeroExtend 32))))], []⟩) ∧
    (∀ s : State, a = pcReg → exec (.sia (regField a) v0 v1) s = .refused .pcOperand) ∧
    ∀ s : State, a ≠ pcReg →
      (∀ va, s.reg a = .value va →
        exec (.sia (regField a) v0 v1) s =
          .next (if v1.toNat < 32 then (s.setReg a (va + (v0.zeroExtend 32) <<< v1.toNat)).setPc (s.pc + 4)
            else ((s.setReg a (va + Config.shiftOversize .shl (v0.zeroExtend 32) (v1.zeroExtend 32) s.draws)).setDraws
              (s.draws + 1)).setPc (s.pc + 4))) ∧
      (s.reg a = .unwritten → exec (.sia (regField a) v0 v1) s = .fault (.unwrittenRead (.reg a)))

/-- R131: NOP: encoding with every field ignored (the all-zero word among them), sequence, and no effect but the program counter's. -/
def Obligations.NopRule : Prop :=
  (∀ a1 a2 a3 : Byte, decode ((0x00 : Byte) ++ a1 ++ a2 ++ a3) = .ok .nop) ∧ decode 0 = .ok .nop ∧
  (∀ (address : Word) (answer : Option HostLabel), lift .nop address answer = ⟨[.nop], []⟩) ∧
  ∀ s : State, exec .nop s = .next (s.setPc (s.pc + 4))

/-- R132: HLT: encoding with every field ignored, sequence, edge; the status becomes halted, nothing else changes, and no successor is
evaluated: the state stays as it is for any number of steps. -/
def Obligations.HltRule : Prop :=
  (∀ a1 a2 a3 : Byte, decode ((0xFF : Byte) ++ a1 ++ a2 ++ a3) = .ok .hlt) ∧
  (∀ (address : Word) (answer : Option HostLabel), lift .hlt address answer = ⟨[.noRet], [.noReturn]⟩) ∧
  ∀ s : State, exec .hlt s = .next (s.setStatus .halted) ∧
    ∀ k, refRun k (s.setStatus .halted) = s.setStatus .halted

/-- R133: INT: encoding with nothing checked, sequence, no edge; the status becomes syscall(v) with pc at the sequential successor,
nothing is saved, and the run ends there. -/
def Obligations.IntRule : Prop :=
  (∀ a1 a2 a3 : Byte, decode ((0xF0 : Byte) ++ a1 ++ a2 ++ a3) = .ok (.int (a1 ++ a2 ++ a3))) ∧
  ∀ v : BitVec 24,
    (∀ (address : Word) (answer : Option HostLabel), lift (.int v) address answer = ⟨[.syscall v], []⟩) ∧
    ∀ s : State, exec (.int v) s = .next ((s.setStatus (.syscall v)).setPc (s.pc + 4)) ∧
      ∀ k, refRun k ((s.setStatus (.syscall v)).setPc (s.pc + 4)) = (s.setStatus (.syscall v)).setPc (s.pc + 4)

/-- R134: SND is never lifted to anything but the marker, and its evaluation always refuses as unmodelled. -/
def Obligations.SndAlwaysRefused : Prop :=
  RegRegRegForm 0xFD .snd (fun _ _ _ => [.unimplemented]) ∧
  ∀ (rA rB rC : Byte) (s : State), exec (.snd rA rB rC) s = .refused (.unmodelled 0xFD)

/-! ### Frames -/

/-- What an instruction whose destination is the register rA leaves unchanged when it completes (41_arith_logic.md, 42_move_const.md,
43_load_store.md, 45_compare_sia.md): every other register, every byte of memory, the status, the temporaries, the label table; and it
goes to the sequential successor. The model's count of draws changes only for LSH, ASH and SIA. -/
def Obligations.RegisterResultFrame : Prop :=
  ∀ (a : RegId) (rB rC : Byte) (imm : BitVec 16) (s t : State),
    (∀ i ∈ [Instr.add (regField a) rB rC, .sub (regField a) rB rC, .mul (regField a) rB rC, .div (regField a) rB rC,
        .mod (regField a) rB rC, .and (regField a) rB rC, .orr (regField a) rB rC, .xor (regField a) rB rC,
        .not (regField a) rB, .set (regField a) imm, .mov (regField a) rB, .sup (regField a) imm, .sxt (regField a) rB,
        .ldw (regField a) rB rC, .ldb (regField a) rB rC, .tcu (regField a) rB rC, .tcs (regField a) rB rC,
        .seq (regField a) rB rC],
      exec i s = .next t →
        SameRegsBut a s t ∧ SameMemory s t ∧ t.pc = s.pc + 4 ∧ t.status = s.status ∧ t.temps = s.temps ∧
        t.labels = s.labels ∧ t.draws = s.draws) ∧
    (∀ i ∈ [Instr.lsh (regField a) rB rC, .ash (regField a) rB rC, .sia (regField a) rB rC],
      exec i s = .next t →
        SameRegsBut a s t ∧ SameMemory s t ∧ t.pc = s.pc + 4 ∧ t.status = s.status ∧ t.temps = s.temps ∧
        t.labels = s.labels)

/-- What a store leaves unchanged when it completes (R118, R120): every register (no base register is modified, R116), and every byte
of memory but the stored ones, at the effective address of the base's value: four for STW, one for STB. -/
def Obligations.StoreFrame : Prop :=
  ∀ (rA : Byte) (b : RegId) (v : Byte) (base : Word) (s t : State), s.reg b = .value base →
    (exec (.stw rA (regField b) v) s = .next t →
      SameRegs s t ∧ t.pc = s.pc + 4 ∧ t.status = s.status ∧ t.temps = s.temps ∧ t.labels = s.labels ∧ t.draws = s.draws ∧
      ∀ adr : Nat, (∀ k ∈ [(0 : Word), 1, 2, 3], adr ≠ (effAddr base v + k).toNat) → t.mem.read adr = s.mem.read adr) ∧
    (exec (.stb rA (regField b) v) s = .next t →
      SameRegs s t ∧ t.pc = s.pc + 4 ∧ t.status = s.status ∧ t.temps = s.temps ∧ t.labels = s.labels ∧ t.draws = s.draws ∧
      ∀ adr : Nat, adr ≠ (effAddr base v).toNat → t.mem.read adr = s.mem.read adr)

/-- What a control transfer or a system instruction leaves unchanged when it completes (44_control.md, 46_system.md): all memory, the
temporaries, the model's count of draws; every register, but the link register for CAL and RET; the label table, but for JMI, which may
append its target; and the status, but for HLT and INT. -/
def Obligations.TransferAndSystemFrame : Prop :=
  ∀ (rA rB v : Byte) (v24 : BitVec 24) (s t : State),
    (∀ i ∈ [Instr.jmp rA, .bve rA rB v, .bvn rA rB v, .nop], exec i s = .next t →
      SameRegs s t ∧ SameMemory s t ∧ t.status = s.status ∧ t.temps = s.temps ∧ t.labels = s.labels ∧ t.draws = s.draws) ∧
    (exec (.jmi v24) s = .next t →
      SameRegs s t ∧ SameMemory s t ∧ t.status = s.status ∧ t.temps = s.temps ∧ t.draws = s.draws ∧
      (t.labels = s.labels ∨ t.labels = s.labels ++ [v24.zeroExtend 32])) ∧
    (∀ i ∈ [Instr.cal rA, .ret], exec i s = .next t →
      SameRegsBut lrReg s t ∧ SameMemory s t ∧ t.status = s.status ∧ t.temps = s.temps ∧ t.labels = s.labels ∧
      t.draws = s.draws) ∧
    (∀ i ∈ [Instr.hlt, .int v24], exec i s = .next t →
      SameRegs s t ∧ SameMemory s t ∧ t.temps = s.temps ∧ t.labels = s.labels ∧ t.draws = s.draws)

/-! ### The machine -/

/-- 40_lifter_ir.md R99: when the machine is running and the four bytes at pc, addresses modulo 2^32, are written and are the word of a
decoded instruction, the step is that instruction's evaluation at that state. -/
def Obligations.StepRunsDecodedInstr : Prop :=
  ∀ (s : State) (b0 b1 b2 b3 : Byte) (i : Instr), s.status = .running →
    s.mem.read s.pc.toNat = some b0 → s.mem.read (s.pc + 1).toNat = some b1 →
    s.mem.read (s.pc + 2).toNat = some b2 → s.mem.read (s.pc + 3).toNat = some b3 →
    decode (b3 ++ b2 ++ b1 ++ b0) = .ok i → step s = exec i s

/-- 40_lifter_ir.md R99: when the machine is running, a word at pc that does not decode faults as IllegalInstruction with the decoder's
error, and an unwritten byte at pc to pc + 3 faults as UnwrittenRead of an unwritten byte among them. -/
def Obligations.StepFetchFaults : Prop :=
  ∀ s : State, s.status = .running →
    (∀ (b0 b1 b2 b3 : Byte) (e : DecodeError),
      s.mem.read s.pc.toNat = some b0 → s.mem.read (s.pc + 1).toNat = some b1 →
      s.mem.read (s.pc + 2).toNat = some b2 → s.mem.read (s.pc + 3).toNat = some b3 →
      decode (b3 ++ b2 ++ b1 ++ b0) = .error e → step s = .fault (.illegalInstruction e)) ∧
    ((∃ k ∈ [(0 : Word), 1, 2, 3], s.mem.read (s.pc + k).toNat = none) →
      ∃ k ∈ [(0 : Word), 1, 2, 3], s.mem.read (s.pc + k).toNat = none ∧ step s = .fault (.unwrittenRead (.mem (s.pc + k))))

/-- The word of a well-formed instruction, stored where the machine fetches, is the instruction the very next step runs: a store is seen
by the next fetch (20_memory.md R52). The state before may be any, a stopped one too. -/
def Obligations.StoredInstructionIsRun : Prop :=
  ∀ (i : Instr) (s : State), i.wf = true →
    step (s.withFetchWord 32 (encode i).toNat) = exec i (s.withFetchWord 32 (encode i).toNat)

/-- Every step keeps the invariant: memory's canonical form, no temporary between instructions, one label for each address. -/
def Obligations.StepKeepsInvariant : Prop :=
  ∀ s t : State, s.Inv → step s = .next t → t.Inv

/-- The state after reset has the invariant, and every byte of memory is unwritten (70_reset_and_hazards.md R152). That every register
holds 0, pc is 0, the status running and the label table empty is the model's choice (logs 1, 2, 4). -/
def Obligations.ResetState : Prop :=
  State.reset.Inv ∧ (∀ adr : Nat, State.reset.mem.read adr = none) ∧ (∀ r : RegId, State.reset.reg r = .value 0) ∧
  State.reset.pc = 0 ∧ State.reset.status = .running ∧ State.reset.labels = []

/-- No instruction makes a register unwritten: where every register holds a word, it does so after every step, and no step of a running
machine faults on an unwritten register (10_state.md R31, R32). (At reset every register holds one: the model's choice, log 1.) -/
def Obligations.WrittenRegistersStayWritten : Prop :=
  ∀ s : State, s.AllWritten →
    (∀ t, step s = .next t → t.AllWritten) ∧ (s.status = .running → ∀ r, step s ≠ .fault (.unwrittenRead (.reg r)))

/-- 40_lifter_ir.md R98: no program ever reads or writes the register entry 0x20: runs from two states that differ in it alone go step
for step alike, and leave it as it was. -/
def Obligations.PcEntryIsInvisible : Prop :=
  ∀ (s t : State) (w : Word),
    (step s = .next t → t.reg pcReg = s.reg pcReg ∧ step (s.setReg pcReg w) = .next (t.setReg pcReg w)) ∧
    (∀ r, step s = .fault r → step (s.setReg pcReg w) = .fault r) ∧
    (∀ r, step s = .refused r → step (s.setReg pcReg w) = .refused r)

/-- R139: INT is the only instruction that raises a trap; and HLT the only one that halts (46_system.md R132). -/
def Obligations.OnlyIntTrapsOnlyHltHalts : Prop :=
  ∀ (i : Instr) (s t : State), s.status = .running → exec i s = .next t →
    (∀ code, t.status = .syscall code ↔ i = .int code) ∧ (t.status = .halted ↔ i = .hlt) ∧
    (t.status = .running ↔ i ≠ .hlt ∧ ∀ code, i ≠ .int code)

/-- 40_lifter_ir.md R99, 60_exceptions.md R150: once the status is not running the run is over: no number of steps changes the state,
of the machine and of the machine that goes through the lifter. -/
def Obligations.StoppedRunStaysStopped : Prop :=
  ∀ (k : Nat) (s : State), s.status ≠ .running → refRun k s = s ∧ Nat.iterate liftedStep k s = s

/-- 60_exceptions.md R150: what an instruction may stop for: a fault is UnwrittenRead, DivideByZero (DIV and MOD alone) or
MisalignedAccess (LDW and STW alone, at a misaligned address); a refusal is PcOperand or Unmodelled (SND, or an instruction with a
register out of range, alone, naming its opcode); and such an instruction always refuses. -/
def Obligations.InstructionStops : Prop :=
  ∀ (i : Instr) (s : State),
    (i.wf = false → exec i s = .refused (.unmodelled i.opcode)) ∧
    (∀ r, exec i s = .fault r →
      (∃ q, r = .unwrittenRead (.reg q)) ∨ (∃ adr, r = .unwrittenRead (.mem adr)) ∨
      (r = .divideByZero ∧ ∃ a b c, i = .div a b c ∨ i = .mod a b c) ∨
      (∃ adr a b v, r = .misalignedAccess adr ∧ adr.toNat % 4 ≠ 0 ∧ Config.misalignedPolicy = .fault ∧
        (i = .ldw a b v ∨ i = .stw a b v))) ∧
    (∀ r, exec i s = .refused r →
      (r = .pcOperand ∧ i.wf = true) ∨
      (r = .unmodelled i.opcode ∧ (i.wf = false ∨ ∃ a b c, i = .snd a b c)))

/-- R38: data is little-endian, every address modulo 2^32: four written bytes read as their word, the lowest address lowest; a stored
word leaves byte k of it at address a + k, so it reads back as the word, and a byte load at its address as its bits [7:0]. -/
def Obligations.StoredWordReadsBack : Prop :=
  (∀ (adr : Word) (s : State) (b0 b1 b2 b3 : Byte), s.mem.read adr.toNat = some b0 → s.mem.read (adr + 1).toNat = some b1 →
    s.mem.read (adr + 2).toNat = some b2 → s.mem.read (adr + 3).toNat = some b3 →
    readFour adr s = .next (b3 ++ b2 ++ b1 ++ b0)) ∧
  ∀ (adr v : Word) (s : State),
    readFour adr (writeFour adr v s) = .next v ∧
    readByte adr (writeFour adr v s) = .next (v.extractLsb' 0 8) ∧
    readByte (adr + 1) (writeFour adr v s) = .next (v.extractLsb' 8 8) ∧
    readByte (adr + 2) (writeFour adr v s) = .next (v.extractLsb' 16 8) ∧
    readByte (adr + 3) (writeFour adr v s) = .next (v.extractLsb' 24 8)

/-- 20_memory.md R45, R46: the header's fields are the file's bytes 0 to 23 in their order, the integers little-endian, and the stated magic
is the 4 bytes "RGVM"; a file of 24 bytes and more is accepted exactly when what follows the header has the length code_size + data_size,
whatever the magic, the version and the reserved fields are; then what follows is the code and the data, each of its size. A shorter file
is rejected. -/
def Obligations.ContainerAcceptedExactly : Prop :=
  (∀ (m0 m1 m2 m3 v0 v1 r0 r1 e0 e1 e2 e3 c0 c1 c2 c3 d0 d1 d2 d3 q0 q1 q2 q3 : Byte) (rest file : List Byte),
    file = [m0, m1, m2, m3, v0, v1, r0, r1, e0, e1, e2, e3, c0, c1, c2, c3, d0, d1, d2, d3, q0, q1, q2, q3] ++ rest →
    ((containerHeader file).magic.toList = [m0, m1, m2, m3] ∧ (containerHeader file).version = v1 ++ v0 ∧
      (containerHeader file).reserved = r1 ++ r0 ∧ (containerHeader file).entryOffset = e3 ++ e2 ++ e1 ++ e0 ∧
      (containerHeader file).codeSize = c3 ++ c2 ++ c1 ++ c0 ∧ (containerHeader file).dataSize = d3 ++ d2 ++ d1 ++ d0 ∧
      (containerHeader file).reserved2 = q3 ++ q2 ++ q1 ++ q0) ∧
    ((containerHeader file).hasMagic = true ↔
      [m0, m1, m2, m3].map (fun b => Char.ofNat b.toNat) = "RGVM".toList) ∧
    ((parseContainer file).isSome ↔ rest.length = (c3 ++ c2 ++ c1 ++ c0).toNat + (d3 ++ d2 ++ d1 ++ d0).toNat) ∧
    ∀ c, parseContainer file = some c →
      c.header = containerHeader file ∧ rest = c.code ++ c.data ∧
      c.code.length = (c3 ++ c2 ++ c1 ++ c0).toNat ∧ c.data.length = (d3 ++ d2 ++ d1 ++ d0).toNat) ∧
  ∀ file : List Byte, file.length < 24 → parseContainer file = none
end

