-- ==== Sys2Proof/Laws/Decode.lean ====
section
/-! SUPPORT. The fields of a word that is written out as its four bytes, and the decoder on such a word. -/

namespace Sys2Proof

variable (op a1 a2 a3 : Byte)

/-- bits [31:24] of a word written out. -/
@[simp] theorem opcodeField_append : opcodeField (op ++ a1 ++ a2 ++ a3) = op := by
  apply BitVec.eq_of_getLsbD_eq
  intro i hi
  simp only [opcodeField, BitVec.getLsbD_extractLsb', BitVec.getLsbD_append, hi, decide_true, Bool.true_and]
  rw [if_neg (by omega), if_neg (by omega), if_neg (by omega)]
  congr 1; omega

/-- bits [23:16] of a word written out. -/
@[simp] theorem field1_append : field1 (op ++ a1 ++ a2 ++ a3) = a1 := by
  apply BitVec.eq_of_getLsbD_eq
  intro i hi
  simp only [field1, BitVec.getLsbD_extractLsb', BitVec.getLsbD_append, hi, decide_true, Bool.true_and]
  rw [if_neg (by omega), if_neg (by omega), if_pos (by omega)]
  congr 1; omega

/-- bits [15:8] of a word written out. -/
@[simp] theorem field2_append : field2 (op ++ a1 ++ a2 ++ a3) = a2 := by
  apply BitVec.eq_of_getLsbD_eq
  intro i hi
  simp only [field2, BitVec.getLsbD_extractLsb', BitVec.getLsbD_append, hi, decide_true, Bool.true_and]
  rw [if_neg (by omega), if_pos (by omega)]
  congr 1; omega

/-- bits [7:0] of a word written out. -/
@[simp] theorem field3_append : field3 (op ++ a1 ++ a2 ++ a3) = a3 := by
  apply BitVec.eq_of_getLsbD_eq
  intro i hi
  simp only [field3, BitVec.getLsbD_extractLsb', BitVec.getLsbD_append, hi, decide_true, Bool.true_and]
  rw [if_pos (by omega)]
  congr 1; omega

/-- A word is its four bytes, little-endian. -/
@[simp] theorem wordOfBytes_fields (w : Word) : wordOfBytes (field3 w) (field2 w) (field1 w) (opcodeField w) = w := by
  apply BitVec.eq_of_getLsbD_eq
  intro i hi
  simp only [wordOfBytes, opcodeField, field1, field2, field3, BitVec.getLsbD_append, BitVec.getLsbD_extractLsb']
  split
  · simp_all
  · split
    · rename_i h1 h2; rw [decide_eq_true h2, Bool.true_and]; congr 1; omega
    · split
      · rename_i h1 h2 h3; rw [decide_eq_true h3, Bool.true_and]; congr 1; omega
      · rw [decide_eq_true (by omega), Bool.true_and]; congr 1; omega

/-- The decoder on a word written out as opcode byte and raw fields. -/
theorem decode_append : decode (op ++ a1 ++ a2 ++ a3) =
    match opcodeMap op with
    | none => .error .unknownOpcode
    | some (m, f) => if f.fieldsOk a1 a2 a3 then .ok (m.assemble a1 a2 a3) else .error .invalidRegisterField := by
  simp only [decode, opcodeField_append, field1_append, field2_append, field3_append]
  all_goals rfl

/-- The three bytes of a 24-bit immediate are the immediate. -/
@[simp] theorem append_bytes24 (v : BitVec 24) :
    v.extractLsb' 16 8 ++ v.extractLsb' 8 8 ++ v.extractLsb' 0 8 = v := by
  apply BitVec.eq_of_getLsbD_eq
  intro i hi
  simp only [BitVec.getLsbD_append, BitVec.getLsbD_extractLsb']
  split
  · simp_all
  · split
    · rename_i h1 h2; rw [decide_eq_true h2, Bool.true_and]; congr 1; omega
    · rw [decide_eq_true (by omega), Bool.true_and]; congr 1; omega

/-- The two bytes of a 16-bit immediate are the immediate. -/
@[simp] theorem append_bytes16 (v : BitVec 16) : v.extractLsb' 8 8 ++ v.extractLsb' 0 8 = v := by
  apply BitVec.eq_of_getLsbD_eq
  intro i hi
  simp only [BitVec.getLsbD_append, BitVec.getLsbD_extractLsb']
  split
  · simp_all
  · rw [decide_eq_true (by omega), Bool.true_and]; congr 1; omega

/-- The decoder on a word whose opcode byte is mapped. -/
theorem decode_of_map {m : Mnemonic} {f : Format} (h : opcodeMap op = some (m, f)) : decode (op ++ a1 ++ a2 ++ a3) =
    if f.fieldsOk a1 a2 a3 then .ok (m.assemble a1 a2 a3) else .error .invalidRegisterField := by
  rw [decode_append, h]

/-- The opcode map at an instruction's own opcode. -/
theorem opcodeMap_opcode (i : Instr) : opcodeMap i.opcode = some (i.mnemonic, i.format) := by cases i <;> rfl

/-- An instruction has the opcode that its mnemonic assembles. -/
theorem opcode_of_mnemonic (i : Instr) : (i.mnemonic.assemble 0 0 0).opcode = i.opcode := by cases i <;> rfl

/-- A mapped opcode byte is the opcode of the instruction its mnemonic assembles, and its format that instruction's. -/
theorem opcode_of_map {b : Byte} {m : Mnemonic} {f : Format} (h : opcodeMap b = some (m, f)) :
    (m.assemble 0 0 0).opcode = b ∧ (m.assemble 0 0 0).format = f := by
  have key : ∀ c : Fin 256, (match opcodeMap (BitVec.ofFin c) with
      | none => true
      | some (m, f) => decide ((m.assemble 0 0 0).opcode = BitVec.ofFin c ∧ (m.assemble 0 0 0).format = f)) = true := by
    decide +kernel
  have := key b.toFin
  rw [BitVec.ofFin_toFin, h] at this
  simpa using this

/-- The instruction of an instruction's mnemonic and operands is it. -/
theorem mnemonic_instr? (i : Instr) : i.mnemonic.instr? i.operands = some i := by cases i <;> rfl

/-- A mnemonic and an operand tuple give an instruction that has them. -/
theorem instr?_fields {m : Mnemonic} {os : List Operand} {i : Instr} (h : m.instr? os = some i) :
    i.mnemonic = m ∧ i.operands = os := by
  cases m <;> simp only [Mnemonic.instr?, ofNone, ofReg, ofImm24, ofRegImm16, ofRegReg, ofRegRegImm8, ofRegImm8Imm8, ofRegRegReg] at h <;>
    split at h <;> cases h <;> exact ⟨rfl, rfl⟩

/-- A record stands for an instruction exactly when that instruction has its opcode and its operands. -/
theorem Decoded.instr?_eq_some {d : Decoded} {i : Instr} :
    d.instr? = some i ↔ i.opcode = d.opcode ∧ i.operands = d.operands := by
  unfold Decoded.instr?
  constructor
  · intro h
    split at h
    · rename_i m f e
      obtain ⟨rfl, h2⟩ := instr?_fields h
      exact ⟨(opcode_of_mnemonic i).symm.trans (opcode_of_map e).1, h2⟩
    · cases h
  · rintro ⟨h1, h2⟩
    rw [← h1, ← h2, opcodeMap_opcode]
    exact mnemonic_instr? i

/-- The opcode of an assembled instruction depends on its mnemonic alone. -/
theorem opcode_assemble (m : Mnemonic) : (m.assemble a1 a2 a3).opcode = (m.assemble 0 0 0).opcode := by cases m <;> rfl

/-- An assembled instruction is well-formed exactly when its format's check passes. -/
theorem wf_assemble (m : Mnemonic) : (m.assemble a1 a2 a3).wf = (m.assemble 0 0 0).format.fieldsOk a1 a2 a3 := by
  cases m <;> rfl

/-- The mnemonic of an assembled instruction. -/
theorem mnemonic_assemble (m : Mnemonic) : (m.assemble a1 a2 a3).mnemonic = m := by cases m <;> rfl

/-- The format of an assembled instruction depends on its mnemonic alone. -/
theorem format_assemble (m : Mnemonic) : (m.assemble a1 a2 a3).format = (m.assemble 0 0 0).format := by cases m <;> rfl

/-- The operand tuple of an assembled instruction is its format's. -/
theorem operands_assemble (m : Mnemonic) :
    (m.assemble a1 a2 a3).operands = (m.assemble 0 0 0).format.operands a1 a2 a3 := by cases m <;> rfl

/-- A format's check fails exactly when a register among its operands is above 0x24. -/
theorem fieldsOk_eq_false (f : Format) :
    f.fieldsOk a1 a2 a3 = false ↔ ∃ r, Operand.reg r ∈ f.operands a1 a2 a3 ∧ 0x24 < r.toNat := by
  cases f <;> simp [Format.fieldsOk, Format.operands, regFieldOk]
  all_goals omega

end Sys2Proof
end

