-- ==== Sys2Proof/Laws/State.lean ====
section
/-! SUPPORT. One lemma per field per update of the state, and the registers through every update. -/

namespace Sys2Proof.Machine

variable (s : State)

@[simp] theorem State.setPc_x (v : Word) : (s.setPc v).x = s.x := rfl
@[simp] theorem State.setPc_pc (v : Word) : (s.setPc v).pc = v := rfl
@[simp] theorem State.setPc_mem (v : Word) : (s.setPc v).mem = s.mem := rfl
@[simp] theorem State.setPc_temps (v : Word) : (s.setPc v).temps = s.temps := rfl
@[simp] theorem State.setPc_status (v : Word) : (s.setPc v).status = s.status := rfl
@[simp] theorem State.setPc_labels (v : Word) : (s.setPc v).labels = s.labels := rfl
@[simp] theorem State.setPc_draws (v : Word) : (s.setPc v).draws = s.draws := rfl
@[simp] theorem State.reg_setPc (v : Word) (q : RegId) : (s.setPc v).reg q = s.reg q := rfl

@[simp] theorem State.setStatus_x (v : Status) : (s.setStatus v).x = s.x := rfl
@[simp] theorem State.setStatus_pc (v : Status) : (s.setStatus v).pc = s.pc := rfl
@[simp] theorem State.setStatus_mem (v : Status) : (s.setStatus v).mem = s.mem := rfl
@[simp] theorem State.setStatus_temps (v : Status) : (s.setStatus v).temps = s.temps := rfl
@[simp] theorem State.setStatus_status (v : Status) : (s.setStatus v).status = v := rfl
@[simp] theorem State.setStatus_labels (v : Status) : (s.setStatus v).labels = s.labels := rfl
@[simp] theorem State.setStatus_draws (v : Status) : (s.setStatus v).draws = s.draws := rfl
@[simp] theorem State.reg_setStatus (v : Status) (q : RegId) : (s.setStatus v).reg q = s.reg q := rfl

@[simp] theorem State.setMem_x (v : Memory) : (s.setMem v).x = s.x := rfl
@[simp] theorem State.setMem_pc (v : Memory) : (s.setMem v).pc = s.pc := rfl
@[simp] theorem State.setMem_mem (v : Memory) : (s.setMem v).mem = v := rfl
@[simp] theorem State.setMem_temps (v : Memory) : (s.setMem v).temps = s.temps := rfl
@[simp] theorem State.setMem_status (v : Memory) : (s.setMem v).status = s.status := rfl
@[simp] theorem State.setMem_labels (v : Memory) : (s.setMem v).labels = s.labels := rfl
@[simp] theorem State.setMem_draws (v : Memory) : (s.setMem v).draws = s.draws := rfl
@[simp] theorem State.reg_setMem (v : Memory) (q : RegId) : (s.setMem v).reg q = s.reg q := rfl

@[simp] theorem State.setTemps_x (v : List (Nat × Word)) : (s.setTemps v).x = s.x := rfl
@[simp] theorem State.setTemps_pc (v : List (Nat × Word)) : (s.setTemps v).pc = s.pc := rfl
@[simp] theorem State.setTemps_mem (v : List (Nat × Word)) : (s.setTemps v).mem = s.mem := rfl
@[simp] theorem State.setTemps_temps (v : List (Nat × Word)) : (s.setTemps v).temps = v := rfl
@[simp] theorem State.setTemps_status (v : List (Nat × Word)) : (s.setTemps v).status = s.status := rfl
@[simp] theorem State.setTemps_labels (v : List (Nat × Word)) : (s.setTemps v).labels = s.labels := rfl
@[simp] theorem State.setTemps_draws (v : List (Nat × Word)) : (s.setTemps v).draws = s.draws := rfl
@[simp] theorem State.reg_setTemps (v : List (Nat × Word)) (q : RegId) : (s.setTemps v).reg q = s.reg q := rfl

@[simp] theorem State.setLabels_x (v : List Word) : (s.setLabels v).x = s.x := rfl
@[simp] theorem State.setLabels_pc (v : List Word) : (s.setLabels v).pc = s.pc := rfl
@[simp] theorem State.setLabels_mem (v : List Word) : (s.setLabels v).mem = s.mem := rfl
@[simp] theorem State.setLabels_temps (v : List Word) : (s.setLabels v).temps = s.temps := rfl
@[simp] theorem State.setLabels_status (v : List Word) : (s.setLabels v).status = s.status := rfl
@[simp] theorem State.setLabels_labels (v : List Word) : (s.setLabels v).labels = v := rfl
@[simp] theorem State.setLabels_draws (v : List Word) : (s.setLabels v).draws = s.draws := rfl
@[simp] theorem State.reg_setLabels (v : List Word) (q : RegId) : (s.setLabels v).reg q = s.reg q := rfl

@[simp] theorem State.setDraws_x (v : Nat) : (s.setDraws v).x = s.x := rfl
@[simp] theorem State.setDraws_pc (v : Nat) : (s.setDraws v).pc = s.pc := rfl
@[simp] theorem State.setDraws_mem (v : Nat) : (s.setDraws v).mem = s.mem := rfl
@[simp] theorem State.setDraws_temps (v : Nat) : (s.setDraws v).temps = s.temps := rfl
@[simp] theorem State.setDraws_status (v : Nat) : (s.setDraws v).status = s.status := rfl
@[simp] theorem State.setDraws_labels (v : Nat) : (s.setDraws v).labels = s.labels := rfl
@[simp] theorem State.setDraws_draws (v : Nat) : (s.setDraws v).draws = v := rfl
@[simp] theorem State.reg_setDraws (v : Nat) (q : RegId) : (s.setDraws v).reg q = s.reg q := rfl

@[simp] theorem State.setReg_pc (r : RegId) (v : Word) : (s.setReg r v).pc = s.pc := rfl
@[simp] theorem State.setReg_mem (r : RegId) (v : Word) : (s.setReg r v).mem = s.mem := rfl
@[simp] theorem State.setReg_temps (r : RegId) (v : Word) : (s.setReg r v).temps = s.temps := rfl
@[simp] theorem State.setReg_status (r : RegId) (v : Word) : (s.setReg r v).status = s.status := rfl
@[simp] theorem State.setReg_labels (r : RegId) (v : Word) : (s.setReg r v).labels = s.labels := rfl
@[simp] theorem State.setReg_draws (r : RegId) (v : Word) : (s.setReg r v).draws = s.draws := rfl

/-- A register reads as what was last written to it. -/
@[simp] theorem State.reg_setReg_same (r : RegId) (v : Word) : (s.setReg r v).reg r = .value v := by
  simp [State.reg, State.setReg]

/-- Writing one register leaves the others. -/
@[simp] theorem State.reg_setReg_ne (v : Word) {q r : RegId} (h : q ≠ r) : (s.setReg r v).reg q = s.reg q := by
  have h' : r.val ≠ q.val := fun e => h (Fin.ext e.symm)
  simp [State.reg, State.setReg, h']

/-- The second of two writes of one register wins. -/
@[simp] theorem State.setReg_setReg (r : RegId) (v w : Word) : (s.setReg r v).setReg r w = s.setReg r w := by
  simp [State.setReg]

/-- Writes of two registers commute. -/
theorem State.setReg_comm (v w : Word) {q r : RegId} (h : q ≠ r) :
    (s.setReg q v).setReg r w = (s.setReg r w).setReg q v := by
  have h' : q.val ≠ r.val := fun e => h (Fin.ext e)
  simp only [State.setReg, State.mk.injEq, and_true]
  exact Vector.set_comm _ _ h'

/-- A register that holds a word holds one after any register is written. -/
theorem State.reg_setReg_written (r q : RegId) (v : Word) (h : ∃ w, s.reg q = .value w) :
    ∃ w, (s.setReg r v).reg q = .value w := by
  by_cases e : q = r
  · subst e; exact ⟨v, by simp⟩
  · simpa [e] using h

/-- Two states are equal when they agree on every register and on every other field. -/
theorem State.ext_reg {s t : State} (hx : ∀ r : RegId, s.reg r = t.reg r) (hpc : s.pc = t.pc) (hm : s.mem = t.mem)
    (ht : s.temps = t.temps) (hs : s.status = t.status) (hl : s.labels = t.labels) (hd : s.draws = t.draws) : s = t := by
  cases s; cases t
  simp only at hpc hm ht hs hl hd
  subst hpc hm ht hs hl hd
  simp only [State.mk.injEq, and_true]
  exact Vector.ext fun i hi => hx ⟨i, hi⟩

/-- Clearing the temporaries of a state that has none. -/
theorem State.setTemps_nil_of_nil (h : s.temps = []) : s.setTemps [] = s := by
  cases s; simp_all [State.setTemps]

@[simp] theorem State.setPc_setPc (v w : Word) : (s.setPc v).setPc w = s.setPc w := rfl
theorem State.setReg_setPc (r : RegId) (v w : Word) : (s.setPc w).setReg r v = (s.setReg r v).setPc w := rfl
theorem State.setReg_setDraws (r : RegId) (v : Word) (n : Nat) : (s.setDraws n).setReg r v = (s.setReg r v).setDraws n := rfl
theorem State.setStatus_setPc (v : Status) (w : Word) : (s.setPc w).setStatus v = (s.setStatus v).setPc w := rfl
theorem State.setTemps_setPc (v : List (Nat × Word)) (w : Word) : (s.setPc w).setTemps v = (s.setTemps v).setPc w := rfl
theorem State.setTemps_setReg (v : List (Nat × Word)) (r : RegId) (w : Word) :
    (s.setReg r w).setTemps v = (s.setTemps v).setReg r w := rfl
theorem State.setTemps_setMem (v : List (Nat × Word)) (m : Memory) : (s.setMem m).setTemps v = (s.setTemps v).setMem m := rfl
theorem State.setTemps_setStatus (v : List (Nat × Word)) (w : Status) :
    (s.setStatus w).setTemps v = (s.setTemps v).setStatus w := rfl
theorem State.setTemps_setLabels (v : List (Nat × Word)) (w : List Word) :
    (s.setLabels w).setTemps v = (s.setTemps v).setLabels w := rfl
theorem State.setTemps_setDraws (v : List (Nat × Word)) (n : Nat) : (s.setDraws n).setTemps v = (s.setTemps v).setDraws n := rfl

end Sys2Proof.Machine
end

