-- ==== Sys2Proof/Laws/Ops.lean ====
section
/-! SUPPORT. For each shared operation, once, everything it can do: how it can answer a next state, a fault or a refusal. -/

namespace Sys2Proof.Machine

variable {α β : Type}

/-! ### Going on -/

@[simp] theorem Res.andThen_next (a : α) (k : α → Res β) : Res.andThen (.next a) k = k a := rfl
@[simp] theorem Res.andThen_fault (e : Fault) (k : α → Res β) : Res.andThen (.fault e) k = .fault e := rfl
@[simp] theorem Res.andThen_refused (e : Refusal) (k : α → Res β) : Res.andThen (.refused e) k = .refused e := rfl

/-- Going on answers a value when both parts do. -/
theorem Res.andThen_eq_next {r : Res α} {k : α → Res β} {b : β} :
    Res.andThen r k = .next b ↔ ∃ a, r = .next a ∧ k a = .next b := by
  cases r <;> simp [Res.andThen]

/-- Going on faults where the first part does, or else the second. -/
theorem Res.andThen_eq_fault {r : Res α} {k : α → Res β} {e : Fault} :
    Res.andThen r k = .fault e ↔ r = .fault e ∨ ∃ a, r = .next a ∧ k a = .fault e := by
  cases r <;> simp [Res.andThen]

/-- Going on refuses where the first part does, or else the second. -/
theorem Res.andThen_eq_refused {r : Res α} {k : α → Res β} {e : Refusal} :
    Res.andThen r k = .refused e ↔ r = .refused e ∨ ∃ a, r = .next a ∧ k a = .refused e := by
  cases r <;> simp [Res.andThen]

/-! ### Register fields -/

/-- A field names a register exactly when it is valid (30_encoding.md R66). -/
theorem regId?_isSome (f : Byte) : (regId? f).isSome = regFieldOk f := by
  unfold regId? regFieldOk
  split <;> simp <;> omega

/-- A valid field names the register of its number. -/
theorem regId?_eq_some {f : Byte} {r : RegId} : regId? f = some r ↔ r.val = f.toNat := by
  unfold regId?
  split
  · simp only [Option.some.injEq]
    exact ⟨fun h => by subst h; rfl, fun h => Fin.ext h.symm⟩
  · simp only [reduceCtorEq, false_iff]
    have := r.isLt
    omega

/-- A field names no register exactly when it is above 0x24. -/
theorem regId?_eq_none {f : Byte} : regId? f = none ↔ regFieldOk f = false := by
  rw [← regId?_isSome]; cases regId? f <;> simp

/-- Going on with a register answers what the register's continuation does. -/
theorem withReg_of_some {op f : Byte} {r : RegId} {k : RegId → Res State} (h : regId? f = some r) :
    withReg op f k = k r := by simp [withReg, h]

/-- A field that names no register refuses, whatever follows. -/
theorem withReg_of_none {op f : Byte} {k : RegId → Res State} (h : regId? f = none) :
    withReg op f k = .refused (.unmodelled op) := by simp [withReg, h]

/-- Where a register field's operation answers a next state. -/
theorem withReg_eq_next {op f : Byte} {k : RegId → Res State} {t : State} :
    withReg op f k = .next t ↔ ∃ r, regId? f = some r ∧ k r = .next t := by
  unfold withReg; cases regId? f <;> simp

/-- Where a register field's operation faults. -/
theorem withReg_eq_fault {op f : Byte} {k : RegId → Res State} {e : Fault} :
    withReg op f k = .fault e ↔ ∃ r, regId? f = some r ∧ k r = .fault e := by
  unfold withReg; cases regId? f <;> simp

/-- Where a register field's operation refuses. -/
theorem withReg_eq_refused {op f : Byte} {k : RegId → Res State} {e : Refusal} :
    withReg op f k = .refused e ↔
      (regId? f = none ∧ e = .unmodelled op) ∨ ∃ r, regId? f = some r ∧ k r = .refused e := by
  unfold withReg; cases regId? f <;> simp [eq_comm]

/-! ### Registers -/

/-- A register read answers the word it holds, and only for a register other than pc. -/
theorem readReg_eq_next {r : RegId} {s : State} {v : Word} :
    readReg r s = .next v ↔ r ≠ pcReg ∧ s.reg r = .value v := by
  unfold readReg; split
  · simp_all
  · cases h : s.reg r <;> simp_all

/-- A register read faults only on an unwritten register, which it names. -/
theorem readReg_eq_fault {r : RegId} {s : State} {e : Fault} :
    readReg r s = .fault e ↔ r ≠ pcReg ∧ s.reg r = .unwritten ∧ e = .unwrittenRead (.reg r) := by
  unfold readReg; split
  · simp_all
  · rename_i hp
    cases h : s.reg r <;> simp [hp, eq_comm]

/-- A register read refuses only for pc. -/
theorem readReg_eq_refused {r : RegId} {s : State} {e : Refusal} :
    readReg r s = .refused e ↔ r = pcReg ∧ e = .pcOperand := by
  unfold readReg; split
  · simp_all [eq_comm]
  · cases h : s.reg r <;> simp_all

/-- Reading a written register. -/
theorem readReg_of_value {r : RegId} {s : State} {v : Word} (hp : r ≠ pcReg) (h : s.reg r = .value v) :
    readReg r s = .next v := readReg_eq_next.2 ⟨hp, h⟩

/-- A register write answers the state with the word written, and only for a register other than pc. -/
theorem writeReg_eq_next {r : RegId} {v : Word} {s t : State} :
    writeReg r v s = .next t ↔ r ≠ pcReg ∧ t = s.setReg r v := by
  unfold writeReg; split <;> simp_all [eq_comm]

/-- A register write never faults. -/
theorem writeReg_ne_fault {r : RegId} {v : Word} {s : State} {e : Fault} : writeReg r v s ≠ .fault e := by
  unfold writeReg; split <;> simp

/-- A register write refuses only for pc. -/
theorem writeReg_eq_refused {r : RegId} {v : Word} {s : State} {e : Refusal} :
    writeReg r v s = .refused e ↔ r = pcReg ∧ e = .pcOperand := by
  unfold writeReg; split <;> simp_all [eq_comm]

/-- Writing a register other than pc and going on to the sequential successor. -/
theorem setRegNext_of_ne {r : RegId} (h : r ≠ pcReg) (v : Word) (s : State) :
    setRegNext r v s = .next ((s.setReg r v).setPc (s.pc + 4)) := by
  simp [setRegNext, writeReg, h, fallThrough, advance]

/-- Everything `setRegNext` can answer. -/
theorem setRegNext_eq_next {r : RegId} {v : Word} {s t : State} :
    setRegNext r v s = .next t ↔ r ≠ pcReg ∧ t = (s.setReg r v).setPc (s.pc + 4) := by
  by_cases h : r = pcReg
  · simp [setRegNext, writeReg, h]
  · simp [setRegNext_of_ne h, h, eq_comm]

/-- `setRegNext` never faults. -/
theorem setRegNext_ne_fault {r : RegId} {v : Word} {s : State} {e : Fault} : setRegNext r v s ≠ .fault e := by
  by_cases h : r = pcReg
  · simp [setRegNext, writeReg, h]
  · simp [setRegNext_of_ne h]

/-- `setRegNext` refuses only for pc. -/
theorem setRegNext_eq_refused {r : RegId} {v : Word} {s : State} {e : Refusal} :
    setRegNext r v s = .refused e ↔ r = pcReg ∧ e = .pcOperand := by
  by_cases h : r = pcReg
  · simp [setRegNext, writeReg, h, eq_comm]
  · simp [setRegNext_of_ne h, h]

/-! ### Memory accesses -/

/-- A byte read answers the byte memory holds. -/
theorem readByte_eq_next {a : Word} {s : State} {b : Byte} : readByte a s = .next b ↔ s.mem.read a.toNat = some b := by
  unfold readByte; cases s.mem.read a.toNat <;> simp

/-- A byte read faults only on an unwritten byte, which it names. -/
theorem readByte_eq_fault {a : Word} {s : State} {e : Fault} :
    readByte a s = .fault e ↔ s.mem.read a.toNat = none ∧ e = .unwrittenRead (.mem a) := by
  unfold readByte; cases s.mem.read a.toNat <;> simp [eq_comm]

/-- A byte read never refuses. -/
theorem readByte_ne_refused {a : Word} {s : State} {e : Refusal} : readByte a s ≠ .refused e := by
  unfold readByte; cases s.mem.read a.toNat <;> simp

/-- Four written bytes read as their little-endian word. -/
theorem readFour_of_some {a : Word} {s : State} {b0 b1 b2 b3 : Byte} (h0 : s.mem.read a.toNat = some b0)
    (h1 : s.mem.read (a + 1).toNat = some b1) (h2 : s.mem.read (a + 2).toNat = some b2)
    (h3 : s.mem.read (a + 3).toNat = some b3) : readFour a s = .next (wordOfBytes b0 b1 b2 b3) := by
  simp only [readFour, readByte_eq_next.2 h0, readByte_eq_next.2 h1, readByte_eq_next.2 h2, readByte_eq_next.2 h3,
    Res.andThen_next]

/-- A four-byte read faults only on an unwritten byte of the four, which it names. -/
theorem readFour_eq_fault {a : Word} {s : State} {e : Fault} (h : readFour a s = .fault e) :
    ∃ k ∈ [(0 : Word), 1, 2, 3], s.mem.read (a + k).toNat = none ∧ e = .unwrittenRead (.mem (a + k)) := by
  simp only [readFour, Res.andThen_eq_fault, readByte_eq_fault] at h
  rcases h with h | ⟨_, -, h | ⟨_, -, h | ⟨_, -, h | ⟨_, -, h⟩⟩⟩⟩
  · exact ⟨0, by simp, by simpa using h⟩
  · exact ⟨1, by simp, h⟩
  · exact ⟨2, by simp, h⟩
  · exact ⟨3, by simp, h⟩
  · simp at h

/-- A four-byte read never refuses. -/
theorem readFour_ne_refused {a : Word} {s : State} {e : Refusal} : readFour a s ≠ .refused e := by
  simp [readFour, Res.andThen_eq_refused, readByte_ne_refused]

/-- The alignment rule of a word access (20_memory.md R40). -/
theorem wordAccess_eq (a : Word) : wordAccess a =
    if a.toNat % 4 = 0 ∨ Config.misalignedPolicy = .bytewise then .next () else .fault (.misalignedAccess a) := by
  unfold wordAccess
  by_cases h : a.toNat % 4 = 0
  · simp [h]
  · cases e : Config.misalignedPolicy <;> simp [h]

/-- A word access goes on, or faults as misaligned under the policy fault; it never refuses. -/
theorem wordAccess_ne_refused {a : Word} {e : Refusal} : wordAccess a ≠ .refused e := by
  rw [wordAccess_eq]; split <;> simp

/-- The four bytes a word store writes, and every other byte. -/
theorem writeFour_mem (a v : Word) (s : State) : (writeFour a v s).mem =
    (((s.mem.write a.toNat (field3 v)).write (a + 1).toNat (field2 v)).write (a + 2).toNat (field1 v)).write
      (a + 3).toNat (opcodeField v) := rfl

/-- A four-byte store changes memory alone. -/
theorem writeFour_eq_setMem (a v : Word) (s : State) : writeFour a v s = s.setMem (writeFour a v s).mem := rfl

/-- A byte outside the four stored ones is unchanged. -/
theorem read_writeFour_ne {a v : Word} {s : State} {adr : Nat}
    (h : ∀ k ∈ [(0 : Word), 1, 2, 3], adr ≠ (a + k).toNat) : (writeFour a v s).mem.read adr = s.mem.read adr := by
  have h0 : adr ≠ a.toNat := by simpa using h 0 (by simp)
  rw [writeFour_mem, Memory.read_write_ne _ _ (h 3 (by simp)), Memory.read_write_ne _ _ (h 2 (by simp)),
    Memory.read_write_ne _ _ (h 1 (by simp)), Memory.read_write_ne _ _ h0]

/-- A four-byte store keeps memory's canonical form. -/
theorem wf_writeFour {a v : Word} {s : State} (h : Memory.wf s.mem = true) : Memory.wf (writeFour a v s).mem = true := by
  rw [writeFour_mem]
  exact Memory.wf_write _ _ (Memory.wf_write _ _ (Memory.wf_write _ _ (Memory.wf_write _ _ h)))

/-- A one-byte store keeps memory's canonical form. -/
theorem wf_writeByte {a : Word} {b : Byte} {s : State} (h : Memory.wf s.mem = true) :
    Memory.wf (writeByte a b s).mem = true :=
  Memory.wf_write _ _ h

/-! ### The shared meanings: everything they can answer -/

/-- When a reg+reg+reg operation completes: both sources written, no operand pc, and the value computed. -/
theorem regRegRegOp_eq_next {op rA rB rC : Byte} {f : Word → Word → Res Word} {s t : State} :
    regRegRegOp op rA rB rC f s = .next t ↔ ∃ a b c vb vc v, regId? rA = some a ∧ regId? rB = some b ∧ regId? rC = some c ∧
      a ≠ pcReg ∧ b ≠ pcReg ∧ c ≠ pcReg ∧ s.reg b = .value vb ∧ s.reg c = .value vc ∧ f vb vc = .next v ∧
      t = (s.setReg a v).setPc (s.pc + 4) := by
  simp only [regRegRegOp, withReg_eq_next, Res.andThen_eq_next, readReg_eq_next, setRegNext_eq_next]
  constructor
  · rintro ⟨a, ha, b, hb, c, hc, vb, ⟨pb, xb⟩, vc, ⟨pc, xc⟩, v, hv, pa, rfl⟩
    exact ⟨a, b, c, vb, vc, v, ha, hb, hc, pa, pb, pc, xb, xc, hv, rfl⟩
  · rintro ⟨a, b, c, vb, vc, v, ha, hb, hc, pa, pb, pc, xb, xc, hv, rfl⟩
    exact ⟨a, ha, b, hb, c, hc, vb, ⟨pb, xb⟩, vc, ⟨pc, xc⟩, v, hv, pa, rfl⟩

/-- When a reg+reg operation completes. -/
theorem regRegOp_eq_next {op rA rB : Byte} {f : Word → Word} {s t : State} :
    regRegOp op rA rB f s = .next t ↔ ∃ a b vb, regId? rA = some a ∧ regId? rB = some b ∧ a ≠ pcReg ∧ b ≠ pcReg ∧
      s.reg b = .value vb ∧ t = (s.setReg a (f vb)).setPc (s.pc + 4) := by
  simp only [regRegOp, withReg_eq_next, Res.andThen_eq_next, readReg_eq_next, setRegNext_eq_next]
  constructor
  · rintro ⟨a, ha, b, hb, vb, ⟨pb, xb⟩, pa, rfl⟩; exact ⟨a, b, vb, ha, hb, pa, pb, xb, rfl⟩
  · rintro ⟨a, b, vb, ha, hb, pa, pb, xb, rfl⟩; exact ⟨a, ha, b, hb, vb, ⟨pb, xb⟩, pa, rfl⟩

/-- A shift changes nothing of the state but the count of draws. -/
theorem shiftBy_state (k : ShiftKind) (a c : Word) (s : State) : ∃ n, (shiftBy k a c s).2 = s.setDraws n := by
  unfold shiftBy; split
  · exact ⟨s.draws, rfl⟩
  · exact ⟨_, rfl⟩

/-- When a bidirectional shift completes: some result in rA, and perhaps another count of draws. -/
theorem bidirectionalShift_eq_next {k : ShiftKind} {op rA rB rC : Byte} {s t : State}
    (h : bidirectionalShift k op rA rB rC s = .next t) : ∃ a v n, regId? rA = some a ∧ a ≠ pcReg ∧
      t = ((s.setDraws n).setReg a v).setPc (s.pc + 4) := by
  simp only [bidirectionalShift, withReg_eq_next, Res.andThen_eq_next, setRegNext_eq_next] at h
  obtain ⟨a, ha, -, -, c, -, vc, -, vb, -, pa, rfl⟩ := h
  split
  · obtain ⟨n, e⟩ := shiftBy_state .shl vb vc s
    exact ⟨a, _, n, ha, pa, by rw [e]; rfl⟩
  · obtain ⟨n, e⟩ := shiftBy_state k vb (-vc) s
    exact ⟨a, _, n, ha, pa, by rw [e]; rfl⟩

/-- When a load completes. -/
theorem loadOp_eq_next {op rA rB v : Byte} {access : Word → State → Res Word} {s t : State} :
    loadOp op rA rB v access s = .next t ↔ ∃ a b base w, regId? rA = some a ∧ regId? rB = some b ∧ a ≠ pcReg ∧ b ≠ pcReg ∧
      s.reg b = .value base ∧ access (effAddr base v) s = .next w ∧ t = (s.setReg a w).setPc (s.pc + 4) := by
  simp only [loadOp, withReg_eq_next, Res.andThen_eq_next, readReg_eq_next, setRegNext_eq_next]
  constructor
  · rintro ⟨a, ha, b, hb, base, ⟨pb, xb⟩, w, hw, pa, rfl⟩; exact ⟨a, b, base, w, ha, hb, pa, pb, xb, hw, rfl⟩
  · rintro ⟨a, b, base, w, ha, hb, pa, pb, xb, hw, rfl⟩; exact ⟨a, ha, b, hb, base, ⟨pb, xb⟩, w, hw, pa, rfl⟩

/-- When a store completes. -/
theorem storeOp_eq_next {op rA rB v : Byte} {access : Word → Word → State → Res State} {s t : State} :
    storeOp op rA rB v access s = .next t ↔ ∃ a b base w u, regId? rA = some a ∧ regId? rB = some b ∧ a ≠ pcReg ∧
      b ≠ pcReg ∧ s.reg b = .value base ∧ s.reg a = .value w ∧ access (effAddr base v) w s = .next u ∧ t = advance u := by
  simp only [storeOp, withReg_eq_next, Res.andThen_eq_next, readReg_eq_next, fallThrough, Host.Outcome.next.injEq]
  constructor
  · rintro ⟨a, ha, b, hb, base, ⟨pb, xb⟩, w, ⟨pa, xa⟩, u, hu, rfl⟩
    exact ⟨a, b, base, w, u, ha, hb, pa, pb, xb, xa, hu, rfl⟩
  · rintro ⟨a, b, base, w, u, ha, hb, pa, pb, xb, xa, hu, rfl⟩
    exact ⟨a, ha, b, hb, base, ⟨pb, xb⟩, w, ⟨pa, xa⟩, u, hu, rfl⟩

/-- When a branch completes: taken to rA's value, or past. -/
theorem branchOp_eq_next {op rA rB : Byte} {taken : Word → Bool} {s t : State} :
    branchOp op rA rB taken s = .next t ↔ ∃ a b vb, regId? rA = some a ∧ regId? rB = some b ∧ b ≠ pcReg ∧
      s.reg b = .value vb ∧
      ((taken vb = true ∧ a ≠ pcReg ∧ ∃ w, s.reg a = .value w ∧ t = s.setPc w) ∨
        (taken vb = false ∧ t = s.setPc (s.pc + 4))) := by
  simp only [branchOp, withReg_eq_next, Res.andThen_eq_next, readReg_eq_next]
  constructor
  · rintro ⟨a, ha, b, hb, vb, ⟨pb, xb⟩, h⟩
    refine ⟨a, b, vb, ha, hb, pb, xb, ?_⟩
    cases e : taken vb
    · simp only [e, fallThrough, advance, Bool.false_eq_true, if_false, Host.Outcome.next.injEq] at h
      exact .inr ⟨rfl, h.symm⟩
    · simp only [e, if_true, Res.andThen_eq_next, readReg_eq_next, jumpTo, Host.Outcome.next.injEq] at h
      obtain ⟨w, ⟨pa, xa⟩, h⟩ := h
      exact .inl ⟨rfl, pa, w, xa, h.symm⟩
  · rintro ⟨a, b, vb, ha, hb, pb, xb, ⟨e, pa, w, xa, rfl⟩ | ⟨e, rfl⟩⟩
    · exact ⟨a, ha, b, hb, vb, ⟨pb, xb⟩, by simp [e, readReg_of_value pa xa, jumpTo]⟩
    · exact ⟨a, ha, b, hb, vb, ⟨pb, xb⟩, by simp [e, fallThrough, advance]⟩

/-- What the label request does to the state: the label table alone, which may gain the address at its end. -/
theorem getOrCreateLabel_state (a : Word) (s : State) :
    (getOrCreateLabel a s).2 = s.setLabels (if a ∈ s.labels then s.labels else s.labels ++ [a]) := rfl

/-- Settling a stop that an instruction can make changes the status alone. -/
theorem State.settle_next (s t : State) : s.settle (.next t) = t := rfl

/-- A refusal settles as the status. -/
theorem State.settle_refused (s : State) (r : Refusal) : s.settle (.refused r) = s.setStatus (.refused r) := rfl

end Sys2Proof.Machine
end

