-- ==== Sys2Proof/Laws/Exec.lean ====
section
/-! SUPPORT. What a completed instruction can do to the state, once for all instructions; the fetch; operands that stop; and what the
lifter's fallback evaluates to. -/

namespace Sys2Proof.Machine

/-! ### Registers by number -/

/-- The raw field of a register is its number. -/
theorem regField_toNat (r : RegId) : (regField r).toNat = r.val := by
  simp only [regField, BitVec.toNat_ofNat]
  have := r.isLt
  omega

/-- The raw field of a register names it. -/
@[simp] theorem regId?_regField (r : RegId) : regId? (regField r) = some r := by
  rw [regId?_eq_some, regField_toNat]

/-- Going on with the register that a register's raw field names. -/
@[simp] theorem withReg_regField (op : Byte) (r : RegId) (k : RegId → Res State) : withReg op (regField r) k = k r :=
  withReg_of_some (regId?_regField r)

/-- A raw field names no register, and is invalid; or it names one, and is valid. -/
theorem regId?_cases (f : Byte) : (regId? f = none ∧ regFieldOk f = false) ∨ ∃ r, regId? f = some r ∧ regFieldOk f = true := by
  cases h : regId? f with
  | none => exact .inl ⟨rfl, regId?_eq_none.1 h⟩
  | some r => exact .inr ⟨r, rfl, by rw [← regId?_isSome, h]; rfl⟩

/-! ### Operations by what they answer -/

/-- Reading pc as an operand refuses. -/
theorem readReg_pc (s : State) : readReg pcReg s = .refused .pcOperand := by simp [readReg]

/-- Reading an unwritten register faults. -/
theorem readReg_of_unwritten {r : RegId} {s : State} (hp : r ≠ pcReg) (h : s.reg r = .unwritten) :
    readReg r s = .fault (.unwrittenRead (.reg r)) := by simp [readReg, hp, h]

/-- Writing pc as an operand refuses. -/
theorem setRegNext_pc (v : Word) (s : State) : setRegNext pcReg v s = .refused .pcOperand := by simp [setRegNext, writeReg]

/-- The three answers of a register read. -/
theorem readReg_cases (r : RegId) (s : State) : readReg r s = .refused .pcOperand ∨
    readReg r s = .fault (.unwrittenRead (.reg r)) ∨ ∃ v, readReg r s = .next v := by
  unfold readReg; split
  · exact .inl rfl
  · cases s.reg r <;> simp

/-- The two answers of a byte read. -/
theorem readByte_cases (a : Word) (s : State) :
    readByte a s = .fault (.unwrittenRead (.mem a)) ∨ ∃ v, readByte a s = .next v := by
  unfold readByte; cases s.mem.read a.toNat <;> simp

/-- The two answers of a four-byte read. -/
theorem readFour_cases (a : Word) (s : State) :
    (∃ b, readFour a s = .fault (.unwrittenRead (.mem b))) ∨ ∃ v, readFour a s = .next v := by
  cases e : readFour a s with
  | next v => exact .inr ⟨v, rfl⟩
  | fault r => obtain ⟨k, _, _, h⟩ := readFour_eq_fault e; subst h; exact .inl ⟨_, rfl⟩
  | refused r => exact absurd e readFour_ne_refused

/-- The two answers of the alignment rule. -/
theorem wordAccess_cases (a : Word) : wordAccess a = .fault (.misalignedAccess a) ∨ wordAccess a = .next () := by
  rw [wordAccess_eq]; split <;> simp

/-- The two answers of a division. -/
theorem divU_cases (a b : Word) : divU a b = .fault .divideByZero ∨ ∃ v, divU a b = .next v := by
  unfold divU; split <;> simp

/-- The two answers of a remainder. -/
theorem modU_cases (a b : Word) : modU a b = .fault .divideByZero ∨ ∃ v, modU a b = .next v := by
  unfold modU; split <;> simp

/-- A shift answers a word and the state with perhaps another count of draws. -/
theorem shiftBy_cases (k : ShiftKind) (a c : Word) (s : State) : ∃ w n, shiftBy k a c s = (w, s.setDraws n) := by
  obtain ⟨n, h⟩ := shiftBy_state k a c s
  exact ⟨(shiftBy k a c s).1, n, Prod.ext rfl h⟩

/-- Two different offsets from one address are two different bytes. -/
theorem toNat_add_ne {a k l : Word} (h : k ≠ l) : (a + k).toNat ≠ (a + l).toNat := fun e =>
  h (by simpa using BitVec.eq_of_toNat_eq e)

/-- An offset other than 0 from an address is another byte. -/
theorem toNat_ne_add {a k : Word} (h : k ≠ 0) : a.toNat ≠ (a + k).toNat := fun e =>
  h (by simpa using BitVec.eq_of_toNat_eq e)

/-- The four bytes a word store leaves, the lowest first (20_memory.md R38). -/
theorem read_writeFour (a v : Word) (s : State) :
    (writeFour a v s).mem.read a.toNat = some (field3 v) ∧ (writeFour a v s).mem.read (a + 1).toNat = some (field2 v) ∧
    (writeFour a v s).mem.read (a + 2).toNat = some (field1 v) ∧
    (writeFour a v s).mem.read (a + 3).toNat = some (opcodeField v) := by
  rw [writeFour_mem]
  refine ⟨?_, ?_, ?_, ?_⟩
  · rw [Memory.read_write_ne _ _ (toNat_ne_add (by decide)), Memory.read_write_ne _ _ (toNat_ne_add (by decide)),
      Memory.read_write_ne _ _ (toNat_ne_add (by decide)), Memory.read_write_same]
  · rw [Memory.read_write_ne _ _ (toNat_add_ne (by decide)), Memory.read_write_ne _ _ (toNat_add_ne (by decide)),
      Memory.read_write_same]
  · rw [Memory.read_write_ne _ _ (toNat_add_ne (by decide)), Memory.read_write_same]
  · rw [Memory.read_write_same]

/-! ### A completed instruction -/

/-- Everything a completed instruction can have done to the state. -/
inductive Completed (s : State) : State → Prop
  /-- one register, perhaps the count of draws, and pc at the sequential successor -/
  | result (a : RegId) (v : Word) (n : Nat) (h : a ≠ pcReg) :
      Completed s (((s.setDraws n).setReg a v).setPc (s.pc + 4))
  /-- four bytes of memory, and pc at the sequential successor -/
  | word (a v : Word) : Completed s ((writeFour a v s).setPc (s.pc + 4))
  /-- one byte of memory, and pc at the sequential successor -/
  | byte (a : Word) (b : Byte) : Completed s ((writeByte a b s).setPc (s.pc + 4))
  /-- pc alone -/
  | goto (p : Word) : Completed s (s.setPc p)
  /-- pc, and perhaps a new label -/
  | label (a p : Word) : Completed s ((getOrCreateLabel a s).2.setPc p)
  /-- the link register and pc -/
  | link (v p : Word) : Completed s ((s.setReg lrReg v).setPc p)
  /-- the status -/
  | halted : Completed s (s.setStatus .halted)
  /-- the status, and pc at the sequential successor -/
  | syscall (c : BitVec 24) : Completed s ((s.setPc (s.pc + 4)).setStatus (.syscall c))

/-- The inversion of `exec`: a completed instruction did one of these. -/
theorem exec_completed {i : Instr} {s t : State} (h : exec i s = .next t) : Completed s t := by
  cases i with
  | add | sub | mul | and | orr | xor | div | mod | tcu | tcs =>
    simp only [exec, execAdd, execSub, execMul, execAnd, execOrr, execXor, execDiv, execMod, execTcu, execTcs,
      regRegRegOp_eq_next] at h
    obtain ⟨a, _, _, _, _, v, -, -, -, ha, -, -, -, -, -, rfl⟩ := h
    exact .result a v s.draws ha
  | lsh | ash =>
    simp only [exec, execLsh, execAsh] at h
    obtain ⟨a, v, n, -, ha, rfl⟩ := bidirectionalShift_eq_next h
    exact .result a v n ha
  | not | mov | sxt | seq =>
    simp only [exec, execNot, execMov, execSxt, execSeq, regRegOp_eq_next] at h
    obtain ⟨a, _, _, -, -, ha, -, -, rfl⟩ := h
    exact .result a _ s.draws ha
  | set =>
    simp only [exec, execSet, withReg_eq_next, setRegNext_eq_next] at h
    obtain ⟨a, -, ha, rfl⟩ := h
    exact .result a _ s.draws ha
  | sup =>
    simp only [exec, execSup, withReg_eq_next, Res.andThen_eq_next, setRegNext_eq_next] at h
    obtain ⟨a, -, _, -, ha, rfl⟩ := h
    exact .result a _ s.draws ha
  | sia _ v w =>
    simp only [exec, execSia, withReg_eq_next, Res.andThen_eq_next, setRegNext_eq_next] at h
    obtain ⟨a, -, va, -, ha, rfl⟩ := h
    obtain ⟨x, n, e⟩ := shiftBy_cases .shl (zext8 v) (zext8 w) s
    rw [e]
    exact .result a _ n ha
  | ldw | ldb =>
    simp only [exec, execLdw, execLdb, loadOp_eq_next] at h
    obtain ⟨a, _, _, _, -, -, ha, -, -, -, rfl⟩ := h
    exact .result a _ s.draws ha
  | stw =>
    simp only [exec, execStw, storeOp_eq_next, writeWord, Res.andThen_eq_next] at h
    obtain ⟨_, _, _, _, _, -, -, -, -, -, -, ⟨_, -, h⟩, rfl⟩ := h
    cases h
    exact .word _ _
  | stb =>
    simp only [exec, execStb, storeOp_eq_next] at h
    obtain ⟨_, _, _, _, _, -, -, -, -, -, -, h, rfl⟩ := h
    cases h
    exact .byte _ _
  | jmi => cases h; exact .label _ _
  | jmp =>
    simp only [exec, execJmp, jumpTo, withReg_eq_next, Res.andThen_eq_next] at h
    obtain ⟨_, -, _, -, h⟩ := h
    cases h
    exact .goto _
  | cal =>
    simp only [exec, execCal, jumpTo, withReg_eq_next, Res.andThen_eq_next] at h
    obtain ⟨_, -, _, -, h⟩ := h
    cases h
    exact .link _ _
  | bve | bvn =>
    simp only [exec, execBve, execBvn, branchOp_eq_next] at h
    obtain ⟨_, _, _, -, -, -, -, ⟨-, -, _, -, rfl⟩ | ⟨-, rfl⟩⟩ := h <;> exact .goto _
  | ret =>
    simp only [exec, execRet, jumpTo, Res.andThen_eq_next] at h
    obtain ⟨_, -, h⟩ := h
    cases h
    exact .link _ _
  | nop => cases h; exact .goto _
  | int => cases h; exact .syscall _
  | hlt => cases h; exact .halted
  | snd => cases h

/-- The inversion of `step`: a step that answers a next state ran the fetched instruction. -/
theorem step_eq_next {s t : State} (h : step s = .next t) :
    s.status = .running ∧ ∃ i, fetch s = .next i ∧ exec i s = .next t := by
  unfold step at h
  cases e : s.status <;> rw [e] at h <;> simp only [reduceCtorEq] at h
  exact ⟨rfl, Res.andThen_eq_next.1 h⟩

/-! ### The fetch -/

/-- Four written bytes at pc are fetched as they are decoded. -/
theorem fetch_of_some {s : State} {b0 b1 b2 b3 : Byte} (h0 : s.mem.read s.pc.toNat = some b0)
    (h1 : s.mem.read (s.pc + 1).toNat = some b1) (h2 : s.mem.read (s.pc + 2).toNat = some b2)
    (h3 : s.mem.read (s.pc + 3).toNat = some b3) : fetch s =
      match decode (b3 ++ b2 ++ b1 ++ b0) with
      | .ok i => .next i
      | .error e => .fault (.illegalInstruction e) := by
  simp only [fetch, fetchBytes, readByte_eq_next.2 h0, readByte_eq_next.2 h1, readByte_eq_next.2 h2, readByte_eq_next.2 h3,
    Res.andThen_next]
  rfl

/-- The fetch faults on an unwritten byte of the four, which it names, or on a word that does not decode. -/
theorem fetch_eq_fault {s : State} {e : Fault} (h : fetch s = .fault e) :
    (∃ k ∈ [(0 : Word), 1, 2, 3], s.mem.read (s.pc + k).toNat = none ∧ e = .unwrittenRead (.mem (s.pc + k))) ∨
    ∃ d, e = .illegalInstruction d := by
  simp only [fetch, fetchBytes, Res.andThen_eq_fault, readByte_eq_fault] at h
  rcases h with (h | ⟨_, -, h | ⟨_, -, h | ⟨_, -, h | ⟨_, -, h⟩⟩⟩⟩) | ⟨buf, -, h⟩
  · exact .inl ⟨0, by simp, by simpa using h⟩
  · exact .inl ⟨1, by simp, h⟩
  · exact .inl ⟨2, by simp, h⟩
  · exact .inl ⟨3, by simp, h⟩
  · simp at h
  · split at h
    · cases h
    · cases h; exact .inr ⟨_, rfl⟩

/-- The fetch never refuses. -/
theorem fetch_ne_refused {s : State} {e : Refusal} : fetch s ≠ .refused e := by
  simp only [fetch, fetchBytes, Res.andThen_eq_refused, readByte_ne_refused, ne_eq, not_or]
  refine ⟨by simp, ?_⟩
  rintro ⟨buf, -, h⟩
  split at h <;> cases h

/-! ### The lifter -/

/-- The sequential successor, as a result. -/
@[simp] theorem fallThrough_eq (s : State) : fallThrough s = .next (s.setPc (s.pc + 4)) := rfl

/-- Evaluating the fallback refuses, naming the opcode, with no other effect (40_lifter_ir.md R96). -/
theorem evalSeq_unimplemented (address : Word) (op : Byte) {s : State} (h : s.temps = []) :
    evalSeq [.unimplemented] address op s = s.setStatus (.refused (.unmodelled op)) := by
  simp [evalSeq, evalOps, evalOp, s.setTemps_nil_of_nil h, State.setTemps_setStatus]

/-- SXT's two shifts are the sign extension of the low half-word (42_move_const.md R115). -/
theorem sshiftRight_shiftLeft_16 (v : Word) : (v <<< 16).sshiftRight 16 = (v.extractLsb' 0 16).signExtend 32 := by
  apply BitVec.eq_of_getLsbD_eq
  intro i hi
  rw [BitVec.getLsbD_sshiftRight, BitVec.getLsbD_signExtend, BitVec.msb_eq_getLsbD_last, BitVec.msb_eq_getLsbD_last]
  simp only [BitVec.getLsbD_shiftLeft, BitVec.getLsbD_extractLsb']
  by_cases h : i < 16
  · simp [h, hi, show 16 + i < 32 by omega, show ¬ 32 ≤ i by omega]
  · simp [h, hi, show ¬ 16 + i < 32 by omega, show ¬ 32 ≤ i by omega]

/-- SUP's formula is the concatenation of the two half-words (42_move_const.md R114). -/
theorem sup_formula (va : Word) (v : BitVec 16) :
    ((va &&& (0x0000FFFF : Word)) ||| (zext16 v <<< 16)) = v ++ va.extractLsb' 0 16 := by
  apply BitVec.eq_of_getLsbD_eq
  intro i hi
  have m : (0x0000FFFF : Word) = (BitVec.allOnes 16).setWidth 32 := by decide
  rw [m]
  simp only [zext16, BitVec.getLsbD_or, BitVec.getLsbD_and, BitVec.getLsbD_setWidth, BitVec.getLsbD_shiftLeft,
    BitVec.getLsbD_append, BitVec.getLsbD_extractLsb', BitVec.getLsbD_allOnes]
  by_cases h : i < 16
  · simp [h, hi]
  · simp [h, hi]; omega

end Sys2Proof.Machine
end

