-- ==== Sys2Proof/Laws/Format.lean ====
section
/-! SUPPORT. The text and the port slots: what a numeral, a register's name and an operand's token are, how the tokens of an instruction
come about, and that a valid operand's slot carries it. -/

namespace Sys2Proof.Machine

/-- The digits the library writes are a numeral. -/
theorem toDigits_isNumeral {b : Nat} (hb : 1 < b) (n : Nat) : IsNumeral b n (Nat.toDigits b n) := by
  induction n using Nat.strongRecOn with
  | ind n ih =>
    by_cases h : n < b
    · exact ⟨[n], by simp, by simpa using h, by simp, by simp, by simp [Nat.toDigits_of_lt_base h]⟩
    · obtain ⟨ds, h1, h2, h3, h4, h5⟩ := ih (n / b) (Nat.div_lt_self (by omega) hb)
      refine ⟨ds ++ [n % b], by simp, ?_, ?_, ?_, ?_⟩
      · intro d hd
        rcases List.mem_append.1 hd with hd | hd
        · exact h2 d hd
        · rw [List.mem_singleton.1 hd]; exact Nat.mod_lt _ (by omega)
      · intro hh
        rw [List.head?_append_of_ne_nil _ h1] at hh
        have hz : n / b = 0 := by rw [← h4, h3 hh]; simp
        have := Nat.div_pos (Nat.le_of_not_lt h) (by omega)
        omega
      · rw [List.foldl_append, h4]; exact Nat.div_add_mod' n b
      · rw [Nat.toDigits_of_base_le hb (Nat.le_of_not_lt h), h5, List.map_append]; rfl

/-- The register map holds a name exactly for a valid field. -/
theorem registerName_isSome (f : Byte) : (registerName f).isSome = regFieldOk f := by
  have h : ∀ b : Fin 256, (registerName (BitVec.ofFin b)).isSome = regFieldOk (BitVec.ofFin b) := by decide +kernel
  exact h f.toFin

/-- The name that the register map holds is the canonical one. -/
theorem registerName_isRegisterName {f : Byte} {cs : List Char} (h : registerName f = some cs) : IsRegisterName f cs := by
  simp only [registerName] at h
  split_ifs at h <;> cases h <;> simp_all [IsRegisterName, toDigits_isNumeral]

/-- An operand that has a token has the right one. -/
theorem operandToken_isToken {o : Operand} {cs : List Char} (h : operandToken o = some cs) : IsToken o cs := by
  cases o with
  | reg f => exact registerName_isRegisterName h
  | imm8 v => cases h; exact toDigits_isNumeral (by decide) _
  | imm16 v => cases h; exact ⟨_, toDigits_isNumeral (by decide) _, rfl⟩
  | imm24 v => cases h; exact ⟨_, toDigits_isNumeral (by decide) _, rfl⟩

/-- An operand has a token exactly when it is no register out of range. -/
theorem operandToken_isSome {o : Operand} : (operandToken o).isSome = true ↔ ∀ r, o = .reg r → r.toNat ≤ 0x24 := by
  cases o <;> simp [operandToken, registerName_isSome, regFieldOk]

/-- A well-formed instruction is one whose register operands are all valid. -/
theorem wf_iff_regs {i : Instr} : i.wf = true ↔ ∀ r, Operand.reg r ∈ i.operands → r.toNat ≤ 0x24 := by
  cases i <;> simp [Instr.wf, Instr.operands, regFieldOk, and_assoc]

/-- A record is valid exactly when it is the record of a well-formed instruction. -/
theorem validInstr?_eq_some {d : Decoded} {i : Instr} : validInstr? d = some i ↔ i.wf = true ∧ d = i.record := by
  simp only [validInstr?, Option.filter_eq_some_iff, Bool.and_eq_true, decide_eq_true_iff]
  constructor
  · rintro ⟨-, h1, h2⟩; exact ⟨h1, h2.symm⟩
  · rintro ⟨h1, rfl⟩; exact ⟨Decoded.instr?_eq_some.2 ⟨rfl, rfl⟩, h1, rfl⟩

/-- A valid operand's slot carries it: 6 bits are enough for a register in range. -/
theorem slotOf_carries {o : Operand} (h : ∀ r, o = .reg r → r.toNat ≤ 0x24) : SlotCarries (slotOf o) o := by
  cases o with
  | reg r =>
    have := h r rfl
    simp only [SlotCarries, slotOf, BitVec.toNat_setWidth]
    omega
  | imm8 _ | imm16 _ | imm24 _ => rfl

end Sys2Proof.Machine
end

