-- ==== Sys2Proof/Laws/PerInstr.lean ====
section
/-! SUPPORT. Statements made per instruction. Family `RecordRoundTrip`: an instruction and its decoded-instruction record stand for
each other, the opcode map joins its opcode, mnemonic and format, and its canonical word holds its opcode in bits [31:24]
(10_state.md R29; 30_encoding.md R55, R56, R69, R76). -/

namespace Sys2Proof.Laws

/-- The instruction of an instruction's record is it; the opcode map at its opcode; the opcode field of its word. -/
def RecordRoundTrip.Statement (i : Instr) : Prop :=
  i.record.instr? = some i ∧ opcodeMap i.opcode = some (i.mnemonic, i.format) ∧ opcodeField (encode i) = i.opcode

/-- The three parts, from the one that needs the instruction's constructor. -/
theorem recordRoundTrip_intro {i : Instr} {a1 a2 a3 : Byte} (e : encode i = wordOf i.opcode a1 a2 a3) : RecordRoundTrip.Statement i := by
  refine ⟨?_, opcodeMap_opcode i, ?_⟩
  · exact Decoded.instr?_eq_some.2 ⟨rfl, rfl⟩
  · rw [e, wordOf, opcodeField_append]

theorem RecordRoundTrip.nop : RecordRoundTrip.Statement (.nop) := recordRoundTrip_intro rfl
theorem RecordRoundTrip.add (a : Byte) (b : Byte) (c : Byte) : RecordRoundTrip.Statement (.add a b c) := recordRoundTrip_intro rfl
theorem RecordRoundTrip.sub (a : Byte) (b : Byte) (c : Byte) : RecordRoundTrip.Statement (.sub a b c) := recordRoundTrip_intro rfl
theorem RecordRoundTrip.and (a : Byte) (b : Byte) (c : Byte) : RecordRoundTrip.Statement (.and a b c) := recordRoundTrip_intro rfl
theorem RecordRoundTrip.orr (a : Byte) (b : Byte) (c : Byte) : RecordRoundTrip.Statement (.orr a b c) := recordRoundTrip_intro rfl
theorem RecordRoundTrip.xor (a : Byte) (b : Byte) (c : Byte) : RecordRoundTrip.Statement (.xor a b c) := recordRoundTrip_intro rfl
theorem RecordRoundTrip.not (a : Byte) (b : Byte) : RecordRoundTrip.Statement (.not a b) := recordRoundTrip_intro rfl
theorem RecordRoundTrip.lsh (a : Byte) (b : Byte) (c : Byte) : RecordRoundTrip.Statement (.lsh a b c) := recordRoundTrip_intro rfl
theorem RecordRoundTrip.ash (a : Byte) (b : Byte) (c : Byte) : RecordRoundTrip.Statement (.ash a b c) := recordRoundTrip_intro rfl
theorem RecordRoundTrip.tcu (a : Byte) (b : Byte) (c : Byte) : RecordRoundTrip.Statement (.tcu a b c) := recordRoundTrip_intro rfl
theorem RecordRoundTrip.tcs (a : Byte) (b : Byte) (c : Byte) : RecordRoundTrip.Statement (.tcs a b c) := recordRoundTrip_intro rfl
theorem RecordRoundTrip.set (a : Byte) (v : BitVec 16) : RecordRoundTrip.Statement (.set a v) := recordRoundTrip_intro rfl
theorem RecordRoundTrip.mov (a : Byte) (b : Byte) : RecordRoundTrip.Statement (.mov a b) := recordRoundTrip_intro rfl
theorem RecordRoundTrip.ldw (a : Byte) (b : Byte) (v : Byte) : RecordRoundTrip.Statement (.ldw a b v) := recordRoundTrip_intro rfl
theorem RecordRoundTrip.stw (a : Byte) (b : Byte) (v : Byte) : RecordRoundTrip.Statement (.stw a b v) := recordRoundTrip_intro rfl
theorem RecordRoundTrip.ldb (a : Byte) (b : Byte) (v : Byte) : RecordRoundTrip.Statement (.ldb a b v) := recordRoundTrip_intro rfl
theorem RecordRoundTrip.stb (a : Byte) (b : Byte) (v : Byte) : RecordRoundTrip.Statement (.stb a b v) := recordRoundTrip_intro rfl
theorem RecordRoundTrip.jmi (v : BitVec 24) : RecordRoundTrip.Statement (.jmi v) := recordRoundTrip_intro rfl
theorem RecordRoundTrip.jmp (a : Byte) : RecordRoundTrip.Statement (.jmp a) := recordRoundTrip_intro rfl
theorem RecordRoundTrip.bve (a : Byte) (b : Byte) (v : Byte) : RecordRoundTrip.Statement (.bve a b v) := recordRoundTrip_intro rfl
theorem RecordRoundTrip.bvn (a : Byte) (b : Byte) (v : Byte) : RecordRoundTrip.Statement (.bvn a b v) := recordRoundTrip_intro rfl
theorem RecordRoundTrip.cal (a : Byte) : RecordRoundTrip.Statement (.cal a) := recordRoundTrip_intro rfl
theorem RecordRoundTrip.ret : RecordRoundTrip.Statement (.ret) := recordRoundTrip_intro rfl
theorem RecordRoundTrip.mul (a : Byte) (b : Byte) (c : Byte) : RecordRoundTrip.Statement (.mul a b c) := recordRoundTrip_intro rfl
theorem RecordRoundTrip.div (a : Byte) (b : Byte) (c : Byte) : RecordRoundTrip.Statement (.div a b c) := recordRoundTrip_intro rfl
theorem RecordRoundTrip.mod (a : Byte) (b : Byte) (c : Byte) : RecordRoundTrip.Statement (.mod a b c) := recordRoundTrip_intro rfl
theorem RecordRoundTrip.sia (a : Byte) (v : Byte) (w : Byte) : RecordRoundTrip.Statement (.sia a v w) := recordRoundTrip_intro rfl
theorem RecordRoundTrip.sup (a : Byte) (v : BitVec 16) : RecordRoundTrip.Statement (.sup a v) := recordRoundTrip_intro rfl
theorem RecordRoundTrip.sxt (a : Byte) (b : Byte) : RecordRoundTrip.Statement (.sxt a b) := recordRoundTrip_intro rfl
theorem RecordRoundTrip.seq (a : Byte) (b : Byte) (v : Byte) : RecordRoundTrip.Statement (.seq a b v) := recordRoundTrip_intro rfl
theorem RecordRoundTrip.int (v : BitVec 24) : RecordRoundTrip.Statement (.int v) := recordRoundTrip_intro rfl
theorem RecordRoundTrip.snd (a : Byte) (b : Byte) (c : Byte) : RecordRoundTrip.Statement (.snd a b c) := recordRoundTrip_intro rfl
theorem RecordRoundTrip.hlt : RecordRoundTrip.Statement (.hlt) := recordRoundTrip_intro rfl

end Sys2Proof.Laws
end

