-- ==== Sys2Proof/Tests/Slice0.lean ====
section
/-! SUPPORT. The model's own tests: well-formedness, decoding, one step of each instruction, and for each statement with hypotheses a
state and operands that meet them. Expected results are the spec's: 95_test_vectors.md (V<n>) and the examples of the rules. -/

namespace Sys2Proof.Tests

open Sys2Proof.Machine

/-! ### Helpers -/

/-- The machine of 95_test_vectors.md §4: at an address, the listed registers and bytes written and nothing else. -/
def start (pc : Word) (rs : List (RegId × Word)) (m : Memory) : State :=
  rs.foldl (fun s p => s.setReg p.1 p.2)
    { x := Vector.replicate 37 .unwritten, pc := pc, mem := m, temps := [], status := .running, labels := [], draws := 0 }

/-- The state after the one instruction a word decodes to. -/
def after (w : Word) (s : State) : State :=
  match decode w with
  | .ok i => s.settle (exec i s)
  | .error e => s.settle (.fault (.illegalInstruction e))

/-- A base at the last aligned word, and that word. -/
def lastWord : State := start 0 [(2, 0xFFFFFFFC)] [(0xFFFFFFFC, 4), (0xFFFFFFFD, 5), (0xFFFFFFFE, 6), (0xFFFFFFFF, 7)]

/-- The same base, and four bytes that wrap at the top of the address space. -/
def wrappingWord : State := start 0 [(2, 0xFFFFFFFC)] [(0, 4), (0xFFFFFFFD, 1), (0xFFFFFFFE, 2), (0xFFFFFFFF, 3)]

/-- `set r0 $1234` at an address from which it wraps. -/
def wrappingFetch : State := start 0xFFFFFFFE [] [(0, 0x00), (1, 0x0B), (0xFFFFFFFE, 0x34), (0xFFFFFFFF, 0x12)]

/-- A container's header (20_memory.md R45): the magic, version 1, entry_offset 4, code_size 2, data_size 1. -/
def rgvmFile : List Byte :=
  [0x52, 0x47, 0x56, 0x4D, 1, 0, 0, 0, 4, 0, 0, 0, 2, 0, 0, 0, 1, 0, 0, 0, 0, 0, 0, 0]

/-! ### Well-formedness: each register check refuses 0x25 and admits 0x24 -/

theorem test_wf_refuses_first_register :
    ([.jmp 0x25, .cal 0x25, .set 0x25 0, .sup 0x25 0, .sia 0x25 0 0, .not 0x25 0, .mov 0x25 0, .sxt 0x25 0, .ldw 0x25 0 0,
      .stw 0x25 0 0, .ldb 0x25 0 0, .stb 0x25 0 0, .bve 0x25 0 0, .bvn 0x25 0 0, .seq 0x25 0 0, .add 0x25 0 0, .sub 0x25 0 0,
      .and 0x25 0 0, .orr 0x25 0 0, .xor 0x25 0 0, .lsh 0x25 0 0, .ash 0x25 0 0, .tcu 0x25 0 0, .tcs 0x25 0 0, .mul 0x25 0 0,
      .div 0x25 0 0, .mod 0x25 0 0, .snd 0xFF 0 0] : List Instr).all (fun i => !i.wf) = true := by decide

theorem test_wf_refuses_second_register :
    ([.not 0 0x25, .mov 0 0x25, .sxt 0 0x25, .ldw 0 0x25 0, .stw 0 0x25 0, .ldb 0 0x25 0, .stb 0 0x25 0, .bve 0 0x25 0,
      .bvn 0 0x25 0, .seq 0 0x25 0, .add 0 0x25 0, .sub 0 0x25 0, .and 0 0x25 0, .orr 0 0x25 0, .xor 0 0x25 0, .lsh 0 0x25 0,
      .ash 0 0x25 0, .tcu 0 0x25 0, .tcs 0 0x25 0, .mul 0 0x25 0, .div 0 0x25 0, .mod 0 0x25 0, .snd 0 0xFF 0]
      : List Instr).all (fun i => !i.wf) = true := by decide

theorem test_wf_refuses_third_register :
    ([.add 0 0 0x25, .sub 0 0 0x25, .and 0 0 0x25, .orr 0 0 0x25, .xor 0 0 0x25, .lsh 0 0 0x25, .ash 0 0 0x25, .tcu 0 0 0x25,
      .tcs 0 0 0x25, .mul 0 0 0x25, .div 0 0 0x25, .mod 0 0 0x25, .snd 0 0 0xFF] : List Instr).all (fun i => !i.wf) = true := by
  decide

theorem test_wf_admits_last_register_and_any_immediate :
    ([.nop, .ret, .hlt, .jmi 0xFFFFFF, .int 0xFFFFFF, .jmp 0x24, .set 0x24 0xFFFF, .sia 0x24 0xFF 0xFF, .not 0x24 0x24,
      .ldw 0x24 0x24 0xFF, .add 0x24 0x24 0x24] : List Instr).all (fun i => i.wf) = true := by decide

/-! ### Decoding: a word for every constructor, from its rule's encoding -/

/-- V24 -/
theorem test_decode_nop : decode 0x00ABCDEF = .ok (.nop) := by decide
/-- V1 -/
theorem test_decode_add : decode 0x01020300 = .ok (.add 2 3 0) := by decide
/-- R102 -/
theorem test_decode_sub : decode 0x02010203 = .ok (.sub 1 2 3) := by decide
/-- R106 -/
theorem test_decode_and : decode 0x03010203 = .ok (.and 1 2 3) := by decide
/-- R107 -/
theorem test_decode_orr : decode 0x04010203 = .ok (.orr 1 2 3) := by decide
/-- V37 -/
theorem test_decode_xor : decode 0x05010203 = .ok (.xor 1 2 3) := by decide
/-- V22 -/
theorem test_decode_not : decode 0x06010299 = .ok (.not 1 2) := by decide
/-- R110 -/
theorem test_decode_lsh : decode 0x07010203 = .ok (.lsh 1 2 3) := by decide
/-- R111 -/
theorem test_decode_ash : decode 0x08010203 = .ok (.ash 1 2 3) := by decide
/-- R127 -/
theorem test_decode_tcu : decode 0x09010203 = .ok (.tcu 1 2 3) := by decide
/-- R128 -/
theorem test_decode_tcs : decode 0x0A010203 = .ok (.tcs 1 2 3) := by decide
/-- V2 -/
theorem test_decode_set : decode 0x0B000100 = .ok (.set 0 0x0100) := by decide
/-- V29 -/
theorem test_decode_mov : decode 0x0C1F2400 = .ok (.mov 0x1F 0x24) := by decide
/-- V27 -/
theorem test_decode_ldw : decode 0x0D0102FF = .ok (.ldw 1 2 0xFF) := by decide
/-- V31 -/
theorem test_decode_stw : decode 0x0E010200 = .ok (.stw 1 2 0) := by decide
/-- R119 -/
theorem test_decode_ldb : decode 0x0F010201 = .ok (.ldb 1 2 1) := by decide
/-- R120 -/
theorem test_decode_stb : decode 0x10010203 = .ok (.stb 1 2 3) := by decide
/-- R121 -/
theorem test_decode_jmi : decode 0x20ABCDEF = .ok (.jmi 0xABCDEF) := by decide
/-- V23 -/
theorem test_decode_jmp : decode 0x2101FFFF = .ok (.jmp 1) := by decide
/-- V31 -/
theorem test_decode_bve : decode 0x24010200 = .ok (.bve 1 2 0) := by decide
/-- R124 -/
theorem test_decode_bvn : decode 0x25010200 = .ok (.bvn 1 2 0) := by decide
/-- R125 -/
theorem test_decode_cal : decode 0x2A010000 = .ok (.cal 1) := by decide
/-- V24 -/
theorem test_decode_ret : decode 0x2B123456 = .ok (.ret) := by decide
/-- R103 -/
theorem test_decode_mul : decode 0x30010203 = .ok (.mul 1 2 3) := by decide
/-- R104 -/
theorem test_decode_div : decode 0x31010203 = .ok (.div 1 2 3) := by decide
/-- R105 -/
theorem test_decode_mod : decode 0x32010203 = .ok (.mod 1 2 3) := by decide
/-- R130 -/
theorem test_decode_sia : decode 0x4001FFFE = .ok (.sia 1 0xFF 0xFE) := by decide
/-- R114 -/
theorem test_decode_sup : decode 0x4101ABCD = .ok (.sup 1 0xABCD) := by decide
/-- R115 -/
theorem test_decode_sxt : decode 0x42010200 = .ok (.sxt 1 2) := by decide
/-- R129 -/
theorem test_decode_seq : decode 0x43010205 = .ok (.seq 1 2 5) := by decide
/-- R133 -/
theorem test_decode_int : decode 0xF000002A = .ok (.int 0x2A) := by decide
/-- R134 -/
theorem test_decode_snd : decode 0xFD010203 = .ok (.snd 1 2 3) := by decide
/-- V24 -/
theorem test_decode_hlt : decode 0xFFFFFFFF = .ok (.hlt) := by decide

/-- V4, V32, V33: an unmapped opcode byte, whatever the fields hold. -/
theorem test_decode_unknown_opcode :
    ([0x99000000, 0x99252525, 0x11000000, 0x26000000, 0x44000000, 0xF1000000, 0xFE000000] : List Word).all
      (fun w => decide (decode w = .error .unknownOpcode)) = true := by decide

/-- V8, V26, V34: a register field above 0x24. -/
theorem test_decode_invalid_register :
    ([0x01250300, 0x010225FF, 0x0B25FFFF, 0x21FF0000, 0x40250000, 0x0D0126FF, 0x0C0180FF, 0x40FF0000, 0x01252526] : List Word).all
      (fun w => decide (decode w = .error .invalidRegisterField)) = true := by decide

/-- V35 to V38: the bytes port at offsets 0, 4, 1 and 5. -/
theorem test_decode_bytes :
    decodeBytes [0x00, 0x03, 0x02, 0x01, 0x05, 0x00, 0x01, 0x0B] 0 = .ok (.add 2 3 0) ∧
    decodeBytes [0x00, 0x03, 0x02, 0x01, 0x05, 0x00, 0x01, 0x0B] 4 = .ok (.set 1 5) ∧
    decodeBytes [0x00, 0x03, 0x02, 0x01, 0x05, 0x00, 0x01, 0x0B] 1 = .ok (.xor 1 2 3) ∧
    decodeBytes [0x00, 0x03, 0x02, 0x01, 0x05, 0x00, 0x01, 0x0B] 5 = .error .truncatedInput := by decide

/-- V20 and V36 as the table numbers their bits. -/
theorem test_decode_table_word :
    decodeTableWord 32 0x01242424 = some (.add 0x24 0x24 0x24) ∧ decodeTableWord 32 0x0B010005 = some (.set 1 5) := by decide

/-- V6: the encoder. -/
theorem test_encode : encode (.add 0x24 0x00 0x1F) = 0x0124001F ∧ encode (.jmi 0xABCDEF) = 0x20ABCDEF := by decide

/-! ### The formatter and the lifter -/

/-- V1, V21, V25: `add r2 r3 r0`, `set sp $ffff`, `sia r1 255 255`. -/
theorem test_format :
    instrTokens (.add 2 3 0) = some [['a', 'd', 'd'], ['r', '2'], ['r', '3'], ['r', '0']] ∧
    instrTokens (.set 0x24 0xFFFF) = some [['s', 'e', 't'], ['s', 'p'], ['$', 'f', 'f', 'f', 'f']] ∧
    instrTokens (.sia 1 0xFF 0xFF) = some [['s', 'i', 'a'], ['r', '1'], ['2', '5', '5'], ['2', '5', '5']] := by decide

/-- V5: BVE's two edges and its sequence, at address 0x10. -/
theorem test_lift_bve : lift (.bve 1 2 0) 0x10 none =
    ⟨[.branch (.cmp .e (.reg 2) (.const 0)) labelT labelF, .label labelT, .jump (.reg 1), .label labelF],
      [.trueIndirect, .falseTo 0x14]⟩ := by decide

/-- V60: the fall-through edge wraps. -/
theorem test_lift_bvn_wraps : (lift (.bvn 1 2 0) 0xFFFFFFFC none).edges = [.trueIndirect, .falseTo 0] := by decide

/-- V57, V58: JMI's two sequences. -/
theorem test_lift_jmi :
    lift (.jmi 0x100) 0x40 (some ⟨7, 0x100⟩) = ⟨[.goto (.host ⟨7, 0x100⟩)], [.unconditional 0x100]⟩ ∧
    lift (.jmi 0x100) 0x40 none = ⟨[.jump (.constPtr 0x100)], [.unconditional 0x100]⟩ := by decide

/-- V68, V69: the fallback for a wrong arity and for a register out of range. -/
theorem test_lift_fallback :
    liftRecord ⟨0x01, .regRegReg, .add, [.reg 1, .reg 2]⟩ 0 (fun _ => none) = ⟨[.unimplemented], []⟩ ∧
    liftRecord ⟨0x0C, .regReg, .mov, [.reg 1, .reg 0x30]⟩ 0 (fun _ => none) = ⟨[.unimplemented], []⟩ := by decide

/-! ### One step of each instruction -/

/-- V71 -/
theorem test_add_wraps :
    (after 0x01010203 (start 0x100 [(2, 0xFFFFFFFF), (3, 1)] [])).reg 1 = .value 0 ∧
    (after 0x01010203 (start 0x100 [(2, 0xFFFFFFFF), (3, 1)] [])).pc = 0x104 := by decide

/-- V72 -/
theorem test_add_destination_is_source :
    (after 0x01010102 (start 0x100 [(1, 3), (2, 4)] [])).reg 1 = .value 7 := by decide

/-- V73 -/
theorem test_sub_wraps :
    (after 0x02010203 (start 0x100 [(2, 0), (3, 1)] [])).reg 1 = .value 0xFFFFFFFF := by decide

/-- V74 -/
theorem test_mul_low_half :
    (after 0x30010203 (start 0x100 [(2, 0xFFFFFFFF), (3, 0xFFFFFFFF)] [])).reg 1 = .value 1 := by decide

/-- V76 -/
theorem test_div_is_unsigned :
    (after 0x31010203 (start 0x100 [(2, 0xFFFFFFFF), (3, 2)] [])).reg 1 = .value 0x7FFFFFFF := by decide

/-- V77 -/
theorem test_div_by_zero :
    after 0x31010203 (start 0x100 [(1, 9), (2, 7), (3, 0)] []) =
      (start 0x100 [(1, 9), (2, 7), (3, 0)] []).setStatus (.fault .divideByZero) := by decide

/-- V78 -/
theorem test_mod :
    (after 0x32010203 (start 0x100 [(2, 0xFFFFFFFF), (3, 10)] [])).reg 1 = .value 5 := by decide

/-- V80 -/
theorem test_and_orr_xor :
    (after 0x03010203 (start 0x100 [(2, 0xFF00FF00), (3, 0x0FF00FF0)] [])).reg 1 = .value 0x0F000F00 ∧
    (after 0x04010203 (start 0x100 [(2, 0xFF00FF00), (3, 0x0FF00FF0)] [])).reg 1 = .value 0xFFF0FFF0 ∧
    (after 0x05010203 (start 0x100 [(2, 0xFF00FF00), (3, 0x0FF00FF0)] [])).reg 1 = .value 0xF0F0F0F0 := by decide

/-- V81 -/
theorem test_xor_unwritten :
    (after 0x05010202 (start 0x100 [] [])).status = .fault (.unwrittenRead (.reg 2)) := by decide

/-- V82 -/
theorem test_not :
    (after 0x06010200 (start 0x100 [(2, 0)] [])).reg 1 = .value 0xFFFFFFFF := by decide

/-- V83 -/
theorem test_add_pc_operand :
    (after 0x01012003 (start 0x100 [(3, 1)] [])).status = .refused .pcOperand := by decide

/-- V87 -/
theorem test_lsh_right :
    (after 0x07010203 (start 0x100 [(2, 0x80000000), (3, 0xFFFFFFE1)] [])).reg 1 = .value 1 := by decide

/-- V85 -/
theorem test_lsh_left_31 :
    (after 0x07010203 (start 0x100 [(2, 1), (3, 31)] [])).reg 1 = .value 0x80000000 := by decide

/-- V91 -/
theorem test_ash_right_fills_sign :
    (after 0x08010203 (start 0x100 [(2, 0x80000000), (3, 0xFFFFFFFF)] [])).reg 1 = .value 0xC0000000 := by decide

/-- V93 -/
theorem test_ash_left :
    (after 0x08010203 (start 0x100 [(2, 0x80000000), (3, 1)] [])).reg 1 = .value 0 := by decide

/-- V88: any word results, here the free value, and the count of draws goes up. -/
theorem test_lsh_oversize :
    (after 0x07010203 (start 0x100 [(2, 1), (3, 32)] [])).reg 1 = .value (Config.shiftOversize .shl 1 32 0) ∧
    (after 0x07010203 (start 0x100 [(2, 1), (3, 32)] [])).draws = 1 := by exact ⟨rfl, rfl⟩

/-- V95 -/
theorem test_set :
    (after 0x0B01FFFF (start 0x100 [] [])).reg 1 = .value 0xFFFF := by decide

/-- R113: the copy, of the link register -/
theorem test_mov :
    (after 0x0C012100 (start 0x100 [(lrReg, 0x1234)] [])).reg 1 = .value 0x1234 := by decide

/-- V96 -/
theorem test_sup_keeps_low_half :
    (after 0x4101ABCD (start 0x100 [(1, 0x12345678)] [])).reg 1 = .value 0xABCD5678 := by decide

/-- V98 -/
theorem test_sup_unwritten :
    (after 0x4101ABCD (start 0x100 [] [])).status = .fault (.unwrittenRead (.reg 1)) := by decide

/-- V99 -/
theorem test_sxt :
    (after 0x42010200 (start 0x100 [(2, 0x8000)] [])).reg 1 = .value 0xFFFF8000 ∧
    (after 0x42010200 (start 0x100 [(2, 0xFFFF7FFF)] [])).reg 1 = .value 0x7FFF := by decide

/-- V102 -/
theorem test_ldw :
    (after 0x0D010204 (start 0x100 [(2, 0x100)] [(0x104, 0x78), (0x105, 0x56), (0x106, 0x34), (0x107, 0x12)])).reg 1 =
      .value 0x12345678 := by decide

/-- V103: both settings of LS_OFFSET_SIGNED -/
theorem test_ldw_offset_sign :
    exec (.ldw 1 2 0xFC) (start 0x100 [(2, 0x100)]
      [(0xFC, 0x11), (0xFD, 0x22), (0xFE, 0x33), (0xFF, 0x44), (0x1FC, 0x55), (0x1FD, 0x66), (0x1FE, 0x77), (0x1FF, 0x88)]) =
    .next (((start 0x100 [(2, 0x100)]
      [(0xFC, 0x11), (0xFD, 0x22), (0xFE, 0x33), (0xFF, 0x44), (0x1FC, 0x55), (0x1FD, 0x66), (0x1FE, 0x77), (0x1FF, 0x88)]).setReg 1
        (if Config.lsOffsetSigned then 0x44332211 else 0x88776655)).setPc 0x104) := by
  simp only [exec, execLdw, loadOp, effAddr, offset32]
  cases Config.lsOffsetSigned <;> rfl

/-- V106 -/
theorem test_stw :
    (after 0x0E010200 (start 0x100 [(1, 0xAABBCCDD), (2, 0x200)] [])).mem =
      [(0x200, 0xDD), (0x201, 0xCC), (0x202, 0xBB), (0x203, 0xAA)] := by decide

/-- V107: both settings of MISALIGNED_POLICY -/
theorem test_stw_misaligned_wraps :
    after 0x0E010201 (start 0x100 [(1, 0xAABBCCDD), (2, 0xFFFFFFFE)] []) =
    match Config.misalignedPolicy with
    | .bytewise => ((start 0x100 [(1, 0xAABBCCDD), (2, 0xFFFFFFFE)] []).setMem
        [(0, 0xCC), (1, 0xBB), (2, 0xAA), (0xFFFFFFFF, 0xDD)]).setPc 0x104
    | .fault => (start 0x100 [(1, 0xAABBCCDD), (2, 0xFFFFFFFE)] []).setStatus (.fault (.misalignedAccess 0xFFFFFFFF)) := by
  have h : after 0x0E010201 (start 0x100 [(1, 0xAABBCCDD), (2, 0xFFFFFFFE)] []) =
      (start 0x100 [(1, 0xAABBCCDD), (2, 0xFFFFFFFE)] []).settle
        (exec (.stw 1 2 1) (start 0x100 [(1, 0xAABBCCDD), (2, 0xFFFFFFFE)] [])) := rfl
  rw [h]
  simp only [exec, execStw, storeOp, writeWord, wordAccess]
  cases Config.misalignedPolicy <;> rfl

/-- V108 -/
theorem test_ldb_zero_extends :
    (after 0x0F010201 (start 0x100 [(2, 0x200)] [(0x201, 0xCC)])).reg 1 = .value 0xCC := by decide

/-- R32 -/
theorem test_ldb_unwritten_byte :
    (after 0x0F010201 (start 0x100 [(2, 0x200)] [])).status = .fault (.unwrittenRead (.mem 0x201)) := by decide

/-- V109 -/
theorem test_stb :
    (after 0x10010203 (start 0x100 [(1, 0x12345678), (2, 0x200)] [(0x200, 0), (0x201, 0), (0x202, 0), (0x203, 0)])).mem =
    [(0x200, 0), (0x201, 0), (0x202, 0), (0x203, 0x78)] := by decide

/-- V123, and the label it creates -/
theorem test_jmi :
    (after 0x20FFFFFF (start 0x40 [] [])).pc = 0x00FFFFFF ∧
    (after 0x20FFFFFF (start 0x40 [] [])).labels = [0x00FFFFFF] := by decide

/-- V124 -/
theorem test_jmp :
    (after 0x21010000 (start 0x44 [(1, 0x40)] [])).pc = 0x40 := by decide

/-- V126 -/
theorem test_bve_taken :
    (after 0x24010200 (start 0x10 [(1, 0x80), (2, 0)] [])).pc = 0x80 := by decide

/-- V128 -/
theorem test_bve_zero_extends :
    (after 0x240102FF (start 0x10 [(1, 0x80), (2, 0xFFFFFFFF)] [])).pc = 0x14 := by decide

/-- V131 -/
theorem test_bvn :
    (after 0x25010200 (start 0x10 [(1, 0x80), (2, 1)] [])).pc = 0x80 ∧
    (after 0x25010200 (start 0x10 [(1, 0x80), (2, 0)] [])).pc = 0x14 := by decide

/-- V132 -/
theorem test_cal :
    (after 0x2A010000 (start 0x20 [(1, 0x100)] [])).pc = 0x100 ∧
    (after 0x2A010000 (start 0x20 [(1, 0x100)] [])).reg lrReg = .value 0x24 := by decide

/-- V133 -/
theorem test_cal_lr :
    (after 0x2A210000 (start 0x40 [(lrReg, 0x80)] [])).pc = 0x80 ∧
    (after 0x2A210000 (start 0x40 [(lrReg, 0x80)] [])).reg lrReg = .value 0x44 := by decide

/-- V100 -/
theorem test_ret :
    (after 0x2B000000 (start 0x30 [(lrReg, 0x24)] [])).pc = 0x24 ∧
    (after 0x2B000000 (start 0x30 [(lrReg, 0x24)] [])).reg lrReg = .value 0 := by decide

/-- V110, V113 -/
theorem test_tcu :
    (after 0x09010203 (start 0x100 [(2, 1), (3, 2)] [])).reg 1 = .value 0xFFFFFFFF ∧
    (after 0x09010203 (start 0x100 [(2, 0xFFFFFFFF), (3, 1)] [])).reg 1 = .value 1 := by decide

/-- V117, V119 -/
theorem test_tcs :
    (after 0x0A010203 (start 0x100 [(2, 0xFFFFFFFF), (3, 1)] [])).reg 1 = .value 0xFFFFFFFF ∧
    (after 0x0A010203 (start 0x100 [(2, 0x7FFFFFFF), (3, 0x80000000)] [])).reg 1 = .value 1 := by decide

/-- V135 -/
theorem test_seq :
    (after 0x430102FF (start 0x100 [(2, 0xFFFFFFFF)] [])).reg 1 = .value 0 ∧
    (after 0x430102FF (start 0x100 [(2, 0xFF)] [])).reg 1 = .value 1 := by decide

/-- V136, V137 -/
theorem test_sia :
    (after 0x40010304 (start 0x100 [(1, 0x100)] [])).reg 1 = .value 0x130 ∧
    (after 0x4001FF1C (start 0x100 [(1, 0)] [])).reg 1 = .value 0xF0000000 := by decide

/-- V139: 0 plus any word -/
theorem test_sia_oversize :
    (after 0x40010120 (start 0x100 [(1, 0)] [])).reg 1 = .value (0 + Config.shiftOversize .shl 1 32 0) := by rfl

/-- V140 -/
theorem test_nop :
    after 0x00000000 (start 8 [] []) = start 0xC [] [] := by decide

/-- V141 -/
theorem test_hlt :
    after 0xFF000000 (start 8 [] []) = (start 8 [] []).setStatus .halted := by decide

/-- V142 -/
theorem test_int :
    after 0xF0FFFFFF (start 8 [] []) = (start 0xC [] []).setStatus (.syscall 0xFFFFFF) := by decide

/-- V143 -/
theorem test_snd :
    after 0xFD010203 (start 0x100 [] []) = (start 0x100 [] []).setStatus (.refused (.unmodelled 0xFD)) := by decide

/-- V144 -/
theorem test_step_illegal :
    step (start 0 [] [(0, 0x00), (1, 0x00), (2, 0x00), (3, 0x99)]) = .fault (.illegalInstruction .unknownOpcode) := by rfl

/-- The fetch word runs as the first instruction after reset. -/
theorem test_fetch_word_from_reset :
    step (State.reset.withFetchWord 32 0x0B010005) =
    .next (((State.reset.withFetchWord 32 0x0B010005).setReg 1 5).setPc 4) := by rfl

/-! ### Witnesses: for each statement with hypotheses, a state and operands that meet them, clause by clause -/

/-- R26: a register in 6 bits, an immediate as it is, and an empty slot -/
theorem test_port_slots :
    decodePort 0x41241234 = .ok 0x41 3 .sup 2 (some (.reg 0x24)) (some (.imm16 0x1234)) none := by decide

/-- R80: an 8-bit immediate in decimal -/
theorem test_text_decimal :
    formatText (some (Instr.sia 0x24 0 255).record) = "sia sp 0 255".toList := by decide

/-- A well-formed instruction at the top of the register range. -/
theorem witness_EncodeThenDecodeReturnsInstr :
    (Instr.add 0x24 0x00 0x1F).wf = true := by decide

/-- A word that decodes. -/
theorem witness_DecodedInstrIsWellFormed :
    decode 0x0124001F = .ok (.add 0x24 0x00 0x1F) := by decide

/-- Both ends of a listed range, and a mapped neighbour. -/
theorem witness_UnknownOpcodeExactlyUnmapped :
    unmappedByte (opcodeField 0x11000000).toNat ∧ unmappedByte (opcodeField 0x1FFFFFFF).toNat ∧ ¬ unmappedByte (opcodeField 0x20000000).toNat := by
  unfold unmappedByte; decide

/-- A word that decodes, and one that does not. -/
theorem witness_DecodeRecordIsRecordOfDecode :
    decode 0x0B24FFFF = .ok (.set 0x24 0xFFFF) ∧ decode 0x0B25FFFF = .error .invalidRegisterField := by decide

/-- A member of each list of opcodes. -/
theorem witness_IgnoredFieldsDoNotMatter :
    (0x2B : Byte) ∈ [(0x00 : Byte), 0x2B, 0xFF] ∧ (0x2A : Byte) ∈ [(0x21 : Byte), 0x2A] ∧ (0x42 : Byte) ∈ [(0x06 : Byte), 0x0C, 0x42] := by decide

/-- An offset past the end, one that leaves 3 bytes, an unmapped opcode, and a register field 0x25. -/
theorem witness_BytesPortReadsLittleEndianWord :
    ((List.replicate 8 (0 : Byte)).length < 9) ∧ ((List.replicate 8 (0 : Byte)).length - 5 < 4) ∧ opcodeMap 0x99 = none ∧
    opcodeMap 0x0D = some (.ldw, .regRegImm8) ∧ Operand.reg 0x25 ∈ Format.regRegImm8.operands 1 0x25 0 ∧ 0x24 < (0x25 : Byte).toNat := by decide

/-- A well-formed instruction; and records of no valid instruction: the wrong arity, a register out of range, and a format that is not
the opcode's. -/
theorem witness_FormatterText :
    (Instr.mov 0x24 0).wf = true ∧ ∀ d ∈ [(⟨0x01, .regRegReg, .add, [.reg 1, .reg 2]⟩ : Decoded), ⟨0x0C, .regReg, .mov, [.reg 1, .reg 0x25]⟩,
      ⟨0x01, .reg, .add, [.reg 1, .reg 2, .reg 3]⟩], ∀ i : Instr, i.wf = true → d ≠ i.record := by
  refine ⟨by decide, ?_⟩
  intro d hd i hi h
  have hv := validInstr?_eq_some.2 ⟨hi, h⟩
  simp only [List.mem_cons, List.not_mem_nil, or_false] at hd
  rcases hd with rfl | rfl | rfl <;> revert hv <;> rw [show validInstr? _ = none by decide] <;> exact nofun

/-- R83: the arm is the record's opcode's (ADD), whatever its mnemonic and format fields hold -/
theorem test_lift_follows_opcode :
    liftRecord ⟨0x01, .reg, .sub, [.reg 1, .reg 2, .reg 3]⟩ 0 (fun _ => none) =
      ⟨[.setReg 1 (.bin .add (.reg 2) (.reg 3))], []⟩ ∧
    liftRecord ⟨0x01, .regRegReg, .add, [.reg 1, .reg 2]⟩ 0 (fun _ => none) = fallbackLift := by decide

/-- A state between two instructions: the state after reset. -/
theorem witness_LiftedEvaluationIsExec :
    State.reset.temps = [] := by decide

/-- A running state in which an evaluation faults, and one in which it refuses. -/
theorem witness_LiftedStopHasNoEffect :
    (start 0 [(2, 7), (3, 0)] []).temps = [] ∧ (start 0 [(2, 7), (3, 0)] []).status = .running ∧
    (evalLifted (.div 1 2 3) (start 0 [(2, 7), (3, 0)] [])).status = .fault .divideByZero ∧
    (evalLifted (.snd 1 2 3) (start 0 [(2, 7), (3, 0)] [])).status = .refused (.unmodelled 0xFD) := by decide

/-- A word whose record the decoder returns: SND, and another. -/
theorem witness_FallbackExactly :
    decodeRecord 0xFD010203 = .ok (Instr.snd 1 2 3).record ∧ decodeRecord 0x01242424 = .ok (Instr.add 0x24 0x24 0x24).record ∧
    IrOp.unimplemented ∈ (liftRecord (Instr.snd 1 2 3).record 0 (fun _ => none)).ops ∧
    (Instr.add 1 2 3).opcode = (⟨0x01, .reg, .sub, [.reg 1, .reg 2, .reg 3]⟩ : Decoded).opcode ∧
    (Instr.add 1 2 3).operands = (⟨0x01, .reg, .sub, [.reg 1, .reg 2, .reg 3]⟩ : Decoded).operands := by decide

/-- JMI asks, and a handle names its target. -/
theorem witness_LabelAnswerDoesNotChangeMeaning :
    labelRequest (.jmi 0xFFFFFF) = some 0x00FFFFFF ∧ (⟨7, 0x00FFFFFF⟩ : HostLabel).addr = 0x00FFFFFF := by decide

/-- An address that has a label, and another address. -/
theorem witness_LabelRequestReusesHandle :
    (0x100 : Word) ∈ (State.reset.setLabels [0x100]).labels ∧ (0x100 : Word) ≠ 0x104 := by decide

/-- Two written sources, the destination being one of them. -/
theorem witness_AddSubMulRules :
    (0x24 : RegId) ≠ pcReg ∧ (0x1F : RegId) ≠ pcReg ∧ (start 0 [(0x24, 5), (0x1F, 0xFFFFFFFF)] []).reg 0x24 = .value 5 ∧
    (start 0 [(0x24, 5), (0x1F, 0xFFFFFFFF)] []).reg 0x1F = .value 0xFFFFFFFF := by decide

/-- A divisor 1 and a divisor 0. -/
theorem witness_DivModRules :
    (1 : RegId) ≠ pcReg ∧ (2 : RegId) ≠ pcReg ∧ (3 : RegId) ≠ pcReg ∧ (start 0 [(2, 7), (3, 1)] []).reg 2 = .value 7 ∧
    (start 0 [(2, 7), (3, 1)] []).reg 3 = .value 1 ∧ (1 : Word) ≠ 0 ∧ (start 0 [(2, 7), (3, 0)] []).reg 2 = .value 7 ∧
    (start 0 [(2, 7), (3, 0)] []).reg 3 = .value 0 := by decide

/-- A written source, the destination being it. -/
theorem witness_NotRule :
    (0x24 : RegId) ≠ pcReg ∧ (start 0 [(0x24, 0x8000)] []).reg 0x24 = .value 0x8000 := by decide

/-- Counts at each boundary: 0, 31, 32, -1, -31, -32 and the least one. -/
theorem witness_ShiftRules :
    (1 : RegId) ≠ pcReg ∧ (start 0 [(2, 1), (3, 31)] []).reg 2 = .value 1 ∧ (start 0 [(2, 1), (3, 31)] []).reg 3 = .value 31 ∧
    (0 : Word).toInt = 0 ∧ (31 : Word).toInt < 32 ∧ ¬ (32 : Word).toInt < 32 ∧ ¬ 0 ≤ (0xFFFFFFFF : Word).toInt ∧
    -32 < (0xFFFFFFE1 : Word).toInt ∧ ¬ -32 < (0xFFFFFFE0 : Word).toInt ∧ ¬ -32 < (0x80000000 : Word).toInt := by decide

/-- For two sources: the first unwritten, the second unwritten, then pc as destination, as first and as second
source with the rest written; for DIV and MOD, a divisor that is not 0. -/
theorem witness_ArithmeticOperandStops :
    (start 0 [(3, 1)] []).reg 2 = .unwritten ∧ (start 0 [(2, 1)] []).reg 3 = .unwritten ∧ (0x20 : RegId) = pcReg ∧
    (start 0 [(2, 1), (3, 1)] []).reg 2 ≠ .unwritten ∧ (start 0 [(2, 1), (3, 1)] []).reg 3 ≠ .unwritten ∧
    (start 0 [(2, 1), (3, 1)] []).reg 3 ≠ .value 0 ∧ (1 : RegId) ≠ pcReg ∧ (2 : RegId) ≠ pcReg ∧ (3 : RegId) ≠ pcReg := by decide

/-- For one source: it is unwritten; then pc as destination with the source written, and pc as source. -/
theorem witness_ArithmeticOperandStops_one :
    (start 0 [] []).reg 2 = .unwritten ∧ (2 : RegId) ≠ pcReg ∧ (0x20 : RegId) = pcReg ∧ (start 0 [(2, 1)] []).reg 2 ≠ .unwritten := by decide

/-- A register, and pc. -/
theorem witness_SetRule :
    (0x24 : RegId) ≠ pcReg ∧ (0x20 : RegId) = pcReg := by decide

/-- rA written, rA unwritten, and pc. -/
theorem witness_SupRule :
    (0x21 : RegId) ≠ pcReg ∧ (start 0 [(0x21, 0xFFFFFFFF)] []).reg 0x21 = .value 0xFFFFFFFF ∧ (start 0 [] []).reg 0x21 = .unwritten ∧
    (0x20 : RegId) = pcReg := by decide

/-- The two sides of offset 0x80. -/
theorem witness_EffectiveAddressRule :
    (0x7F : Byte).toNat < 0x80 ∧ 0x80 ≤ (0x80 : Byte).toNat := by decide

/-- The last aligned word of the address space, and pc as the destination. -/
theorem witness_LdwRule :
    (1 : RegId) ≠ pcReg ∧ (2 : RegId) ≠ pcReg ∧ (0x20 : RegId) = pcReg ∧ lastWord.reg 2 = .value 0xFFFFFFFC ∧
    (effAddr 0xFFFFFFFC 0).toNat % 4 = 0 ∧ lastWord.mem.read (effAddr 0xFFFFFFFC 0).toNat = some 4 ∧
    lastWord.mem.read (effAddr 0xFFFFFFFC 0 + 1).toNat = some 5 ∧ lastWord.mem.read (effAddr 0xFFFFFFFC 0 + 2).toNat = some 6 ∧
    lastWord.mem.read (effAddr 0xFFFFFFFC 0 + 3).toNat = some 7 := by decide

/-- A misaligned word that wraps at the top of the address space. -/
theorem witness_LdwRule_misaligned :
    (1 : RegId) ≠ pcReg ∧ (2 : RegId) ≠ pcReg ∧ wrappingWord.reg 2 = .value 0xFFFFFFFC ∧ (effAddr 0xFFFFFFFC 1).toNat % 4 ≠ 0 ∧
    wrappingWord.mem.read (effAddr 0xFFFFFFFC 1).toNat = some 1 ∧ wrappingWord.mem.read (effAddr 0xFFFFFFFC 1 + 1).toNat = some 2 ∧
    wrappingWord.mem.read (effAddr 0xFFFFFFFC 1 + 2).toNat = some 3 ∧ wrappingWord.mem.read (effAddr 0xFFFFFFFC 1 + 3).toNat = some 4 := by decide

/-- At offset 0x80 the effective address is one of two, and both lie in written memory. -/
theorem witness_LdwRule_offset :
    
    ∃ b, Memory.read [(0x80, 1), (0x180, 2)] (effAddr 0x100 0x80).toNat = some b := by
  simp only [effAddr, offset32]
  cases Config.lsOffsetSigned
  · exact ⟨2, by decide⟩
  · exact ⟨1, by decide⟩

/-- Base and data written: an aligned address, then a misaligned one at the top of the address space. -/
theorem witness_StwRule :
    (1 : RegId) ≠ pcReg ∧ (2 : RegId) ≠ pcReg ∧ (start 0 [(1, 0xAABBCCDD), (2, 0xFFFFFFFC)] []).reg 2 = .value 0xFFFFFFFC ∧
    (start 0 [(1, 0xAABBCCDD), (2, 0xFFFFFFFC)] []).reg 1 = .value 0xAABBCCDD ∧ (effAddr 0xFFFFFFFC 0).toNat % 4 = 0 ∧
    (effAddr 0xFFFFFFFC 3).toNat % 4 ≠ 0 := by decide

/-- A written byte at the last address, and pc as the destination. -/
theorem witness_LdbRule :
    (1 : RegId) ≠ pcReg ∧ (2 : RegId) ≠ pcReg ∧ (0x20 : RegId) = pcReg ∧ lastWord.reg 2 = .value 0xFFFFFFFC ∧
    lastWord.mem.read (effAddr 0xFFFFFFFC 3).toNat = some 7 := by decide

/-- An unwritten byte; an aligned word whose last byte alone is unwritten; an unwritten base; a written base with an unwritten data
register; and pc as either; a misaligned word with an unwritten byte. -/
theorem witness_LoadStoreOperandStops :
    (1 : RegId) ≠ pcReg ∧ (2 : RegId) ≠ pcReg ∧ (0x20 : RegId) = pcReg ∧
    (start 0 [(2, 0x100)] []).reg 2 = .value 0x100 ∧ (start 0 [(2, 0x100)] []).mem.read (effAddr 0x100 0x7F).toNat = none ∧
    (start 0 [(2, 0x100)] [(0x17C, 1), (0x17D, 2), (0x17E, 3)]).reg 2 = .value 0x100 ∧ (effAddr 0x100 0x7C).toNat % 4 = 0 ∧
    (3 : Word) ∈ [(0 : Word), 1, 2, 3] ∧
    (start 0 [(2, 0x100)] [(0x17C, 1), (0x17D, 2), (0x17E, 3)]).mem.read (effAddr 0x100 0x7C + 3).toNat = none ∧
    (start 0 [] []).reg 2 = .unwritten ∧ (start 0 [(2, 0x100)] []).reg 1 = .unwritten ∧
    (effAddr 0x100 0x7D).toNat % 4 ≠ 0 ∧ (start 0 [(2, 0x100)] []).mem.read (effAddr 0x100 0x7D + 3).toNat = none := by decide

/-- The target written, unwritten, and pc. -/
theorem witness_JmpRule :
    (0x21 : RegId) ≠ pcReg ∧ (start 0 [(0x21, 0x40)] []).reg 0x21 = .value 0x40 ∧ (start 0 [] []).reg 0x21 = .unwritten ∧ (0x20 : RegId) = pcReg := by decide

/-- A comparand 0xFF that equals its immediate and 0xFFFFFFFF that does not, with the target written, unwritten and pc; and an rB that is
unwritten or pc. -/
theorem witness_BranchRules :
    (1 : RegId) ≠ pcReg ∧ (2 : RegId) ≠ pcReg ∧ (0x20 : RegId) = pcReg ∧
    (start 0 [(1, 0x80), (2, 0xFF)] []).reg 1 = .value 0x80 ∧ (start 0 [(1, 0x80), (2, 0xFF)] []).reg 2 = .value 0xFF ∧
    (0xFF : Word) = (0xFF : Byte).zeroExtend 32 ∧ (start 0 [(2, 0xFFFFFFFF)] []).reg 2 = .value 0xFFFFFFFF ∧
    (0xFFFFFFFF : Word) ≠ (0xFF : Byte).zeroExtend 32 ∧ (start 0 [(2, 0xFFFFFFFF)] []).reg 1 = .unwritten ∧
    (start 0 [] []).reg 2 = .unwritten := by decide

/-- The target written, unwritten, and pc. -/
theorem witness_CalRule :
    (0x21 : RegId) ≠ pcReg ∧ (start 0x40 [(0x21, 0x80)] []).reg 0x21 = .value 0x80 ∧ (start 0 [] []).reg 0x21 = .unwritten ∧ (0x20 : RegId) = pcReg := by decide

/-- The link register written, and unwritten. -/
theorem witness_RetRule :
    (start 0 [(lrReg, 0x24)] []).reg lrReg = .value 0x24 ∧ (start 0 [] []).reg lrReg = .unwritten := by decide

/-- rA written with counts 31 and 32, rA unwritten, and pc. -/
theorem witness_SiaRule :
    (0x24 : RegId) ≠ pcReg ∧ (start 0 [(0x24, 1)] []).reg 0x24 = .value 1 ∧ (start 0 [] []).reg 0x24 = .unwritten ∧
    (0x20 : RegId) = pcReg ∧ (31 : Byte).toNat < 32 ∧ ¬ (32 : Byte).toNat < 32 := by decide

/-- Instructions of both lists that complete. -/
theorem witness_RegisterResultFrame :
    exec (.mul (regField 1) 2 3) (start 0 [(2, 5), (3, 5)] []) = .next (start 4 [(2, 5), (3, 5), (1, 25)] []) ∧
    exec (.lsh (regField 1) 2 3) (start 0 [(2, 5), (3, 1)] []) = .next (start 4 [(2, 5), (3, 1), (1, 10)] []) := by exact ⟨rfl, rfl⟩

/-- A word store and a byte store that complete. -/
theorem witness_StoreFrame :
    (start 0 [(1, 0xAABBCCDD), (2, 0x200)] []).reg 2 = .value 0x200 ∧
    exec (.stw 1 (regField 2) 0) (start 0 [(1, 0xAABBCCDD), (2, 0x200)] []) =
      .next (start 4 [(1, 0xAABBCCDD), (2, 0x200)] [(0x200, 0xDD), (0x201, 0xCC), (0x202, 0xBB), (0x203, 0xAA)]) ∧
    exec (.stb 1 (regField 2) 0) (start 0 [(1, 0xAABBCCDD), (2, 0x200)] []) =
      .next (start 4 [(1, 0xAABBCCDD), (2, 0x200)] [(0x200, 0xDD)]) := by exact ⟨rfl, rfl, rfl⟩

/-- A transfer, JMI, CAL, and HLT that complete. -/
theorem witness_TransferAndSystemFrame :
    exec (.bve 1 2 0) (start 0x10 [(1, 0x80), (2, 1)] []) = .next (start 0x14 [(1, 0x80), (2, 1)] []) ∧
    exec (.jmi 8) (start 0 [] []) = .next ((start 8 [] []).setLabels [8]) ∧
    exec (.cal 1) (start 0 [(1, 0x80)] []) = .next (start 0x80 [(1, 0x80), (lrReg, 4)] []) ∧
    exec .hlt (start 0 [] []) = .next ((start 0 [] []).setStatus .halted) := by exact ⟨rfl, rfl, rfl, rfl⟩

/-- A running machine whose instruction wraps at the top of the address space. -/
theorem witness_StepRunsDecodedInstr :
    wrappingFetch.status = .running ∧ wrappingFetch.mem.read wrappingFetch.pc.toNat = some 0x34 ∧
    wrappingFetch.mem.read (wrappingFetch.pc + 1).toNat = some 0x12 ∧ wrappingFetch.mem.read (wrappingFetch.pc + 2).toNat = some 0x00 ∧
    wrappingFetch.mem.read (wrappingFetch.pc + 3).toNat = some 0x0B ∧
    decode ((0x0B : Byte) ++ (0x00 : Byte) ++ (0x12 : Byte) ++ (0x34 : Byte)) = .ok (.set 0 0x1234) := by decide

/-- Four written bytes that do not decode, and a fetch whose last byte alone is unwritten. -/
theorem witness_StepFetchFaults :
    (start 0 [] [(0, 1), (1, 2), (2, 3), (3, 0x99)]).status = .running ∧
    (start 0 [] [(0, 1), (1, 2), (2, 3), (3, 0x99)]).mem.read (0 : Word).toNat = some 1 ∧
    (start 0 [] [(0, 1), (1, 2), (2, 3), (3, 0x99)]).mem.read ((0 : Word) + 1).toNat = some 2 ∧
    (start 0 [] [(0, 1), (1, 2), (2, 3), (3, 0x99)]).mem.read ((0 : Word) + 2).toNat = some 3 ∧
    (start 0 [] [(0, 1), (1, 2), (2, 3), (3, 0x99)]).mem.read ((0 : Word) + 3).toNat = some 0x99 ∧
    decode ((0x99 : Byte) ++ (3 : Byte) ++ (2 : Byte) ++ (1 : Byte)) = .error .unknownOpcode ∧
    (start 0 [] [(0, 1), (1, 2), (2, 3)]).status = .running ∧ (3 : Word) ∈ [(0 : Word), 1, 2, 3] ∧
    (start 0 [] [(0, 1), (1, 2), (2, 3)]).mem.read ((0 : Word) + 3).toNat = none := by decide

/-- A well-formed instruction of each register shape. -/
theorem witness_StoredInstructionIsRun :
    (Instr.stw 0x24 0x24 0xFF).wf = true ∧ (Instr.jmi 0xFFFFFF).wf = true := by decide

/-- The state after reset with an instruction at its pc has the invariant, and its step answers a next state. -/
theorem witness_StepKeepsInvariant :
    (State.reset.withFetchWord 32 0x0B010005).Inv ∧
    step (State.reset.withFetchWord 32 0x0B010005) = .next (((State.reset.withFetchWord 32 0x0B010005).setReg 1 5).setPc 4) := by
  exact ⟨⟨by decide, rfl, List.nodup_nil⟩, rfl⟩

/-- The state after reset with an instruction at its pc: every register is written, the machine runs, and its step answers a next state. -/
theorem witness_WrittenRegistersStayWritten :
    (State.reset.withFetchWord 32 0x0B010005).AllWritten ∧ (State.reset.withFetchWord 32 0x0B010005).status = .running ∧
    step (State.reset.withFetchWord 32 0x0B010005) = .next (((State.reset.withFetchWord 32 0x0B010005).setReg 1 5).setPc 4) := by
  exact ⟨fun r => ⟨0, by simp [State.withFetchWord, placeInstr, State.reset, State.reg, writeFour, writeByte, State.setMem,
    State.setStatus]⟩, rfl, rfl⟩

/-- A step that answers a next state, one that faults and one that refuses. -/
theorem witness_PcEntryIsInvisible :
    step (State.reset.withFetchWord 32 0x0B010005) = .next (((State.reset.withFetchWord 32 0x0B010005).setReg 1 5).setPc 4) ∧
    step (State.reset.withFetchWord 32 0x31010203) = .fault .divideByZero ∧
    step (State.reset.withFetchWord 32 0x0C012000) = .refused .pcOperand := by exact ⟨rfl, rfl, rfl⟩

/-- A running state with INT, HLT and NOP completed. -/
theorem witness_OnlyIntTrapsOnlyHltHalts :
    State.reset.status = .running ∧ exec (.int 0x2A) State.reset = .next ((State.reset.setPc 4).setStatus (.syscall 0x2A)) ∧
    exec .hlt State.reset = .next (State.reset.setStatus .halted) ∧ exec .nop State.reset = .next (State.reset.setPc 4) := by exact ⟨rfl, rfl, rfl, rfl⟩

/-- A halted state, and one that a fault ended. -/
theorem witness_StoppedRunStaysStopped :
    (State.reset.setStatus .halted).status ≠ .running ∧ (State.reset.setStatus (.fault .divideByZero)).status ≠ .running := by decide

/-- An ill-formed instruction, a fault and a refusal. -/
theorem witness_InstructionStops :
    (Instr.mov 0 0x25).wf = false ∧ exec (.div 1 2 3) State.reset = .fault .divideByZero ∧ exec (.jmp 0x20) State.reset = .refused .pcOperand := by exact ⟨by decide, rfl, rfl⟩

/-- A file with the stated magic, code_size 2 and data_size 1 that is accepted; and a file shorter than a header. -/
theorem witness_ContainerAcceptedExactly :
    (parseContainer (rgvmFile ++ [7, 8, 9])).isSome = true ∧ (containerHeader rgvmFile).hasMagic = true ∧ (rgvmFile.take 23).length < 24 := by decide

/-- Two written sources; XOR of one unwritten register with itself; and pc as an operand with the others written. -/
theorem witness_BitwiseRules :
    (1 : RegId) ≠ pcReg ∧ (2 : RegId) ≠ pcReg ∧ (3 : RegId) ≠ pcReg ∧ (start 0 [(2, 0x80000000), (3, 0x7FFFFFFF)] []).reg 2 = .value 0x80000000 ∧
    (start 0 [(2, 0x80000000), (3, 0x7FFFFFFF)] []).reg 3 = .value 0x7FFFFFFF ∧
    (start 0 [] []).reg 2 = .unwritten ∧ (0x20 : RegId) = pcReg ∧ (start 0 [(2, 1), (3, 1)] []).reg 2 ≠ .unwritten ∧
    (start 0 [(2, 1), (3, 1)] []).reg 3 ≠ .unwritten := by decide

/-- Four written bytes that wrap at the top of the address space. -/
theorem witness_StoredWordReadsBack :
    wrappingWord.mem.read (0xFFFFFFFD : Word).toNat = some 1 ∧ wrappingWord.mem.read ((0xFFFFFFFD : Word) + 1).toNat = some 2 ∧
    wrappingWord.mem.read ((0xFFFFFFFD : Word) + 2).toNat = some 3 ∧ wrappingWord.mem.read ((0xFFFFFFFD : Word) + 3).toNat = some 4 := by decide

/-- Two written sources at the ends of the signed order; one of them unwritten; and pc as an operand with the others written. -/
theorem witness_ThreeWayCompareRules :
    (1 : RegId) ≠ pcReg ∧ (2 : RegId) ≠ pcReg ∧ (3 : RegId) ≠ pcReg ∧ (start 0 [(2, 0x80000000), (3, 0x7FFFFFFF)] []).reg 2 = .value 0x80000000 ∧
    (start 0 [(2, 0x80000000), (3, 0x7FFFFFFF)] []).reg 3 = .value 0x7FFFFFFF ∧
    (start 0 [(3, 1)] []).reg 2 = .unwritten ∧ (start 0 [(2, 1)] []).reg 3 = .unwritten ∧ (0x20 : RegId) = pcReg ∧
    (start 0 [(2, 1), (3, 1)] []).reg 2 ≠ .unwritten ∧ (start 0 [(2, 1), (3, 1)] []).reg 3 ≠ .unwritten := by decide

/-- The source written, and unwritten, and pc as an operand. -/
theorem witness_MovSxtRules :
    (1 : RegId) ≠ pcReg ∧ (2 : RegId) ≠ pcReg ∧ (start 0 [(2, 0xFF)] []).reg 2 = .value 0xFF ∧ (start 0 [] []).reg 2 = .unwritten ∧
    (0x20 : RegId) = pcReg ∧ (start 0 [(2, 0xFF)] []).reg 2 ≠ .unwritten := by decide

/-- The source written, and unwritten, and pc as an operand. -/
theorem witness_SeqRule :
    (1 : RegId) ≠ pcReg ∧ (2 : RegId) ≠ pcReg ∧ (start 0 [(2, 0xFF)] []).reg 2 = .value 0xFF ∧ (start 0 [] []).reg 2 = .unwritten ∧
    (0x20 : RegId) = pcReg ∧ (start 0 [(2, 0xFF)] []).reg 2 ≠ .unwritten := by decide

/-- Base and data written, the byte at the last address. -/
theorem witness_StbRule :
    (1 : RegId) ≠ pcReg ∧ (2 : RegId) ≠ pcReg ∧ (start 0 [(1, 0x12345678), (2, 0xFFFFFFFC)] []).reg 2 = .value 0xFFFFFFFC ∧
    (start 0 [(1, 0x12345678), (2, 0xFFFFFFFC)] []).reg 1 = .value 0x12345678 ∧ (effAddr 0xFFFFFFFC 3).toNat = 0xFFFFFFFF := by decide

/-- A target in the link register itself. -/
theorem witness_CallThenReturnComesBack :
    (0x21 : RegId) ≠ pcReg ∧ (start 0x40 [(0x21, 0x80)] []).reg 0x21 = .value 0x80 := by decide

/-- The state after reset, with an instruction at its pc. -/
theorem witness_LiftedMachineIsStepMachine :
    (State.reset.withFetchWord 32 0x0B010005).temps = [] := by decide

end Sys2Proof.Tests
end

section
/-! PROOFS. The family of 10_state.md: what every step keeps (O52, O54), the bounds of a lift (O14), the label request (O17), and the
operand stops of the loads and stores (O32). Before each, the laws of the operations that it needs. -/

namespace Sys2Proof.Machine

/-! ### The host's label table -/

/-- The label request leaves the address in the table. -/
theorem mem_labels_getOrCreateLabel (a : Word) (s : State) : a ∈ (getOrCreateLabel a s).2.labels := by
  rw [getOrCreateLabel_state, State.setLabels_labels]
  split
  · assumption
  · simp

/-- The request for an address that has a label changes nothing. -/
theorem getOrCreateLabel_of_mem {a : Word} {s : State} (h : a ∈ s.labels) :
    getOrCreateLabel a s = (⟨s.labels.idxOf a, a⟩, s) := by
  simp [getOrCreateLabel, h, State.setLabels]

/-- The place of an address in the table, the requested one's and every listed one's, is the same before and after the request: a new
label stands at the end. -/
theorem idxOf_labels_getOrCreateLabel {a b : Word} {s : State} (h : b = a ∨ b ∈ s.labels) :
    (getOrCreateLabel a s).2.labels.idxOf b = s.labels.idxOf b := by
  rw [getOrCreateLabel_state, State.setLabels_labels]
  split
  · rfl
  · rename_i ha
    rcases h with rfl | hb
    · rw [List.idxOf_append_of_notMem ha, List.idxOf_eq_length ha]; simp
    · exact List.idxOf_append_of_mem hb

/-- The label request gives no address a second label. -/
theorem nodup_labels_getOrCreateLabel (a : Word) {s : State} (h : s.labels.Nodup) :
    (getOrCreateLabel a s).2.labels.Nodup := by
  rw [getOrCreateLabel_state, State.setLabels_labels]
  split
  · exact h
  · rename_i ha
    simpa using h.concat ha

/-- The handle of an address is its place in the table after the request. -/
theorem getOrCreateLabel_id (a : Word) (s : State) :
    (getOrCreateLabel a s).1.id = (getOrCreateLabel a s).2.labels.idxOf a :=
  (idxOf_labels_getOrCreateLabel (.inl rfl)).symm

/-- Asking again gives the same handle and changes nothing. -/
theorem getOrCreateLabel_again (a : Word) (s : State) :
    getOrCreateLabel a (getOrCreateLabel a s).2 = getOrCreateLabel a s := by
  rw [getOrCreateLabel_of_mem (mem_labels_getOrCreateLabel a s), ← getOrCreateLabel_id]
  rfl

/-- Two addresses, one asked for after the other, have different handles. -/
theorem getOrCreateLabel_id_ne {a b : Word} (s : State) (h : b ≠ a) :
    (getOrCreateLabel b (getOrCreateLabel a s).2).1.id ≠ (getOrCreateLabel a s).1.id := by
  rw [getOrCreateLabel_id a s]
  intro e
  exact h ((List.idxOf_inj (mem_labels_getOrCreateLabel a s)).1 e.symm).symm

/-! ### What a completed instruction keeps -/

/-- A completed instruction keeps the invariant. -/
theorem Completed.inv {s t : State} (h : Completed s t) (hs : s.Inv) : t.Inv := by
  obtain ⟨hmem, htemps, hlabels⟩ := hs
  cases h with
  | result a v n ha => exact ⟨hmem, htemps, hlabels⟩
  | word a v => exact ⟨wf_writeFour hmem, htemps, hlabels⟩
  | byte a b => exact ⟨wf_writeByte hmem, htemps, hlabels⟩
  | goto p => exact ⟨hmem, htemps, hlabels⟩
  | label a p => exact ⟨hmem, htemps, nodup_labels_getOrCreateLabel a hlabels⟩
  | link v p => exact ⟨hmem, htemps, hlabels⟩
  | halted => exact ⟨hmem, htemps, hlabels⟩
  | syscall c => exact ⟨hmem, htemps, hlabels⟩

/-- A register write keeps every register written. -/
theorem State.AllWritten.setReg {s : State} (h : s.AllWritten) (r : RegId) (v : Word) : (s.setReg r v).AllWritten :=
  fun q => s.reg_setReg_written r q v (h q)

/-- A completed instruction keeps every register written: only `result` and `link` touch one, and they write a word. -/
theorem Completed.allWritten {s t : State} (h : Completed s t) (hs : s.AllWritten) : t.AllWritten := by
  cases h with
  | result a v n ha => exact State.AllWritten.setReg (s := s.setDraws n) hs a v
  | link v p => exact hs.setReg lrReg v
  | word a v => exact hs
  | byte a b => exact hs
  | goto p => exact hs
  | label a p => exact hs
  | halted => exact hs
  | syscall c => exact hs

/-! ### How the shared operations fault -/

/-- A word access faults only as misaligned, under the policy fault. -/
theorem wordAccess_eq_fault {a : Word} {e : Fault} :
    wordAccess a = .fault e ↔ a.toNat % 4 ≠ 0 ∧ Config.misalignedPolicy = .fault ∧ e = .misalignedAccess a := by
  rw [wordAccess_eq]
  by_cases h : a.toNat % 4 = 0
  · simp [h]
  · cases Config.misalignedPolicy <;> simp [h, eq_comm]

/-- A division faults only by 0. -/
theorem divU_eq_fault {a b : Word} {e : Fault} (h : divU a b = .fault e) : e = .divideByZero := by
  obtain hd | ⟨_, hd⟩ := divU_cases a b <;> cases hd.symm.trans h
  rfl

/-- A remainder faults only by 0. -/
theorem modU_eq_fault {a b : Word} {e : Fault} (h : modU a b = .fault e) : e = .divideByZero := by
  obtain hd | ⟨_, hd⟩ := modU_cases a b <;> cases hd.symm.trans h
  rfl

/-- A reg+reg+reg operation faults on reading a source, or where its function does. -/
theorem regRegRegOp_eq_fault {op rA rB rC : Byte} {f : Word → Word → Res Word} {s : State} {e : Fault}
    (h : regRegRegOp op rA rB rC f s = .fault e) : (∃ r, readReg r s = .fault e) ∨ ∃ vb vc, f vb vc = .fault e := by
  simp only [regRegRegOp, withReg_eq_fault, Res.andThen_eq_fault, setRegNext_ne_fault] at h
  obtain ⟨_, -, b, -, c, -, hb | ⟨vb, -, hc | ⟨vc, -, hf | ⟨_, -, ⟨⟩⟩⟩⟩⟩ := h
  · exact .inl ⟨b, hb⟩
  · exact .inl ⟨c, hc⟩
  · exact .inr ⟨vb, vc, hf⟩

/-- A reg+reg operation faults only on reading its source. -/
theorem regRegOp_eq_fault {op rA rB : Byte} {f : Word → Word} {s : State} {e : Fault}
    (h : regRegOp op rA rB f s = .fault e) : ∃ r, readReg r s = .fault e := by
  simp only [regRegOp, withReg_eq_fault, Res.andThen_eq_fault, setRegNext_ne_fault] at h
  obtain ⟨_, -, b, -, hb | ⟨_, -, ⟨⟩⟩⟩ := h
  exact ⟨b, hb⟩

/-- A bidirectional shift faults only on reading the count or the source. -/
theorem bidirectionalShift_eq_fault {k : ShiftKind} {op rA rB rC : Byte} {s : State} {e : Fault}
    (h : bidirectionalShift k op rA rB rC s = .fault e) : ∃ r, readReg r s = .fault e := by
  simp only [bidirectionalShift, withReg_eq_fault, Res.andThen_eq_fault, setRegNext_ne_fault] at h
  obtain ⟨_, -, b, -, c, -, hc | ⟨_, -, hb | ⟨_, -, ⟨⟩⟩⟩⟩ := h
  · exact ⟨c, hc⟩
  · exact ⟨b, hb⟩

/-- A load faults on reading its base, or where its access does. -/
theorem loadOp_eq_fault {op rA rB v : Byte} {access : Word → State → Res Word} {s : State} {e : Fault}
    (h : loadOp op rA rB v access s = .fault e) : (∃ r, readReg r s = .fault e) ∨ ∃ a, access a s = .fault e := by
  simp only [loadOp, withReg_eq_fault, Res.andThen_eq_fault, setRegNext_ne_fault] at h
  obtain ⟨_, -, b, -, hb | ⟨_, -, hm | ⟨_, -, ⟨⟩⟩⟩⟩ := h
  · exact .inl ⟨b, hb⟩
  · exact .inr ⟨_, hm⟩

/-- A store faults on reading its base or its data register, or where its access does. -/
theorem storeOp_eq_fault {op rA rB v : Byte} {access : Word → Word → State → Res State} {s : State} {e : Fault}
    (h : storeOp op rA rB v access s = .fault e) : (∃ r, readReg r s = .fault e) ∨ ∃ a w, access a w s = .fault e := by
  simp only [storeOp, withReg_eq_fault, Res.andThen_eq_fault, fallThrough_eq] at h
  obtain ⟨a, -, b, -, hb | ⟨_, -, ha | ⟨_, -, hm | ⟨_, -, ⟨⟩⟩⟩⟩⟩ := h
  · exact .inl ⟨b, hb⟩
  · exact .inl ⟨a, ha⟩
  · exact .inr ⟨_, _, hm⟩

/-- A branch faults only on reading the compared register or, when taken, the target. -/
theorem branchOp_eq_fault {op rA rB : Byte} {taken : Word → Bool} {s : State} {e : Fault}
    (h : branchOp op rA rB taken s = .fault e) : ∃ r, readReg r s = .fault e := by
  simp only [branchOp, withReg_eq_fault, Res.andThen_eq_fault] at h
  obtain ⟨a, -, b, -, hb | ⟨_, -, h⟩⟩ := h
  · exact ⟨b, hb⟩
  · split at h
    · obtain ha | ⟨_, -, ⟨⟩⟩ := Res.andThen_eq_fault.1 h
      exact ⟨a, ha⟩
    · cases h

/-! ### An instruction that faults -/

/-- Everything that can have made an instruction fault (60_exceptions.md R150). -/
inductive Faulted (i : Instr) (s : State) : Fault → Prop
  /-- an unwritten register was read -/
  | reg (r : RegId) (hp : r ≠ pcReg) (h : s.reg r = .unwritten) : Faulted i s (.unwrittenRead (.reg r))
  /-- an unwritten byte of memory was read -/
  | mem (a : Word) (h : s.mem.read a.toNat = none) : Faulted i s (.unwrittenRead (.mem a))
  /-- a division by 0 -/
  | divisor (h : ∃ a b c, i = .div a b c ∨ i = .mod a b c) : Faulted i s .divideByZero
  /-- a misaligned word access under the policy fault -/
  | misaligned (a : Word) (h : a.toNat % 4 ≠ 0) (hp : Config.misalignedPolicy = .fault)
      (hi : ∃ a b v, i = .ldw a b v ∨ i = .stw a b v) : Faulted i s (.misalignedAccess a)

/-- A register read that faults is a cause. -/
theorem Faulted.of_readReg {i : Instr} {s : State} {e : Fault} : (∃ r, readReg r s = .fault e) → Faulted i s e := by
  rintro ⟨r, h⟩
  obtain ⟨hp, hr, rfl⟩ := readReg_eq_fault.1 h
  exact .reg r hp hr

/-- The inversion of `exec` at a fault: it has one of these causes. -/
theorem exec_faulted {i : Instr} {s : State} {e : Fault} (h : exec i s = .fault e) : Faulted i s e := by
  cases i with
  | add | sub | mul | and | orr | xor | tcu | tcs =>
    obtain hr | ⟨_, _, ⟨⟩⟩ := regRegRegOp_eq_fault h
    exact .of_readReg hr
  | div =>
    obtain hr | ⟨_, _, hf⟩ := regRegRegOp_eq_fault h
    · exact .of_readReg hr
    · cases divU_eq_fault hf
      exact .divisor ⟨_, _, _, .inl rfl⟩
  | mod =>
    obtain hr | ⟨_, _, hf⟩ := regRegRegOp_eq_fault h
    · exact .of_readReg hr
    · cases modU_eq_fault hf
      exact .divisor ⟨_, _, _, .inr rfl⟩
  | lsh | ash => exact .of_readReg (bidirectionalShift_eq_fault h)
  | not | mov | sxt | seq => exact .of_readReg (regRegOp_eq_fault h)
  | set =>
    obtain ⟨_, -, h⟩ := withReg_eq_fault.1 h
    exact absurd h setRegNext_ne_fault
  | sup | sia =>
    obtain ⟨a, -, h⟩ := withReg_eq_fault.1 h
    obtain ha | ⟨_, -, h⟩ := Res.andThen_eq_fault.1 h
    · exact .of_readReg ⟨a, ha⟩
    · exact absurd h setRegNext_ne_fault
  | ldw =>
    obtain hr | ⟨a, hm⟩ := loadOp_eq_fault h
    · exact .of_readReg hr
    · obtain hw | ⟨_, -, hf⟩ := Res.andThen_eq_fault.1 hm
      · obtain ⟨h4, hp, rfl⟩ := wordAccess_eq_fault.1 hw
        exact .misaligned a h4 hp ⟨_, _, _, .inl rfl⟩
      · obtain ⟨k, -, hk, rfl⟩ := readFour_eq_fault hf
        exact .mem _ hk
  | ldb =>
    simp only [exec, execLdb] at h
    obtain hr | ⟨a, hm⟩ := loadOp_eq_fault h
    · exact .of_readReg hr
    · simp only [Res.andThen_eq_fault, reduceCtorEq, and_false, exists_false, or_false] at hm
      obtain ⟨hn, rfl⟩ := readByte_eq_fault.1 hm
      exact .mem a hn
  | stw =>
    obtain hr | ⟨a, w, hm⟩ := storeOp_eq_fault h
    · exact .of_readReg hr
    · obtain hw | ⟨_, -, ⟨⟩⟩ := Res.andThen_eq_fault.1 hm
      obtain ⟨h4, hp, rfl⟩ := wordAccess_eq_fault.1 hw
      exact .misaligned a h4 hp ⟨_, _, _, .inr rfl⟩
  | stb =>
    simp only [exec, execStb] at h
    obtain hr | ⟨_, _, ⟨⟩⟩ := storeOp_eq_fault h
    exact .of_readReg hr
  | bve | bvn => exact .of_readReg (branchOp_eq_fault h)
  | jmp | cal =>
    obtain ⟨a, -, h⟩ := withReg_eq_fault.1 h
    obtain ha | ⟨_, -, ⟨⟩⟩ := Res.andThen_eq_fault.1 h
    exact .of_readReg ⟨a, ha⟩
  | ret =>
    obtain hl | ⟨_, -, ⟨⟩⟩ := Res.andThen_eq_fault.1 h
    exact .of_readReg ⟨lrReg, hl⟩
  | nop | jmi | int | snd | hlt => cases h

/-- A running machine's step faults in the fetch, or where the fetched instruction does. -/
theorem step_eq_fault {s : State} {e : Fault} (hrun : s.status = .running) (h : step s = .fault e) :
    fetch s = .fault e ∨ ∃ i, fetch s = .next i ∧ exec i s = .fault e := by
  unfold step at h
  rw [hrun] at h
  exact Res.andThen_eq_fault.1 h

/-- The fetch never faults on a register. -/
theorem fetch_ne_fault_reg (s : State) (r : RegId) : fetch s ≠ .fault (.unwrittenRead (.reg r)) := by
  intro h
  obtain ⟨_, -, -, h⟩ | ⟨_, h⟩ := fetch_eq_fault h <;> cases h

/-- A running machine's step that faults on a register read one that is unwritten. -/
theorem unwritten_of_step_fault_reg {s : State} {r : RegId} (hrun : s.status = .running)
    (h : step s = .fault (.unwrittenRead (.reg r))) : s.reg r = .unwritten := by
  obtain hf | ⟨i, -, hi⟩ := step_eq_fault hrun h
  · exact absurd hf (fetch_ne_fault_reg s r)
  · cases exec_faulted hi with
    | reg _ _ hr => exact hr

/-! ### The size of a lift -/

/-- A sequence over one register is its continuation's. -/
theorem lift1_eq_some {f1 : Byte} {k : RegId → List IrOp} {ops : List IrOp} (h : lift1 f1 k = some ops) : ∃ a, k a = ops := by
  obtain ⟨a, -, h⟩ := Option.map_eq_some_iff.1 h
  exact ⟨a, h⟩

/-- A sequence over two registers is its continuation's. -/
theorem lift2_eq_some {f1 f2 : Byte} {k : RegId → RegId → List IrOp} {ops : List IrOp} (h : lift2 f1 f2 k = some ops) :
    ∃ a b, k a b = ops := by
  obtain ⟨a, -, h⟩ := Option.bind_eq_some_iff.1 h
  exact ⟨a, lift1_eq_some h⟩

/-- A sequence over three registers is its continuation's. -/
theorem lift3_eq_some {f1 f2 f3 : Byte} {k : RegId → RegId → RegId → List IrOp} {ops : List IrOp}
    (h : lift3 f1 f2 f3 k = some ops) : ∃ a b c, k a b c = ops := by
  obtain ⟨a, -, h⟩ := Option.bind_eq_some_iff.1 h
  exact ⟨a, lift2_eq_some h⟩

@[simp] theorem binarySeq_length (op : BinOp) (a b c : RegId) : (binarySeq op a b c).length = 1 := rfl
@[simp] theorem compareSeq_length (gt lt : CmpOp) (a b c : RegId) : (compareSeq gt lt a b c).length = 1 := rfl
@[simp] theorem branchSeq_length (op : CmpOp) (a b : RegId) (v : Byte) : (branchSeq op a b v).length = 4 := rfl
@[simp] theorem shiftSeq_length (right : ShiftKind) (a b c : RegId) : (shiftSeq right a b c).length = 7 := rfl

/-- A canonical sequence has 1 to 7 operations: 7 for the shifts of R110 and R111, 4 for the branches of R123 and R124, 3 for RET,
and 1 for every other instruction. -/
theorem liftOps_length {i : Instr} {answer : Option HostLabel} {ops : List IrOp} (h : liftOps i answer = some ops) :
    1 ≤ ops.length ∧ ops.length ≤ 7 := by
  cases i with
  | add | sub | and | orr | xor | mul | div | mod | tcu | tcs | lsh | ash =>
    obtain ⟨a, b, c, rfl⟩ := lift3_eq_some h
    simp
  | not | mov | sxt | seq | ldw | ldb | stw | stb | bve | bvn =>
    obtain ⟨a, b, rfl⟩ := lift2_eq_some h
    simp
  | set | sup | sia | jmp | cal =>
    obtain ⟨a, rfl⟩ := lift1_eq_some h
    simp
  | jmi => cases answer <;> cases h <;> simp
  | nop | ret | int | snd | hlt =>
    cases h
    simp

/-- An instruction has at most 2 edges (40_lifter_ir.md R93). -/
theorem liftEdges_length_le (i : Instr) (address : Word) : (liftEdges i address).length ≤ 2 := by
  cases i <;> simp [liftEdges]

/-- An instruction lifts to the fallback, or to its canonical sequence and its edges. -/
theorem lift_cases (i : Instr) (address : Word) (answer : Option HostLabel) : lift i address answer = fallbackLift ∨
    ∃ ops, liftOps i answer = some ops ∧ lift i address answer = ⟨ops, liftEdges i address⟩ := by
  unfold lift
  cases liftOps i answer with
  | none => exact .inl rfl
  | some ops => exact .inr ⟨ops, rfl, rfl⟩

/-- A record lifts to the fallback, or to an instruction's canonical sequence and edges. -/
theorem liftRecord_cases (d : Decoded) (address : Word) (port : Word → Option HostLabel) :
    liftRecord d address port = fallbackLift ∨
    ∃ i answer ops, liftOps i answer = some ops ∧ liftRecord d address port = ⟨ops, liftEdges i address⟩ := by
  unfold liftRecord
  cases d.instr? with
  | none => exact .inl rfl
  | some i => exact (lift_cases i address _).imp_right fun ⟨ops, h⟩ => ⟨i, _, ops, h⟩

/-! ### Where the loads and stores stop -/

/-- The loads and stores all read their base register before anything else. -/
theorem exec_loadStore_reads_base {a b : RegId} {v : Byte} {s : State} {i : Instr}
    (hi : i ∈ [Instr.ldw (regField a) (regField b) v, .ldb (regField a) (regField b) v, .stw (regField a) (regField b) v,
      .stb (regField a) (regField b) v]) : ∃ k : Word → Res State, exec i s = (readReg b s).andThen k := by
  simp only [List.mem_cons, List.not_mem_nil, or_false] at hi
  rcases hi with rfl | rfl | rfl | rfl
  · exact ⟨_, by simp only [exec, execLdw, loadOp, withReg_regField]; rfl⟩
  · exact ⟨_, by simp only [exec, execLdb, loadOp, withReg_regField]; rfl⟩
  · exact ⟨_, by simp only [exec, execStw, storeOp, withReg_regField]; rfl⟩
  · exact ⟨_, by simp only [exec, execStb, storeOp, withReg_regField]; rfl⟩

/-- The stores read their data register next, before memory is written (log 15). -/
theorem exec_store_reads_data {a b : RegId} {v : Byte} {s : State} {base : Word} {i : Instr} (hb : b ≠ pcReg)
    (hx : s.reg b = .value base) (hi : i ∈ [Instr.stw (regField a) (regField b) v, .stb (regField a) (regField b) v]) :
    ∃ k : Word → Res State, exec i s = (readReg a s).andThen k := by
  have hread : readReg b s = .next base := readReg_of_value hb hx
  simp only [List.mem_cons, List.not_mem_nil, or_false] at hi
  rcases hi with rfl | rfl
  · exact ⟨_, by simp only [exec, execStw, storeOp, withReg_regField, hread, Res.andThen_next]; rfl⟩
  · exact ⟨_, by simp only [exec, execStb, storeOp, withReg_regField, hread, Res.andThen_next]; rfl⟩

/-- A load whose base is written faults where its access does, whatever the destination is (60_exceptions.md R144). -/
theorem loadOp_of_access_fault {op v : Byte} (a : RegId) {b : RegId} {s : State} {base : Word} {access : Word → State → Res Word}
    {e : Fault} (hb : b ≠ pcReg) (hx : s.reg b = .value base) (h : access (effAddr base v) s = .fault e) :
    loadOp op (regField a) (regField b) v access s = .fault e := by
  simp only [loadOp, withReg_regField, readReg_of_value hb hx, Res.andThen_next, h, Res.andThen_fault]

/-- A four-byte read that completes found all four bytes written. -/
theorem written_of_readFour {a w : Word} {s : State} (h : readFour a s = .next w) :
    ∀ k ∈ [(0 : Word), 1, 2, 3], s.mem.read (a + k).toNat ≠ none := by
  simp only [readFour, Res.andThen_eq_next, readByte_eq_next] at h
  obtain ⟨b0, h0, b1, h1, b2, h2, b3, h3, -⟩ := h
  simp only [List.mem_cons, List.not_mem_nil, or_false]
  rintro k (rfl | rfl | rfl | rfl) hn
  · rw [add_zero, h0] at hn; cases hn
  · cases h1.symm.trans hn
  · cases h2.symm.trans hn
  · cases h3.symm.trans hn

/-- A four-byte read with an unwritten byte faults, naming an unwritten one of the four. -/
theorem readFour_of_unwritten {a : Word} {s : State}
    (h : ∃ k ∈ [(0 : Word), 1, 2, 3], s.mem.read (a + k).toNat = none) :
    ∃ k ∈ [(0 : Word), 1, 2, 3], s.mem.read (a + k).toNat = none ∧ readFour a s = .fault (.unwrittenRead (.mem (a + k))) := by
  cases hr : readFour a s with
  | next w =>
    obtain ⟨k, hk, hn⟩ := h
    exact absurd hn (written_of_readFour hr k hk)
  | fault e =>
    obtain ⟨k, hk, hn, rfl⟩ := readFour_eq_fault hr
    exact ⟨k, hk, hn, rfl⟩
  | refused e => exact absurd hr readFour_ne_refused

/-- A word read that the alignment rule lets through reads the four bytes (20_memory.md R40). -/
theorem readWord_of_permitted {a : Word} (s : State) (h : a.toNat % 4 = 0 ∨ Config.misalignedPolicy = .bytewise) :
    readWord a s = readFour a s := by
  rw [readWord, wordAccess_eq, if_pos h, Res.andThen_next]

/-- A misaligned word read under the policy fault faults before any byte is looked at (log 15). -/
theorem readWord_of_misaligned {a : Word} (s : State) (h : a.toNat % 4 ≠ 0) (hp : Config.misalignedPolicy = .fault) :
    readWord a s = .fault (.misalignedAccess a) := by
  rw [readWord, wordAccess_eq_fault.2 ⟨h, hp, rfl⟩, Res.andThen_fault]

/-! ### The obligations -/

/-- Settles O52: a step is a completed instruction, and each of the things that one can have done keeps the invariant. -/
theorem stepKeepsInvariant : Obligations.StepKeepsInvariant := by
  intro s t hs h
  obtain ⟨-, i, -, hi⟩ := step_eq_next h
  exact (exec_completed hi).inv hs

/-- Settles O54: a completed instruction writes words alone, and a step that faults on a register read an unwritten one. -/
theorem writtenRegistersStayWritten : Obligations.WrittenRegistersStayWritten := by
  intro s hs
  constructor
  · intro t h
    obtain ⟨-, i, -, hi⟩ := step_eq_next h
    exact (exec_completed hi).allWritten hs
  · intro hrun r h
    obtain ⟨w, hw⟩ := hs r
    rw [unwritten_of_step_fault_reg hrun h] at hw
    cases hw

/-- Settles O14: the fallback has one operation and no edge, and a canonical sequence and its edges are within the bounds. -/
theorem liftSizeBounds : Obligations.LiftSizeBounds := by
  intro d address port
  obtain h | ⟨i, answer, ops, hops, h⟩ := liftRecord_cases d address port
  · rw [h]; decide
  · rw [h]
    obtain ⟨hlow, hhigh⟩ := liftOps_length hops
    exact ⟨hlow, hhigh, liftEdges_length_le i address⟩

/-- Settles O17: a handle is a place in the table, which holds the address after the request and grows at its end alone. -/
theorem labelRequestReusesHandle : Obligations.LabelRequestReusesHandle := by
  intro a b s
  refine ⟨rfl, mem_labels_getOrCreateLabel a s, getOrCreateLabel_again a s, fun hb => ?_, getOrCreateLabel_id_ne s⟩
  exact congrArg (HostLabel.mk · b) (idxOf_labels_getOrCreateLabel (.inr hb))

/-- Settles O32: the base is read first, then a store's data register or a load's memory, and the first that stops is the answer. -/
theorem loadStoreOperandStops : Obligations.LoadStoreOperandStops := by
  intro a b v s
  refine ⟨fun base hb hx hn => ?_, fun base hb hx hn => ?_, fun i hi => ?_, fun i hi base hb hx => ?_⟩
  · simp only [exec, execLdb]
    refine loadOp_of_access_fault a hb hx ?_
    rw [readByte_eq_fault.2 ⟨hn, rfl⟩, Res.andThen_fault]
  · obtain ⟨k, hk, hkn, hfour⟩ := readFour_of_unwritten hn
    refine ⟨k, hk, hkn, fun h4 => ?_, fun h4 => ?_⟩
    · exact loadOp_of_access_fault a hb hx ((readWord_of_permitted s (.inl h4)).trans hfour)
    · cases hp : Config.misalignedPolicy with
      | bytewise => exact loadOp_of_access_fault a hb hx ((readWord_of_permitted s (.inr hp)).trans hfour)
      | fault => exact loadOp_of_access_fault a hb hx (readWord_of_misaligned s h4 hp)
  · obtain ⟨k, hk⟩ := exec_loadStore_reads_base (s := s) hi
    constructor
    · rintro rfl
      rw [hk, readReg_pc, Res.andThen_refused]
    · intro hb hu
      rw [hk, readReg_of_unwritten hb hu, Res.andThen_fault]
  · obtain ⟨k, hk⟩ := exec_store_reads_data hb hx hi
    constructor
    · rintro rfl
      rw [hk, readReg_pc, Res.andThen_refused]
    · intro ha hu
      rw [hk, readReg_of_unwritten ha hu, Res.andThen_fault]

end Sys2Proof.Machine
end

section
/-! PROOFS. The family of 20_memory.md: the bytes port (O8), a word stored and read back (O59), the stored instruction that the next step
runs (O51), and the container (O60). Before each, the laws of the model's functions that it needs. -/

namespace Sys2Proof.Machine

/-! ### The bytes port -/

/-- Fewer than 4 bytes from the offset are no word (20_memory.md R41). -/
theorem wordAt_of_short {buf : List Byte} {off : Nat} (h : buf.length - off < 4) : wordAt buf off = .error .truncatedInput := by
  unfold wordAt
  split
  · next b0 b1 b2 b3 after hd =>
    have hlen := congrArg List.length hd
    simp only [List.length_drop, List.length_cons] at hlen
    omega
  · rfl

/-- The word at an offset is its 4 bytes, little-endian, whatever stands around them (20_memory.md R36). -/
theorem wordAt_append (before after : List Byte) (b0 b1 b2 b3 : Byte) :
    wordAt (before ++ b0 :: b1 :: b2 :: b3 :: after) before.length = .ok (b3 ++ b2 ++ b1 ++ b0) := by
  rw [wordAt, List.drop_left]
  rfl

/-- Where there is no word, both forms of the bytes request answer the error. -/
theorem bytes_of_wordAt_error {buf : List Byte} {off : Nat} {e : DecodeError} (h : wordAt buf off = .error e) :
    decodeBytes buf off = .error e ∧ bytesPort buf off = .err e.code := by
  simp only [decodeBytes, bytesPort, h, and_self]

/-- Where there is a word, both forms of the bytes request answer its decode. -/
theorem bytes_of_wordAt_ok {buf : List Byte} {off : Nat} {w : Word} (h : wordAt buf off = .ok w) :
    decodeBytes buf off = decode w ∧ bytesPort buf off = decodePort w := by
  simp only [decodeBytes, bytesPort, h, and_self]

/-- The decode port at an unmapped opcode byte: the fields are not looked at (60_exceptions.md R137). -/
theorem decodePort_of_unmapped {w : Word} (h : opcodeMap (opcodeField w) = none) :
    decodePort w = .err DecodeError.unknownOpcode.code := by
  rw [decodePort, decodeRecord, h]
  rfl

/-- The decode port at a mapped opcode byte whose format's check fails. -/
theorem decodePort_of_invalid {w : Word} {m : Mnemonic} {f : Format} (h : opcodeMap (opcodeField w) = some (m, f))
    (hf : f.fieldsOk (field1 w) (field2 w) (field3 w) = false) :
    decodePort w = .err DecodeError.invalidRegisterField.code := by
  simp only [decodePort, decodeRecord, h, hf, Bool.false_eq_true, if_false, portOutput]

/-- Settles O8: a short buffer holds no word; else the word is the 4 bytes', and the decode port looks at its opcode before its fields. -/
theorem bytesPortReadsLittleEndianWord : Obligations.BytesPortReadsLittleEndianWord := by
  refine ⟨fun buf off hshort => ?_, fun before after b0 b1 b2 b3 => ?_, fun a1 a2 a3 op hmap => ?_,
    fun a1 a2 a3 op m f r hmap hr hlt => ?_⟩
  · exact bytes_of_wordAt_error (wordAt_of_short (by omega))
  · exact bytes_of_wordAt_ok (wordAt_append before after b0 b1 b2 b3)
  · exact decodePort_of_unmapped (by rwa [opcodeField_append])
  · refine decodePort_of_invalid (m := m) (f := f) (by rwa [opcodeField_append]) ?_
    rw [field1_append, field2_append, field3_append]
    exact (fieldsOk_eq_false a1 a2 a3 f).2 ⟨r, hr, hlt⟩

/-! ### A word stored and read back -/

/-- A stored word reads back as itself (20_memory.md R38). -/
theorem readFour_writeFour (a v : Word) (s : State) : readFour a (writeFour a v s) = .next v := by
  obtain ⟨h0, h1, h2, h3⟩ := read_writeFour a v s
  rw [readFour_of_some h0 h1 h2 h3, wordOfBytes_fields]

/-- Settles O59: the four-byte read is the word of its bytes, and a word store leaves the word's bytes in their order. -/
theorem storedWordReadsBack : Obligations.StoredWordReadsBack := by
  refine ⟨fun adr s b0 b1 b2 b3 => readFour_of_some, fun adr v s => ?_⟩
  obtain ⟨h0, h1, h2, h3⟩ := read_writeFour adr v s
  exact ⟨readFour_writeFour adr v s, readByte_eq_next.2 h0, readByte_eq_next.2 h1, readByte_eq_next.2 h2, readByte_eq_next.2 h3⟩

/-! ### The stored instruction -/

/-- The opcode field of an instruction's word is its opcode (30_encoding.md R76). -/
@[simp] theorem opcodeField_encode (i : Instr) : opcodeField (encode i) = i.opcode := by
  cases i <;> exact opcodeField_append _ _ _ _

/-- The raw fields of an instruction's word hold its operands: its mnemonic assembles them to it (30_encoding.md R57, R76). -/
theorem assemble_fields_encode (i : Instr) :
    i.mnemonic.assemble (field1 (encode i)) (field2 (encode i)) (field3 (encode i)) = i := by
  cases i <;> simp [Instr.mnemonic, Mnemonic.assemble, encode, wordOf]

/-- The raw fields of a well-formed instruction's word pass the check of its format. -/
theorem fieldsOk_encode {i : Instr} (h : i.wf = true) :
    i.format.fieldsOk (field1 (encode i)) (field2 (encode i)) (field3 (encode i)) = true := by
  rw [← assemble_fields_encode i, wf_assemble] at h
  rwa [← (opcode_of_map (opcodeMap_opcode i)).2]

/-- A well-formed instruction's word decodes to it (30_encoding.md R76). -/
theorem decode_encode {i : Instr} (h : i.wf = true) : decode (encode i) = .ok i := by
  simp only [decode, opcodeField_encode, opcodeMap_opcode, fieldsOk_encode h, if_true, assemble_fields_encode]

/-- The load of a whole word from outside: a four-byte store at pc, and the status running (log 18). -/
theorem State.withFetchWord_toNat (s : State) (w : Word) :
    s.withFetchWord 32 w.toNat = (writeFour s.pc w s).setStatus .running := by
  rw [State.withFetchWord, placeInstr, Nat.mod_eq_of_lt w.isLt, BitVec.ofNat_toNat, BitVec.setWidth_eq]

/-- The fetch reads the word placed at pc (20_memory.md R52). -/
theorem fetch_withFetchWord {s : State} {w : Word} {i : Instr} (h : decode w = .ok i) :
    fetch (s.withFetchWord 32 w.toNat) = .next i := by
  rw [State.withFetchWord_toNat]
  obtain ⟨h0, h1, h2, h3⟩ := read_writeFour s.pc w s
  have hw : opcodeField w ++ field1 w ++ field2 w ++ field3 w = w := wordOfBytes_fields w
  rw [fetch_of_some (s := (writeFour s.pc w s).setStatus .running) h0 h1 h2 h3, hw, h]

/-- A running machine's step executes the instruction it fetches (40_lifter_ir.md R99). -/
theorem step_of_fetch {s : State} {i : Instr} (hrun : s.status = .running) (h : fetch s = .next i) : step s = exec i s := by
  unfold step
  rw [hrun, h]
  rfl

/-- Settles O51: the placed word is fetched, it decodes to the instruction, and the machine runs. -/
theorem storedInstructionIsRun : Obligations.StoredInstructionIsRun := by
  intro i s hwf
  refine step_of_fetch ?_ (fetch_withFetchWord (decode_encode hwf))
  rw [State.withFetchWord_toNat, State.setStatus_status]

/-! ### The container -/

/-- Two bytes are the codes of one character only when they are equal: every byte is a character's code. -/
theorem charOfByte_injective : Function.Injective fun b : Byte => Char.ofNat b.toNat := by
  intro a b h
  have hvalid (c : Byte) : c.toNat.isValidChar := .inl (by omega)
  have hnat := congrArg Char.toNat h
  rw [Char.toNat_ofNat, Char.toNat_ofNat, if_pos (hvalid a), if_pos (hvalid b)] at hnat
  exact BitVec.eq_of_toNat_eq hnat

/-- The stated magic is the characters RGVM (20_memory.md R45). -/
theorem containerMagic_chars : containerMagic.toList.map (fun b => Char.ofNat b.toNat) = "RGVM".toList := by decide

/-- A header bears the stated magic exactly when its magic's bytes are the characters RGVM. -/
theorem ContainerHeader.hasMagic_iff (h : ContainerHeader) :
    h.hasMagic = true ↔ h.magic.toList.map (fun b => Char.ofNat b.toNat) = "RGVM".toList := by
  rw [ContainerHeader.hasMagic, decide_eq_true_iff, ← containerMagic_chars, charOfByte_injective.list_map.eq_iff, Vector.toList_inj]

/-- The one check on a container (20_memory.md R46). -/
theorem parseContainer_isSome {file : List Byte} : (parseContainer file).isSome = true ↔
    24 ≤ file.length ∧ file.length = 24 + (containerHeader file).codeSize.toNat + (containerHeader file).dataSize.toNat := by
  simp [parseContainer]

/-- A file shorter than a header is rejected. -/
theorem parseContainer_of_short {file : List Byte} (h : file.length < 24) : parseContainer file = none :=
  if_neg fun hc => absurd hc.1 (by omega)

/-- An accepted file is its header, then the code and then the data, each of its stated size (20_memory.md R45). -/
theorem parseContainer_eq_some {file : List Byte} {c : Container} (h : parseContainer file = some c) :
    c.header = containerHeader file ∧ file.drop 24 = c.code ++ c.data ∧
    c.code.length = (containerHeader file).codeSize.toNat ∧ c.data.length = (containerHeader file).dataSize.toNat := by
  obtain ⟨-, hlen⟩ := parseContainer_isSome.1 (Option.isSome_of_eq_some h)
  obtain ⟨-, hc⟩ := Option.ite_some_none_eq_some.1 h
  subst hc
  refine ⟨rfl, ?_, ?_, ?_⟩
  · rw [← List.drop_drop, List.take_of_length_le (l := (file.drop 24).drop _) (by simp only [List.length_drop]; omega),
      List.take_append_drop]
  · simp only [List.length_take, List.length_drop]; omega
  · simp only [List.length_take, List.length_drop]; omega

/-- Settles O60: the header's fields are the bytes at their offsets, and the check compares what follows them with the two sizes. -/
theorem containerAcceptedExactly : Obligations.ContainerAcceptedExactly := by
  refine ⟨?_, fun file => parseContainer_of_short⟩
  intro m0 m1 m2 m3 v0 v1 r0 r1 e0 e1 e2 e3 c0 c1 c2 c3 d0 d1 d2 d3 q0 q1 q2 q3 rest file hfile
  have hlen : file.length = 24 + rest.length := by rw [hfile, List.length_append]; rfl
  have hcode : (containerHeader file).codeSize = c3 ++ c2 ++ c1 ++ c0 := by rw [hfile]; rfl
  have hdata : (containerHeader file).dataSize = d3 ++ d2 ++ d1 ++ d0 := by rw [hfile]; rfl
  refine ⟨?_, ?_, ?_, fun c hc => ?_⟩
  · rw [hfile]
    exact ⟨rfl, rfl, rfl, rfl, rfl, rfl, rfl⟩
  · rw [hfile]
    exact ContainerHeader.hasMagic_iff _
  · rw [parseContainer_isSome, hlen, hcode, hdata]
    omega
  · have hrest : file.drop 24 = rest := by rw [hfile]; rfl
    rw [← hrest, ← hcode, ← hdata]
    exact parseContainer_eq_some hc

end Sys2Proof.Machine
end

section
/-! PROOFS. The family of 30_encoding.md: the encoder and the decoder (O1 to O7) and the formatter (O10). Before each, the laws of the
model's functions that it needs. -/

namespace Sys2Proof.Machine

/-! ### The opcode map -/

/-- The map holds no entry exactly at the listed bytes (30_encoding.md R71), each of the 256 bytes looked up. -/
theorem opcodeMap_eq_none {b : Byte} : opcodeMap b = none ↔ unmappedByte b.toNat := by
  have key : ∀ c : Fin 256, opcodeMap (BitVec.ofFin c) = none ↔ unmappedByte c := by
    unfold unmappedByte
    decide +kernel
  exact key b.toFin

/-- The opcode byte of the instruction that a mnemonic assembles is the one byte the map gives the mnemonic (30_encoding.md R70 (a)). -/
theorem exists_byte_of_mnemonic (m : Mnemonic) :
    ∃ b, (∃ f, opcodeMap b = some (m, f)) ∧ ∀ b' f, opcodeMap b' = some (m, f) → b' = b := by
  refine ⟨(m.assemble 0 0 0).opcode, ⟨(m.assemble 0 0 0).format, ?_⟩, fun b' f h => (opcode_of_map h).1.symm⟩
  rw [opcodeMap_opcode, mnemonic_assemble]

/-- Settles O5: each mapped byte is the opcode of the instruction its mnemonic assembles, with that instruction's format. -/
theorem opcodeMapMeetsSourceConstraints : Obligations.OpcodeMapMeetsSourceConstraints where
  oneByteEach := exists_byte_of_mnemonic
  add := rfl
  set := rfl
  unmapped := rfl
  formats _ _ _ h := (opcode_of_map h).2.symm

/-! ### What decode can answer -/

/-- Decode at an unmapped opcode byte. -/
theorem decode_of_unmapped {w : Word} (h : opcodeMap (opcodeField w) = none) : decode w = .error .unknownOpcode := by
  simp only [decode, h]

/-- Decode at a mapped opcode byte whose format's check fails. -/
theorem decode_of_invalid {w : Word} {m : Mnemonic} {f : Format} (h : opcodeMap (opcodeField w) = some (m, f))
    (hf : f.fieldsOk (field1 w) (field2 w) (field3 w) = false) : decode w = .error .invalidRegisterField := by
  simp only [decode, h, hf, Bool.false_eq_true, if_false]

/-- Decode at a mapped opcode byte whose format's check passes. -/
theorem decode_of_valid {w : Word} {m : Mnemonic} {f : Format} (h : opcodeMap (opcodeField w) = some (m, f))
    (hf : f.fieldsOk (field1 w) (field2 w) (field3 w) = true) :
    decode w = .ok (m.assemble (field1 w) (field2 w) (field3 w)) := by
  simp only [decode, h, hf, if_true]

/-- The three branches of the decoder's algorithm (30_encoding.md R73). -/
theorem decode_cases (w : Word) :
    opcodeMap (opcodeField w) = none ∨
    (∃ m f, opcodeMap (opcodeField w) = some (m, f) ∧ f.fieldsOk (field1 w) (field2 w) (field3 w) = false) ∨
    ∃ m f, opcodeMap (opcodeField w) = some (m, f) ∧ f.fieldsOk (field1 w) (field2 w) (field3 w) = true := by
  rcases hmap : opcodeMap (opcodeField w) with _ | ⟨m, f⟩
  · exact .inl rfl
  · cases hf : f.fieldsOk (field1 w) (field2 w) (field3 w)
    · exact .inr (.inl ⟨m, f, rfl, hf⟩)
    · exact .inr (.inr ⟨m, f, rfl, hf⟩)

/-- UnknownOpcode is the unmapped opcode byte (30_encoding.md R72 (a)). -/
theorem decode_eq_unknownOpcode {w : Word} : decode w = .error .unknownOpcode ↔ opcodeMap (opcodeField w) = none := by
  refine ⟨fun h => ?_, decode_of_unmapped⟩
  obtain hmap | ⟨m, f, hmap, hf⟩ | ⟨m, f, hmap, hf⟩ := decode_cases w
  · exact hmap
  · rw [decode_of_invalid hmap hf] at h; cases h
  · rw [decode_of_valid hmap hf] at h; cases h

/-- InvalidRegisterField is a mapped opcode byte whose format's check fails (30_encoding.md R72 (b)). -/
theorem decode_eq_invalidRegisterField {w : Word} : decode w = .error .invalidRegisterField ↔
    ∃ m f, opcodeMap (opcodeField w) = some (m, f) ∧ f.fieldsOk (field1 w) (field2 w) (field3 w) = false := by
  refine ⟨fun h => ?_, fun ⟨m, f, hmap, hf⟩ => decode_of_invalid hmap hf⟩
  obtain hmap | hinvalid | ⟨m, f, hmap, hf⟩ := decode_cases w
  · rw [decode_of_unmapped hmap] at h; cases h
  · exact hinvalid
  · rw [decode_of_valid hmap hf] at h; cases h

/-- A word decodes exactly when its opcode byte is mapped and its format's check passes, to what the mnemonic assembles. -/
theorem decode_eq_ok {w : Word} {i : Instr} : decode w = .ok i ↔
    ∃ m f, opcodeMap (opcodeField w) = some (m, f) ∧ f.fieldsOk (field1 w) (field2 w) (field3 w) = true ∧
      m.assemble (field1 w) (field2 w) (field3 w) = i := by
  constructor
  · intro h
    obtain hmap | ⟨m, f, hmap, hf⟩ | ⟨m, f, hmap, hf⟩ := decode_cases w
    · rw [decode_of_unmapped hmap] at h; cases h
    · rw [decode_of_invalid hmap hf] at h; cases h
    · rw [decode_of_valid hmap hf] at h; cases h
      exact ⟨m, f, hmap, hf, rfl⟩
  · rintro ⟨m, f, hmap, hf, rfl⟩
    exact decode_of_valid hmap hf

/-- A whole word is never truncated. -/
theorem decode_ne_truncatedInput (w : Word) : decode w ≠ .error .truncatedInput := by
  obtain hmap | ⟨m, f, hmap, hf⟩ | ⟨m, f, hmap, hf⟩ := decode_cases w
  · rw [decode_of_unmapped hmap]; exact nofun
  · rw [decode_of_invalid hmap hf]; exact nofun
  · rw [decode_of_valid hmap hf]; exact nofun

/-- What decode returns is well-formed (30_encoding.md R75). -/
theorem wf_of_decode {w : Word} {i : Instr} (h : decode w = .ok i) : i.wf = true := by
  obtain ⟨m, f, hmap, hf, rfl⟩ := decode_eq_ok.1 h
  rwa [wf_assemble, (opcode_of_map hmap).2]

/-- What decode returns has the word's opcode. -/
theorem opcode_of_decode {w : Word} {i : Instr} (h : decode w = .ok i) : i.opcode = opcodeField w := by
  obtain ⟨m, f, hmap, hf, rfl⟩ := decode_eq_ok.1 h
  rw [opcode_assemble, (opcode_of_map hmap).1]

/-- Settles O1: the encoder's fields pass the check and the instruction's mnemonic assembles them to it. -/
theorem encodeThenDecodeReturnsInstr : Obligations.EncodeThenDecodeReturnsInstr :=
  fun _ => decode_encode

/-- Settles O2: the decoder's check is well-formedness, and a well-formed instruction's word decodes to it. -/
theorem decodedInstrIsWellFormed : Obligations.DecodedInstrIsWellFormed :=
  fun _ _ h => ⟨wf_of_decode h, opcode_of_decode h, decode_encode (wf_of_decode h)⟩

/-- Settles O3: UnknownOpcode is the map's missing entry, which the listed bytes alone have. -/
theorem unknownOpcodeExactlyUnmapped : Obligations.UnknownOpcodeExactlyUnmapped :=
  fun _ => decode_eq_unknownOpcode.trans opcodeMap_eq_none

/-- Settles O4: a format's check fails exactly when one of its register operands is above 0x24. -/
theorem decodeFailsInExactlyTwoCases : Obligations.DecodeFailsInExactlyTwoCases := by
  refine fun w => ⟨decode_eq_unknownOpcode, ?_, decode_ne_truncatedInput w⟩
  simp only [decode_eq_invalidRegisterField, fieldsOk_eq_false, exists_and_left]

/-! ### Ignored fields -/

/-- Raw fields that give a format the same operand tuple pass its check alike: the check looks at the tuple's registers alone. -/
theorem fieldsOk_congr {f : Format} {a1 a2 a3 b1 b2 b3 : Byte} (h : f.operands a1 a2 a3 = f.operands b1 b2 b3) :
    f.fieldsOk a1 a2 a3 = f.fieldsOk b1 b2 b3 := by
  rw [Bool.eq_iff_iff, ← not_iff_not, Bool.not_eq_true, Bool.not_eq_true, fieldsOk_eq_false, fieldsOk_eq_false, h]

/-- Raw fields that give a mnemonic's format the same operand tuple assemble to the same instruction. -/
theorem assemble_congr {m : Mnemonic} {a1 a2 a3 b1 b2 b3 : Byte}
    (h : (m.assemble 0 0 0).format.operands a1 a2 a3 = (m.assemble 0 0 0).format.operands b1 b2 b3) :
    m.assemble a1 a2 a3 = m.assemble b1 b2 b3 := by
  rw [← operands_assemble, ← operands_assemble] at h
  have ha := mnemonic_instr? (m.assemble a1 a2 a3)
  have hb := mnemonic_instr? (m.assemble b1 b2 b3)
  rw [mnemonic_assemble] at ha hb
  exact Option.some.inj (ha.symm.trans (h ▸ hb))

/-- Decode depends on the raw fields only through the operand tuple of the opcode's format (30_encoding.md R67). -/
theorem decode_append_congr {op a1 a2 a3 b1 b2 b3 : Byte} {f : Format} (hop : (opcodeMap op).map Prod.snd = some f)
    (h : f.operands a1 a2 a3 = f.operands b1 b2 b3) : decode (op ++ a1 ++ a2 ++ a3) = decode (op ++ b1 ++ b2 ++ b3) := by
  obtain ⟨⟨m, g⟩, hmap, rfl⟩ := Option.map_eq_some_iff.1 hop
  obtain ⟨-, rfl⟩ := opcode_of_map hmap
  rw [decode_of_map _ _ _ _ hmap, decode_of_map _ _ _ _ hmap, fieldsOk_congr h, assemble_congr h]

/-- Settles O6: the formats of the three lists take no operand from the fields in which the two words differ. -/
theorem ignoredFieldsDoNotMatter : Obligations.IgnoredFieldsDoNotMatter := by
  have hnone : ∀ op ∈ [(0x00 : Byte), 0x2B, 0xFF], (opcodeMap op).map Prod.snd = some .none := by decide
  have hreg : ∀ op ∈ [(0x21 : Byte), 0x2A], (opcodeMap op).map Prod.snd = some .reg := by decide
  have hregReg : ∀ op ∈ [(0x06 : Byte), 0x0C, 0x42], (opcodeMap op).map Prod.snd = some .regReg := by decide
  refine ⟨?_, ?_, ?_, by decide, by decide⟩
  · intro op hop a1 a2 a3 b1 b2 b3
    exact decode_append_congr (hnone op hop) rfl
  · intro op hop a1 a2 a3 b2 b3
    exact decode_append_congr (hreg op hop) rfl
  · intro op hop a1 a2 a3 b3
    exact decode_append_congr (hregReg op hop) rfl

/-! ### The record and the decode port -/

/-- The record of the instruction a mapped mnemonic assembles: the opcode byte, its entry, and the format's operand tuple. -/
theorem record_assemble {b a1 a2 a3 : Byte} {m : Mnemonic} {f : Format} (h : opcodeMap b = some (m, f)) :
    (m.assemble a1 a2 a3).record = ⟨b, f, m, f.operands a1 a2 a3⟩ := by
  obtain ⟨rfl, rfl⟩ := opcode_of_map h
  rw [Instr.record, opcode_assemble, format_assemble, mnemonic_assemble, operands_assemble]

/-- The record decoder is the instruction decoder with the record of what that returns. -/
theorem decodeRecord_eq_map (w : Word) : decodeRecord w = (decode w).map Instr.record := by
  obtain hmap | ⟨m, f, hmap, hf⟩ | ⟨m, f, hmap, hf⟩ := decode_cases w
  · rw [decode_of_unmapped hmap, decodeRecord, hmap]
    rfl
  · rw [decode_of_invalid hmap hf]
    simp only [decodeRecord, hmap, hf, Bool.false_eq_true, if_false, Except.map]
  · rw [decode_of_valid hmap hf]
    simp only [decodeRecord, hmap, hf, if_true, Except.map, record_assemble hmap]

/-- The two decoders give the same errors. -/
theorem decodeRecord_eq_error {w : Word} {e : DecodeError} : decodeRecord w = .error e ↔ decode w = .error e := by
  rw [decodeRecord_eq_map]
  cases decode w <;> simp [Except.map]

/-- The record decoder returns the record of the decoded instruction. -/
theorem decodeRecord_of_decode {w : Word} {i : Instr} (h : decode w = .ok i) : decodeRecord w = .ok i.record := by
  rw [decodeRecord_eq_map, h]
  rfl

/-- An instruction has as many operands as its format says (30_encoding.md R57). -/
theorem operands_length (i : Instr) : i.operands.length = i.format.operandCount := by cases i <;> rfl

/-- The slots of a well-formed instruction's operands carry them, one each. -/
theorem slots_carry_operands {i : Instr} (h : i.wf = true) : List.Forall₂ SlotCarries (i.operands.map slotOf) i.operands := by
  rw [List.forall₂_map_left_iff, List.forall₂_same]
  intro o ho
  exact slotOf_carries fun r hr => wf_iff_regs.1 h r (hr ▸ ho)

/-- The decode port at a word that decodes drives the fields of the instruction's record (10_state.md R26). -/
theorem decodePort_of_decode {w : Word} {i : Instr} (h : decode w = .ok i) :
    decodePort w = .ok (opcodeField w) i.format.code i.mnemonic i.format.operandCount
      (i.operands.map slotOf)[0]? (i.operands.map slotOf)[1]? (i.operands.map slotOf)[2]? := by
  rw [decodePort, decodeRecord_of_decode h, ← opcode_of_decode h, ← operands_length]
  rfl

/-- Settles O7: the record decoder is decode with the record taken, and the port drives that record, its operands in their slots. -/
theorem decodeRecordIsRecordOfDecode : Obligations.DecodeRecordIsRecordOfDecode := by
  refine fun w => ⟨fun _ => decodeRecord_eq_error, fun i h => ⟨decodeRecord_of_decode h, ?_, ?_⟩⟩
  · exact Decoded.instr?_eq_some.2 ⟨rfl, rfl⟩
  · exact ⟨i.operands.map slotOf, slots_carry_operands (wf_of_decode h), by rw [List.length_map, operands_length],
      decodePort_of_decode h⟩

/-! ### The formatter -/

/-- Operands with no register out of range have one token each, the right one. -/
theorem exists_tokens_of_operands : ∀ {os : List Operand}, (∀ r, Operand.reg r ∈ os → r.toNat ≤ 0x24) →
    ∃ ts, os.mapM operandToken = some ts ∧ List.Forall₂ IsToken os ts
  | [], _ => ⟨[], rfl, .nil⟩
  | o :: os, h => by
    obtain ⟨t, ht⟩ := Option.isSome_iff_exists.1 (operandToken_isSome.2 fun r hr => h r (hr ▸ List.mem_cons_self))
    obtain ⟨ts, hts, htokens⟩ := exists_tokens_of_operands fun r hr => h r (List.mem_cons_of_mem o hr)
    refine ⟨t :: ts, ?_, .cons (operandToken_isToken ht) htokens⟩
    rw [List.mapM_cons, ht, hts]
    rfl

/-- The tokens of a well-formed instruction's record: the mnemonic's text and one token for each operand (30_encoding.md R80). -/
theorem exists_formatTokens_record {i : Instr} (h : i.wf = true) : ∃ tokens, List.Forall₂ IsToken i.operands tokens ∧
    formatTokens (some i.record) = mnemonicText i.mnemonic :: tokens := by
  obtain ⟨tokens, hmapM, htokens⟩ := exists_tokens_of_operands (wf_iff_regs.1 h)
  refine ⟨tokens, htokens, ?_⟩
  have hvalid : validInstr? i.record = some i := validInstr?_eq_some.2 ⟨h, rfl⟩
  simp only [formatTokens, Option.bind_some, hvalid, instrTokens, hmapM, Option.map_some]

/-- The tokens of a record that is no well-formed instruction's are the placeholder (30_encoding.md R81, log 35). -/
theorem formatTokens_of_invalid {d : Decoded} (h : ∀ i : Instr, i.wf = true → d ≠ i.record) :
    formatTokens (some d) = [Config.invalidPlaceholder] := by
  have hnone : validInstr? d = none := by
    refine Option.eq_none_iff_forall_ne_some.2 fun i hi => ?_
    obtain ⟨hwf, hd⟩ := validInstr?_eq_some.1 hi
    exact h i hwf hd
  simp only [formatTokens, Option.bind_some, hnone, Option.bind_none]

/-- Joining by one space puts a space before each token but the first (30_encoding.md R77). -/
theorem intercalate_space (t : List Char) (ts : List (List Char)) :
    [' '].intercalate (t :: ts) = t ++ ts.flatMap (' ' :: ·) := by
  induction ts generalizing t with
  | nil => simp
  | cons u us ih => rw [List.intercalate_cons_cons, ih u]; simp

/-- The text of a single token is the token. -/
theorem formatText_of_single {d : Option Decoded} {t : List Char} (h : formatTokens d = [t]) : formatText d = t := by
  rw [formatText, h, intercalate_space, List.flatMap_nil, List.append_nil]

/-- Settles O10: a well-formed instruction's operands have their tokens, any other record is not valid, and the tokens are joined by a
space. -/
theorem formatterText : Obligations.FormatterText := by
  refine ⟨by decide, fun i h => ?_, rfl, formatText_of_single rfl, fun d h => ?_, by decide, by decide⟩
  · obtain ⟨tokens, htokens, hformat⟩ := exists_formatTokens_record h
    refine ⟨tokens, htokens, hformat, ?_, ?_⟩
    · rw [hformat, List.length_cons, ← htokens.length_eq, operands_length]
    · rw [formatText, hformat, intercalate_space]
  · exact ⟨formatTokens_of_invalid h, formatText_of_single (formatTokens_of_invalid h)⟩

end Sys2Proof.Machine
end

section
/-! PROOFS. The family of 40_lifter_ir.md: the step (O49, O50, O57), what a lifted sequence evaluates to (O11, O12), the register entry
0x20 (O55), and the fallback (O15). Before each, the laws of the model's functions that it needs. -/

namespace Sys2Proof.Machine

/-! ### Going on, and how an evaluation concludes -/

/-- Going on twice is going on once with both continuations. -/
theorem Res.andThen_assoc {α β γ : Type} (r : Res α) (k : α → Res β) (l : β → Res γ) :
    (r.andThen k).andThen l = r.andThen fun a => (k a).andThen l := by
  cases r <;> rfl

/-- The evaluation state after a result, every fault and refusal being a status: as the evaluation of a sequence ends
(40_lifter_ir.md R96), where `State.settle` leaves a stuck machine as it is. -/
def State.conclude (s : State) : Res State → State
  | .next t => t
  | .fault e => s.setStatus (.fault e)
  | .refused e => s.setStatus (.refused e)

@[simp] theorem State.conclude_next (s t : State) : s.conclude (.next t) = t := rfl
@[simp] theorem State.conclude_fault (s : State) (e : Fault) : s.conclude (.fault e) = s.setStatus (.fault e) := rfl
@[simp] theorem State.conclude_refused (s : State) (e : Refusal) : s.conclude (.refused e) = s.setStatus (.refused e) := rfl

/-- A stop that is no stuck machine's settles as it concludes. -/
theorem State.settle_eq_conclude (s : State) {r : Res State} (hhalt : r ≠ .fault .stuckHalted)
    (hsys : ∀ c, r ≠ .fault (.stuckSyscall c)) : s.settle r = s.conclude r := by
  cases r with
  | next t => rfl
  | refused e => rfl
  | fault e =>
    cases e with
    | stuckHalted => exact absurd rfl hhalt
    | stuckSyscall c => exact absurd rfl (hsys c)
    | illegalInstruction _ | unwrittenRead _ | divideByZero | misalignedAccess _ => rfl

/-- An instruction never reports a stuck machine, so its result settles as it concludes. -/
theorem settle_exec (i : Instr) (s : State) : s.settle (exec i s) = s.conclude (exec i s) :=
  s.settle_eq_conclude (fun h => nomatch exec_faulted h) (fun _ h => nomatch exec_faulted h)

/-! ### The evaluation of expressions -/

/-- No expression writes state (40_lifter_ir.md R94): only the model's count of draws may differ. -/
theorem evalExpr_state {w : Width} {e : Expr w} {s : State} {p : w.Val × State} (h : evalExpr e s = .next p) :
    ∃ n, p.2 = s.setDraws n := by
  induction e generalizing s with
  | reg | temp =>
    simp only [evalExpr, Res.andThen_eq_next, Host.Outcome.next.injEq] at h
    obtain ⟨_, -, rfl⟩ := h
    exact ⟨s.draws, rfl⟩
  | const | constPtr =>
    cases h
    exact ⟨s.draws, rfl⟩
  | bin op a b iha ihb =>
    simp only [evalExpr, Res.andThen_eq_next, Host.Outcome.next.injEq] at h
    obtain ⟨p, ha, q, hb, v, -, rfl⟩ := h
    obtain ⟨m, hm⟩ := iha ha
    obtain ⟨n, hn⟩ := ihb hb
    exact ⟨n, by rw [hn, hm]; rfl⟩
  | cmp op a b iha ihb =>
    simp only [evalExpr, Res.andThen_eq_next, Host.Outcome.next.injEq] at h
    obtain ⟨p, ha, q, hb, rfl⟩ := h
    obtain ⟨m, hm⟩ := iha ha
    obtain ⟨n, hn⟩ := ihb hb
    exact ⟨n, by rw [hn, hm]; rfl⟩
  | shift k a c iha ihc =>
    simp only [evalExpr, Res.andThen_eq_next, Host.Outcome.next.injEq] at h
    obtain ⟨p, ha, q, hc, rfl⟩ := h
    obtain ⟨l, hl⟩ := iha ha
    obtain ⟨m, hm⟩ := ihc hc
    obtain ⟨n, hn⟩ := shiftBy_state k p.1 q.1 q.2
    exact ⟨n, by rw [hn, hm, hl]; rfl⟩
  | un _ a ih | boolToInt a ih | zeroExt a ih | low8 a ih =>
    simp only [evalExpr, Res.andThen_eq_next, Host.Outcome.next.injEq] at h
    obtain ⟨p, ha, rfl⟩ := h
    obtain ⟨n, hn⟩ := ih ha
    exact ⟨n, hn⟩
  | load4 a ih | load1 a ih =>
    simp only [evalExpr, Res.andThen_eq_next, Host.Outcome.next.injEq] at h
    obtain ⟨p, ha, _, -, rfl⟩ := h
    obtain ⟨n, hn⟩ := ih ha
    exact ⟨n, hn⟩

/-! ### The fetch -/

/-- What a fetched word comes to: its instruction, or the fault that names the decoder's error (40_lifter_ir.md R99, step 2). -/
def decodeFetched (x : Word) : Res Instr :=
  match decode x with
  | .ok i => .next i
  | .error e => .fault (.illegalInstruction e)

/-- The fetch reads the four bytes at pc as a data access does, but for the alignment rule, and decodes their word. -/
theorem fetch_eq_readFour (s : State) : fetch s = (readFour s.pc s).andThen decodeFetched := by
  simp only [fetch, fetchBytes, readFour, Res.andThen_assoc, Res.andThen_next]
  rfl

/-- A running machine's step faults where its fetch does. -/
theorem step_of_fetch_fault {s : State} {e : Fault} (hrun : s.status = .running) (h : fetch s = .fault e) : step s = .fault e := by
  unfold step
  rw [hrun, h]
  rfl

/-- Settles O49: the four bytes are fetched as the word's instruction, which the step runs. -/
theorem stepRunsDecodedInstr : Obligations.StepRunsDecodedInstr := by
  intro s b0 b1 b2 b3 i hrun h0 h1 h2 h3 hdec
  refine step_of_fetch hrun ?_
  rw [fetch_of_some h0 h1 h2 h3, hdec]

/-- Settles O50: the fetch faults on the decoder's error, and on an unwritten byte as the four-byte read does. -/
theorem stepFetchFaults : Obligations.StepFetchFaults := by
  refine fun s hrun => ⟨fun b0 b1 b2 b3 e h0 h1 h2 h3 hdec => ?_, fun hn => ?_⟩
  · refine step_of_fetch_fault hrun ?_
    rw [fetch_of_some h0 h1 h2 h3, hdec]
  · obtain ⟨k, hk, hkn, hfour⟩ := readFour_of_unwritten hn
    refine ⟨k, hk, hkn, step_of_fetch_fault hrun ?_⟩
    rw [fetch_eq_readFour, hfour, Res.andThen_fault]

/-! ### Sequences that realise a meaning -/

/-- From `s`, the sequence, or the fallback where there is none, evaluates to the state that the meaning `m` concludes to; `op` is the
opcode that the fallback's refusal names. -/
def Realizes (ops : Option (List IrOp)) (op : Byte) (s : State) (m : Res State) : Prop :=
  evalSeq (ops.getD [.unimplemented]) s.pc op s = s.conclude m

/-- A sequence that depends on a register field realises what goes on with the register, if it does so for every register; a field out of
range is the fallback's refusal (40_lifter_ir.md R84 (b)). -/
theorem Realizes.bind_regId? {f : Byte} {k : RegId → Option (List IrOp)} {op : Byte} {s : State} {m : RegId → Res State}
    (ht : s.temps = []) (h : ∀ a, Realizes (k a) op s (m a)) : Realizes ((regId? f).bind k) op s (withReg op f m) := by
  obtain ⟨hf, -⟩ | ⟨a, hf, -⟩ := regId?_cases f
  · rw [withReg_of_none hf, hf]
    exact evalSeq_unimplemented s.pc op ht
  · rw [withReg_of_some hf, hf]
    exact h a

/-- A sequence over one register. -/
theorem Realizes.of_lift1 {f : Byte} {k : RegId → List IrOp} {op : Byte} {s : State} {m : RegId → Res State} (ht : s.temps = [])
    (h : ∀ a, Realizes (some (k a)) op s (m a)) : Realizes (lift1 f k) op s (withReg op f m) := by
  rw [lift1, Option.map_eq_bind]
  exact bind_regId? ht h

/-- A sequence over two registers. -/
theorem Realizes.of_lift2 {f1 f2 : Byte} {k : RegId → RegId → List IrOp} {op : Byte} {s : State} {m : RegId → RegId → Res State}
    (ht : s.temps = []) (h : ∀ a b, Realizes (some (k a b)) op s (m a b)) :
    Realizes (lift2 f1 f2 k) op s (withReg op f1 fun a => withReg op f2 (m a)) :=
  bind_regId? ht fun a => of_lift1 ht (h a)

/-- A sequence over three registers. -/
theorem Realizes.of_lift3 {f1 f2 f3 : Byte} {k : RegId → RegId → RegId → List IrOp} {op : Byte} {s : State}
    {m : RegId → RegId → RegId → Res State} (ht : s.temps = []) (h : ∀ a b c, Realizes (some (k a b c)) op s (m a b c)) :
    Realizes (lift3 f1 f2 f3 k) op s (withReg op f1 fun a => withReg op f2 fun b => withReg op f3 (m a b)) :=
  bind_regId? ht fun a => of_lift2 ht (h a)

/-- One operation after which the sequence goes on realises its effect and then the sequential successor. -/
theorem Realizes.onward {x : IrOp} {op : Byte} {s : State} {r : Res State} (ht : s.temps = [])
    (hx : evalOp s.pc op x s = r.andThen fun t => .next (.onward t))
    (hr : ∀ t, r = .next t → t.pc = s.pc ∧ t.temps = []) : Realizes (some [x]) op s (r.andThen fallThrough) := by
  simp only [Realizes, Option.getD_some, evalSeq, s.setTemps_nil_of_nil ht, List.length_singleton, evalOps, hx]
  cases r with
  | next t =>
    obtain ⟨hpc, htemps⟩ := hr t rfl
    simp only [Res.andThen_next, fallThrough_eq, State.conclude_next, State.setTemps_setPc, t.setTemps_nil_of_nil htemps, hpc]
  | fault e => exact State.setTemps_nil_of_nil _ ht
  | refused e => exact State.setTemps_nil_of_nil _ ht

/-- One operation that stops the sequence realises its effect. -/
theorem Realizes.stop {x : IrOp} {op : Byte} {s : State} {r : Res State} (ht : s.temps = [])
    (hx : evalOp s.pc op x s = r.andThen fun t => .next (.stop t)) (hr : ∀ t, r = .next t → t.temps = []) :
    Realizes (some [x]) op s r := by
  simp only [Realizes, Option.getD_some, evalSeq, s.setTemps_nil_of_nil ht, List.length_singleton, evalOps, hx]
  cases r with
  | next t => exact t.setTemps_nil_of_nil (hr t rfl)
  | fault e => exact State.setTemps_nil_of_nil _ ht
  | refused e => exact State.setTemps_nil_of_nil _ ht

/-- A register result at the end of a sequence: `e` is evaluated, the register written, and the sequence ends at the sequential
successor. Nothing but local labels and gotos to the end may follow, which `hend` says. -/
theorem evalOps_setReg_of_end {whole rest : List IrOp} {fuel : Nat} (a : RegId) (e : Expr .word) {op : Byte} {s : State}
    (ht : s.temps = []) (hend : ∀ t, evalOps whole s.pc op fuel rest t = t.setPc (s.pc + 4)) :
    (evalOps whole s.pc op (fuel + 1) (.setReg a e :: rest) s).setTemps [] =
      s.conclude ((evalExpr e s).andThen fun p => setRegNext a p.1 p.2) := by
  have hstop (v : Status) : (s.setStatus v).setTemps [] = s.setStatus v := State.setTemps_nil_of_nil _ ht
  simp only [evalOps, evalOp]
  cases he : evalExpr e s with
  | fault r => exact hstop _
  | refused r => exact hstop _
  | next p =>
    obtain ⟨n, hn⟩ := evalExpr_state he
    by_cases ha : a = pcReg
    · simp only [Res.andThen_next, ha, writeReg_eq_refused.2 ⟨rfl, rfl⟩, setRegNext_pc, Res.andThen_refused]
      exact hstop _
    · simp only [Res.andThen_next, writeReg_eq_next.2 ⟨ha, rfl⟩, setRegNext_of_ne ha, State.conclude_next, hend, hn]
      exact State.setTemps_nil_of_nil _ ht

/-- `SetReg(rA, e)` alone realises the evaluation of `e`, the write of rA and the sequential successor. -/
theorem Realizes.setReg (a : RegId) (e : Expr .word) {op : Byte} {s : State} (ht : s.temps = []) :
    Realizes (some [.setReg a e]) op s ((evalExpr e s).andThen fun p => setRegNext a p.1 p.2) := by
  rw [Realizes, evalSeq, s.setTemps_nil_of_nil ht]
  exact evalOps_setReg_of_end a e ht fun t => by rw [evalOps]

/-! ### The sequences of the forms -/

/-- The form reg+reg+reg: `SetReg(rA, e)` where `e` reads rB, then rC, and computes. -/
theorem Realizes.regRegReg {rA rB rC : Byte} {e : RegId → RegId → Expr .word} {f : Word → Word → Res Word} {op : Byte} {s : State}
    (ht : s.temps = []) (he : ∀ b c, evalExpr (e b c) s =
      (readReg b s).andThen fun vb => (readReg c s).andThen fun vc => (f vb vc).andThen fun v => .next (v, s)) :
    Realizes (lift3 rA rB rC fun a b c => [.setReg a (e b c)]) op s (regRegRegOp op rA rB rC f s) := by
  refine .of_lift3 ht fun a b c => ?_
  have h := Realizes.setReg a (e b c) (op := op) ht
  simpa only [he, Res.andThen_assoc, Res.andThen_next] using h

/-- The form reg+reg: `SetReg(rA, e)` where `e` reads rB and computes. -/
theorem Realizes.regReg {rA rB : Byte} {e : RegId → Expr .word} {f : Word → Word} {op : Byte} {s : State}
    (ht : s.temps = []) (he : ∀ b, evalExpr (e b) s = (readReg b s).andThen fun vb => .next (f vb, s)) :
    Realizes (lift2 rA rB fun a b => [.setReg a (e b)]) op s (regRegOp op rA rB f s) := by
  refine .of_lift2 ht fun a b => ?_
  have h := Realizes.setReg a (e b) (op := op) ht
  simpa only [he, Res.andThen_assoc, Res.andThen_next] using h

/-- The effective address of a load or store, evaluated: its base is read (43_load_store.md R116). -/
theorem evalExpr_eaExpr (b : RegId) (v : Byte) (s : State) :
    evalExpr (eaExpr b v) s = (readReg b s).andThen fun base => .next (effAddr base v, s) := by
  simp only [eaExpr, evalExpr, Res.andThen_assoc, Res.andThen_next, evalBin, effAddr]

/-- A load: `SetReg(rA, e)` where `e` reads memory at the effective address. -/
theorem Realizes.load {rA rB v : Byte} {e : RegId → Expr .word} {access : Word → State → Res Word} {op : Byte} {s : State}
    (ht : s.temps = []) (he : ∀ b, evalExpr (e b) s =
      (evalExpr (eaExpr b v) s).andThen fun p => (access p.1 p.2).andThen fun w => .next (w, p.2)) :
    Realizes (lift2 rA rB fun a b => [.setReg a (e b)]) op s (loadOp op rA rB v access s) := by
  refine .of_lift2 ht fun a b => ?_
  have h := Realizes.setReg a (e b) (op := op) ht
  simpa only [he, evalExpr_eaExpr, Res.andThen_assoc, Res.andThen_next] using h

/-- A store: an operation that reads the base, then the data register, and writes memory. -/
theorem Realizes.store {rA rB v : Byte} {x : RegId → RegId → IrOp} {access : Word → Word → State → Res State} {op : Byte} {s : State}
    (ht : s.temps = []) (hx : ∀ a b, evalOp s.pc op (x a b) s = (readReg b s).andThen fun base =>
      (readReg a s).andThen fun w => (access (effAddr base v) w s).andThen fun t => .next (.onward t))
    (hm : ∀ adr w t, access adr w s = .next t → ∃ m, t = s.setMem m) :
    Realizes (lift2 rA rB fun a b => [x a b]) op s (storeOp op rA rB v access s) := by
  refine .of_lift2 ht fun a b => ?_
  have h := Realizes.onward (x := x a b) (op := op) (s := s)
    (r := (readReg b s).andThen fun base => (readReg a s).andThen fun w => access (effAddr base v) w s) ht
    (by simp only [hx, Res.andThen_assoc]) (by
      intro t hr
      simp only [Res.andThen_eq_next] at hr
      obtain ⟨base, -, w, -, hw⟩ := hr
      obtain ⟨m, rfl⟩ := hm _ _ _ hw
      exact ⟨rfl, ht⟩)
  simpa only [Res.andThen_assoc] using h

/-- `SetReg(rA, op(Reg(rB), Reg(rC)))` realises the form reg+reg+reg with that operation. -/
theorem Realizes.binary {rA rB rC : Byte} {x : BinOp} {op : Byte} {s : State} (ht : s.temps = []) :
    Realizes (lift3 rA rB rC (binarySeq x)) op s (regRegRegOp op rA rB rC (evalBin x) s) :=
  .regRegReg ht fun b c => by simp only [evalExpr, Res.andThen_assoc, Res.andThen_next]

/-- Two comparisons subtracted realise a three-way comparison: each source is read twice, and the second time as the first. -/
theorem Realizes.compare {rA rB rC : Byte} {gt lt : CmpOp} {op : Byte} {s : State} (ht : s.temps = []) :
    Realizes (lift3 rA rB rC (compareSeq gt lt)) op s (regRegRegOp op rA rB rC
      (fun b c => .next (boolToWord (evalCmp gt b c) - boolToWord (evalCmp lt b c))) s) :=
  .regRegReg ht fun b c => by
    simp only [evalExpr, Res.andThen_assoc, Res.andThen_next, evalBin]
    obtain hb | hb | ⟨vb, hb⟩ := readReg_cases b s
    · simp only [hb, Res.andThen_refused]
    · simp only [hb, Res.andThen_fault]
    · obtain hc | hc | ⟨vc, hc⟩ := readReg_cases c s
      · simp only [hb, hc, Res.andThen_next, Res.andThen_refused]
      · simp only [hb, hc, Res.andThen_next, Res.andThen_fault]
      · simp only [hb, hc, Res.andThen_next]

/-- A shift by fewer than 32 draws nothing (40_lifter_ir.md R95). -/
theorem shiftBy_of_lt {k : ShiftKind} {a c : Word} {s : State} (h : c.toNat < 32) :
    shiftBy k a c s = (shiftBelow32 k a c.toNat, s) := if_pos h

/-- SUP and SIA: `SetReg(rA, e)` where `e` reads rA itself and computes, perhaps drawing. -/
theorem Realizes.readModify {rA : Byte} {e : RegId → Expr .word} {g : Word → Word × State} {op : Byte} {s : State}
    (ht : s.temps = []) (he : ∀ a, evalExpr (e a) s = (readReg a s).andThen fun va => .next (g va)) :
    Realizes (lift1 rA fun a => [.setReg a (e a)]) op s
      (withReg op rA fun a => (readReg a s).andThen fun va => setRegNext a (g va).1 (g va).2) := by
  refine .of_lift1 ht fun a => ?_
  have h := Realizes.setReg a (e a) (op := op) ht
  simpa only [he, Res.andThen_assoc, Res.andThen_next] using h

/-- JMP and CAL: an operation that reads its target from a register and stops the sequence. -/
theorem Realizes.transfer {rA : Byte} {x : RegId → IrOp} {u : Word → State} {op : Byte} {s : State} (ht : s.temps = [])
    (hx : ∀ a, evalOp s.pc op (x a) s = (readReg a s).andThen fun v => .next (.stop (u v))) (hu : ∀ v, (u v).temps = s.temps) :
    Realizes (lift1 rA fun a => [x a]) op s (withReg op rA fun a => (readReg a s).andThen fun v => .next (u v)) := by
  refine .of_lift1 ht fun a => .stop ht ?_ fun t h => ?_
  · simp only [hx, Res.andThen_assoc, Res.andThen_next]
  · obtain ⟨v, -, hv⟩ := Res.andThen_eq_next.1 h
    cases hv
    exact (hu v).trans ht

/-- An operation that is followed by the operations after a local label of its sequence. -/
theorem evalOps_of_afterLabel {whole rest rest' : List IrOp} {address : Word} {op : Byte} {fuel l : Nat} {x : IrOp} {s t : State}
    (hx : evalOp address op x s = .next (.afterLabel l t)) (hl : opsAfterLabel l whole = some rest') :
    evalOps whole address op (fuel + 1) (x :: rest) s = evalOps whole address op fuel rest' t := by
  simp only [evalOps, hx, hl]

/-- An operation whose operand cannot be read ends the evaluation as the read does (60_exceptions.md R144). -/
theorem evalOps_of_readReg_stops {whole rest : List IrOp} {op : Byte} {fuel : Nat} {x : IrOp} {r : RegId} {s : State}
    {k : Word → Res Continue} {m : Word → Res State} (ht : s.temps = []) (hx : evalOp s.pc op x s = (readReg r s).andThen k)
    (hr : ∀ v, readReg r s ≠ .next v) :
    (evalOps whole s.pc op (fuel + 1) (x :: rest) s).setTemps [] = s.conclude ((readReg r s).andThen m) := by
  have hstop (v : Status) : (s.setStatus v).setTemps [] = s.setStatus v := State.setTemps_nil_of_nil _ ht
  simp only [evalOps, hx]
  cases h : readReg r s with
  | next v => exact absurd h (hr v)
  | fault e => exact hstop _
  | refused e => exact hstop _

/-- The explicit two-way branch of BVE and BVN: rB is compared first, and rA read only where the branch is taken (44_control.md R123,
R124). -/
theorem Realizes.branch {rA rB v : Byte} {cmp : CmpOp} {taken : Word → Bool} {op : Byte} {s : State} (ht : s.temps = [])
    (hcmp : ∀ x, evalCmp cmp x (zext8 v) = taken x) :
    Realizes (lift2 rA rB fun a b => branchSeq cmp a b v) op s (branchOp op rA rB taken s) := by
  refine .of_lift2 ht fun a b => ?_
  rw [Realizes, Option.getD_some, evalSeq, s.setTemps_nil_of_nil ht, branchSeq_length]
  have hbranch : evalOp s.pc op (.branch (.cmp cmp (.reg b) (.const (zext8 v))) labelT labelF) s =
      (readReg b s).andThen fun vb => .next (.afterLabel (if taken vb then labelT else labelF) s) := by
    simp only [evalOp, evalExpr, Res.andThen_assoc, Res.andThen_next, hcmp]
  by_cases hb : ∃ vb, readReg b s = .next vb
  · obtain ⟨vb, hvb⟩ := hb
    rw [hvb, Res.andThen_next] at hbranch
    rw [hvb, Res.andThen_next]
    cases hc : taken vb with
    | true =>
      rw [hc] at hbranch
      rw [branchSeq, evalOps_of_afterLabel hbranch (rest' := [.jump (.reg a), .label labelF]) (by simp [opsAfterLabel])]
      simp only [evalOps, evalOp, evalExpr]
      cases readReg a s <;> exact State.setTemps_nil_of_nil _ ht
    | false =>
      rw [hc] at hbranch
      rw [branchSeq, evalOps_of_afterLabel hbranch (rest' := []) (by simp [opsAfterLabel]), evalOps]
      exact State.setTemps_nil_of_nil _ ht
  · exact evalOps_of_readReg_stops ht hbranch fun vb h => hb ⟨vb, h⟩

/-- The explicit two-way branch of LSH and ASH: the count's sign is looked at first, and the arm taken shifts and goes to the end of the
sequence (41_arith_logic.md R110, R111). -/
theorem Realizes.shift {rA rB rC : Byte} {right : ShiftKind} {op : Byte} {s : State} (ht : s.temps = []) :
    Realizes (lift3 rA rB rC (shiftSeq right)) op s (bidirectionalShift right op rA rB rC s) := by
  refine .of_lift3 ht fun a b c => ?_
  rw [Realizes, Option.getD_some, evalSeq, s.setTemps_nil_of_nil ht, shiftSeq_length]
  have hbranch : evalOp s.pc op (.branch (.cmp .sge (.reg c) (.const 0)) labelT labelF) s =
      (readReg c s).andThen fun vc => .next (.afterLabel (if decide (0 ≤ vc.toInt) then labelT else labelF) s) := by
    simp only [evalOp, evalExpr, Res.andThen_assoc, Res.andThen_next, evalCmp, BitVec.ofNat_eq_ofNat, BitVec.toInt_zero]
  by_cases hc : ∃ vc, readReg c s = .next vc
  · obtain ⟨vc, hvc⟩ := hc
    rw [hvc, Res.andThen_next] at hbranch
    rw [hvc, Res.andThen_next]
    by_cases hsign : 0 ≤ vc.toInt
    · rw [if_pos (decide_eq_true hsign)] at hbranch
      rw [shiftSeq, evalOps_of_afterLabel hbranch (rest' := [.setReg a (.shift .shl (.reg b) (.reg c)), .goto (.loc labelE),
        .label labelF, .setReg a (.shift right (.reg b) (.un .neg (.reg c))), .label labelE]) (by simp [opsAfterLabel])]
      refine (evalOps_setReg_of_end a _ ht fun t => ?_).trans ?_
      · simp [evalOps, evalOp, opsAfterLabel]
      · simp only [evalExpr, hvc, Res.andThen_assoc, Res.andThen_next, if_pos hsign]
    · rw [if_neg (by simpa using hsign)] at hbranch
      rw [shiftSeq, evalOps_of_afterLabel hbranch (rest' := [.setReg a (.shift right (.reg b) (.un .neg (.reg c))),
        .label labelE]) (by simp [opsAfterLabel])]
      refine (evalOps_setReg_of_end a _ ht fun t => ?_).trans ?_
      · simp [evalOps, evalOp]
      · simp only [evalExpr, hvc, Res.andThen_assoc, Res.andThen_next, if_neg hsign, evalUn, zero_sub]
  · exact evalOps_of_readReg_stops ht hbranch fun vc h => hc ⟨vc, h⟩

/-- RET takes the target from the link register into a temporary before it clears the register (44_control.md R126). -/
theorem Realizes.ret {op : Byte} {s : State} (ht : s.temps = []) :
    Realizes (some [.setTemp 0 (.reg lrReg), .setReg lrReg (.const 0), .ret (.temp 0)]) op s (execRet s) := by
  rw [Realizes, Option.getD_some, evalSeq, s.setTemps_nil_of_nil ht]
  have htemp : evalOp s.pc op (.setTemp 0 (.reg lrReg)) s =
      (readReg lrReg s).andThen fun v => .next (.onward (s.setTemps ((0, v) :: s.temps))) := by
    simp only [evalOp, evalExpr, Res.andThen_assoc, Res.andThen_next]
  by_cases hl : ∃ v, readReg lrReg s = .next v
  · obtain ⟨v, hv⟩ := hl
    have hread : readTemp 0 ((s.setTemps ((0, v) :: s.temps)).setReg lrReg 0) = .next v := rfl
    have hlr : lrReg ≠ pcReg := by decide
    simp only [List.length_cons, List.length_nil, evalOps, evalOp, evalExpr, hv, Res.andThen_next, writeReg, if_neg hlr, hread,
      execRet, jumpTo]
    exact congrArg (fun u => (State.setReg u lrReg 0).setPc v) (s.setTemps_nil_of_nil ht)
  · exact evalOps_of_readReg_stops ht htemp fun v h => hl ⟨v, h⟩

/-- A completed word store changes memory alone. -/
theorem writeWord_eq_next {a v : Word} {s t : State} (h : writeWord a v s = .next t) : t = writeFour a v s := by
  obtain ⟨-, -, ht⟩ := Res.andThen_eq_next.1 h
  cases ht
  rfl

/-! ### The lifted evaluation is the meaning -/

/-- An instruction without a label request: its sequence realises its meaning, form by form. -/
theorem liftOps_realizes_exec {i : Instr} {s : State} (hi : labelRequest i = none) (ht : s.temps = []) :
    Realizes (liftOps i none) i.opcode s (exec i s) := by
  cases i with
  | add | sub | and | orr | xor | mul | div | mod => exact .binary ht
  | tcu | tcs => exact .compare ht
  | lsh | ash => exact .shift ht
  | not | mov => exact .regReg ht fun b => by simp only [evalExpr, Res.andThen_assoc, Res.andThen_next, evalUn]
  | seq => exact .regReg ht fun b => by simp only [evalExpr, Res.andThen_assoc, Res.andThen_next, evalCmp, equalsImm]
  | sxt =>
    refine .regReg ht fun b => ?_
    simp only [evalExpr, Res.andThen_assoc, Res.andThen_next, shiftBy_of_lt (c := 16) (by decide), shiftBelow32, sextLow16,
      ← sshiftRight_shiftLeft_16]
    rfl
  | set _ v => exact .of_lift1 ht fun a => .setReg a (.const (zext16 v)) ht
  | sup _ v =>
    refine .readModify (g := fun va => ((va &&& (0x0000FFFF : Word)) ||| (zext16 v <<< 16), s)) ht fun a => ?_
    simp only [evalExpr, Res.andThen_assoc, Res.andThen_next, evalBin, shiftBy_of_lt (c := 16) (by decide), shiftBelow32]
    rfl
  | sia _ v w =>
    refine .readModify (g := fun va => (va + (shiftBy .shl (zext8 v) (zext8 w) s).1, (shiftBy .shl (zext8 v) (zext8 w) s).2)) ht
      fun a => ?_
    simp only [evalExpr, Res.andThen_assoc, Res.andThen_next, evalBin]
  | ldw => exact .load ht fun b => by simp only [evalExpr]
  | ldb =>
    rw [exec, execLdb]
    exact .load ht fun b => by simp only [evalExpr, Res.andThen_assoc, Res.andThen_next]
  | stw =>
    refine .store ht (fun a b => ?_) fun adr w t h => ?_
    · simp only [evalOp, evalExpr_eaExpr, evalExpr, Res.andThen_assoc, Res.andThen_next]
    · exact ⟨_, writeWord_eq_next h⟩
  | stb =>
    rw [exec, execStb]
    refine .store ht (fun a b => ?_) fun adr w t h => ?_
    · simp only [evalOp, evalExpr_eaExpr, evalExpr, Res.andThen_assoc, Res.andThen_next]
    · cases h
      exact ⟨_, rfl⟩
  | jmp | cal => exact .transfer ht (fun a => by simp only [evalOp, evalExpr, Res.andThen_assoc, Res.andThen_next]) fun v => rfl
  | bve => exact .branch ht fun x => rfl
  | bvn => exact .branch ht fun x => decide_not
  | ret => exact .ret ht
  | nop => exact .onward (r := .next s) ht rfl fun t h => by cases h; exact ⟨rfl, ht⟩
  | int | hlt => exact .stop ht rfl fun t h => by cases h; exact ht
  | snd => exact evalSeq_unimplemented s.pc _ ht
  | jmi v => cases hi

/-- JMI goes through the host's label for its target, which the port answers (44_control.md R121). -/
theorem evalLifted_jmi (v : BitVec 24) {s : State} (ht : s.temps = []) :
    evalLifted (.jmi v) s = s.conclude (exec (.jmi v) s) := by
  have h : Realizes (some [.goto (.host (getOrCreateLabel (zext24 v) s).1)]) (Instr.jmi v).opcode (getOrCreateLabel (zext24 v) s).2
      (.next ((getOrCreateLabel (zext24 v) s).2.setPc (zext24 v))) :=
    .stop ht rfl fun t hr => by cases hr; exact ht
  exact h

/-- The operations of a lift: the canonical sequence, or the marker alone. -/
theorem lift_ops (i : Instr) (address : Word) (answer : Option HostLabel) :
    (lift i address answer).ops = (liftOps i answer).getD [.unimplemented] := by
  unfold lift
  cases liftOps i answer <;> rfl

/-- An instruction that asks the label port for nothing is evaluated as it is lifted without an answer. -/
theorem evalLifted_of_no_request {i : Instr} (hi : labelRequest i = none) (s : State) :
    evalLifted i s = evalSeq ((liftOps i none).getD [.unimplemented]) s.pc i.opcode s := by
  simp only [evalLifted, answerLabel, hi, lift_ops]

/-- The evaluation of any instruction's lift ends in the state that its meaning concludes to. -/
theorem evalLifted_eq_conclude (i : Instr) {s : State} (ht : s.temps = []) : evalLifted i s = s.conclude (exec i s) := by
  by_cases hi : labelRequest i = none
  · rw [evalLifted_of_no_request hi]
    exact liftOps_realizes_exec hi ht
  · cases i with
    | jmi v => exact evalLifted_jmi v ht
    | _ => exact absurd rfl hi

/-- Settles O11: each lifted sequence realises the meaning of its instruction, and no meaning reports a stuck machine. -/
theorem liftedEvaluationIsExec : Obligations.LiftedEvaluationIsExec :=
  fun i s ht => (evalLifted_eq_conclude i ht).trans (settle_exec i s).symm

/-! ### The two machines -/

/-- A stopped machine's step settles to the state it was (60_exceptions.md R150). -/
theorem refStep_of_stopped {s : State} (h : s.status ≠ .running) : refStep s = s := by
  unfold refStep step
  split
  · next hs => exact absurd hs h
  · rfl
  · rfl
  · next r hs =>
    have hself : s.setStatus (.fault r) = s := by rw [← hs]; rfl
    cases r with
    | stuckHalted | stuckSyscall => rfl
    | illegalInstruction | unwrittenRead | divideByZero | misalignedAccess => exact hself
  · next r hs => rw [State.settle_refused, ← hs]; rfl

/-- The machine through the lifter does not step where the status is not running. -/
theorem liftedStep_of_stopped {s : State} (h : s.status ≠ .running) : liftedStep s = s := if_neg h

/-- A fetch that faults is no stuck machine's report. -/
theorem settle_fetch_fault {s : State} {e : Fault} (h : fetch s = .fault e) : s.settle (.fault e) = s.setStatus (.fault e) := by
  obtain ⟨k, -, -, rfl⟩ | ⟨d, rfl⟩ := fetch_eq_fault h <;> rfl

/-- From a state between two instructions, the machine through the lifter makes the step that `step` settles to. -/
theorem liftedStep_eq_refStep {s : State} (ht : s.temps = []) : liftedStep s = refStep s := by
  by_cases hrun : s.status = .running
  · rw [liftedStep, if_pos hrun, refStep]
    cases hf : fetch s with
    | next i => rw [step_of_fetch hrun hf]; exact liftedEvaluationIsExec i s ht
    | fault e => rw [step_of_fetch_fault hrun hf]; exact (settle_fetch_fault hf).symm
    | refused e => exact absurd hf fetch_ne_refused
  · rw [liftedStep_of_stopped hrun, refStep_of_stopped hrun]

/-- A completed instruction leaves the temporaries. -/
theorem Completed.temps {s t : State} (h : Completed s t) : t.temps = s.temps := by
  cases h <;> rfl

/-- A stop settles without touching the temporaries. -/
theorem settle_temps {s : State} {r : Res State} (h : ∀ t, r = .next t → t.temps = s.temps) : (s.settle r).temps = s.temps := by
  cases r with
  | next t => exact h t rfl
  | refused e => rfl
  | fault e => cases e <;> rfl

/-- A step leaves the temporaries. -/
theorem refStep_temps (s : State) : (refStep s).temps = s.temps := by
  refine settle_temps fun t h => ?_
  obtain ⟨-, i, -, hi⟩ := step_eq_next h
  exact (exec_completed hi).temps

/-- Settles O12, by induction on the number of steps: each is the same step, and leaves the temporaries, so that there are none. -/
theorem liftedMachineIsStepMachine : Obligations.LiftedMachineIsStepMachine := by
  intro k
  induction k with
  | zero => exact fun s _ => rfl
  | succ k ih =>
    intro s ht
    rw [Function.iterate_succ_apply, liftedStep_eq_refStep ht, refRun]
    exact ih (refStep s) ((refStep_temps s).trans ht)

/-- Settles O57, by induction on the number of steps: a stopped state is a fixed point of both machines. -/
theorem stoppedRunStaysStopped : Obligations.StoppedRunStaysStopped := by
  refine fun k s h => ⟨?_, Function.iterate_fixed (liftedStep_of_stopped h) k⟩
  induction k with
  | zero => rfl
  | succ k ih => rw [refRun, refStep_of_stopped h, ih]

/-! ### The register entry 0x20 -/

section PcEntry

variable (s : State) (w : Word)

/-- The result with the word `w` put in the register entry 0x20 of a next state. -/
def withPcEntry (r : Res State) : Res State := r.andThen fun t => .next (t.setReg pcReg w)

/-- Going on, the entry is put in where the continuation ends. -/
theorem withPcEntry_andThen {α : Type} (r : Res α) (k : α → Res State) :
    withPcEntry w (r.andThen k) = r.andThen fun a => withPcEntry w (k a) :=
  Res.andThen_assoc r k _

/-- Going on with a register, the entry is put in where the register's continuation ends. -/
theorem withPcEntry_withReg (op f : Byte) (k : RegId → Res State) :
    withPcEntry w (withReg op f k) = withReg op f fun r => withPcEntry w (k r) := by
  unfold withReg
  cases regId? f <;> rfl

/-- An operand read never sees the entry: an operand pc refuses (40_lifter_ir.md R98). -/
theorem readReg_setReg_pcReg (r : RegId) : readReg r (s.setReg pcReg w) = readReg r s := by
  unfold readReg
  split
  · rfl
  · next hr => rw [State.reg_setReg_ne s w hr]

/-- Writing a result and going on: another register's write commutes with the entry's, and a result for pc refuses. -/
theorem setRegNext_setReg_pcReg (a : RegId) (v : Word) :
    setRegNext a v (s.setReg pcReg w) = withPcEntry w (setRegNext a v s) := by
  by_cases ha : a = pcReg
  · rw [ha, setRegNext_pc, setRegNext_pc]
    rfl
  · rw [setRegNext_of_ne ha, setRegNext_of_ne ha, State.setReg_comm s w v (Ne.symm ha)]
    rfl

/-- A write of the link register commutes with the entry's. -/
theorem setReg_lrReg_setReg_pcReg (v : Word) : (s.setReg pcReg w).setReg lrReg v = (s.setReg lrReg v).setReg pcReg w :=
  s.setReg_comm w v (by decide)

/-- A transfer to a target does not see the entry. -/
theorem jumpTo_setReg_pcReg (v : Word) : jumpTo v (s.setReg pcReg w) = withPcEntry w (jumpTo v s) := rfl

/-- Going on to the sequential successor does not see the entry. -/
theorem fallThrough_setReg_pcReg : fallThrough (s.setReg pcReg w) = withPcEntry w (fallThrough s) := rfl

/-- A shift looks at no register. -/
theorem shiftBy_setReg (k : ShiftKind) (a c : Word) (r : RegId) :
    shiftBy k a c (s.setReg r w) = ((shiftBy k a c s).1, (shiftBy k a c s).2.setReg r w) := by
  unfold shiftBy
  split <;> rfl

/-- The arm that a bidirectional shift takes, by the sign of its count (41_arith_logic.md R110, R111). -/
def shiftArm (right : ShiftKind) (vb vc : Word) (s : State) : Word × State :=
  if 0 ≤ vc.toInt then shiftBy .shl vb vc s else shiftBy right vb (-vc) s

/-- The bidirectional shift writes what the arm gives. -/
theorem bidirectionalShift_eq (right : ShiftKind) (op rA rB rC : Byte) : bidirectionalShift right op rA rB rC s =
    withReg op rA fun a => withReg op rB fun b => withReg op rC fun c =>
      (readReg c s).andThen fun vc => (readReg b s).andThen fun vb =>
        setRegNext a (shiftArm right vb vc s).1 (shiftArm right vb vc s).2 := rfl

/-- The arm looks at no register. -/
theorem shiftArm_setReg (right : ShiftKind) (vb vc : Word) (r : RegId) :
    shiftArm right vb vc (s.setReg r w) = ((shiftArm right vb vc s).1, (shiftArm right vb vc s).2.setReg r w) := by
  unfold shiftArm
  split <;> exact shiftBy_setReg ..

/-- A word store looks at no register. -/
theorem writeWord_setReg_pcReg (a v : Word) : writeWord a v (s.setReg pcReg w) = withPcEntry w (writeWord a v s) := by
  rw [writeWord, writeWord, withPcEntry_andThen]
  rfl

/-- The form reg+reg+reg does not see the entry. -/
theorem regRegRegOp_setReg_pcReg (op rA rB rC : Byte) (f : Word → Word → Res Word) :
    regRegRegOp op rA rB rC f (s.setReg pcReg w) = withPcEntry w (regRegRegOp op rA rB rC f s) := by
  simp only [regRegRegOp, readReg_setReg_pcReg, setRegNext_setReg_pcReg, withPcEntry_withReg, withPcEntry_andThen]

/-- The form reg+reg does not see the entry. -/
theorem regRegOp_setReg_pcReg (op rA rB : Byte) (f : Word → Word) :
    regRegOp op rA rB f (s.setReg pcReg w) = withPcEntry w (regRegOp op rA rB f s) := by
  simp only [regRegOp, readReg_setReg_pcReg, setRegNext_setReg_pcReg, withPcEntry_withReg, withPcEntry_andThen]

/-- A bidirectional shift does not see the entry. -/
theorem bidirectionalShift_setReg_pcReg (right : ShiftKind) (op rA rB rC : Byte) :
    bidirectionalShift right op rA rB rC (s.setReg pcReg w) = withPcEntry w (bidirectionalShift right op rA rB rC s) := by
  simp only [bidirectionalShift_eq, shiftArm_setReg, readReg_setReg_pcReg, setRegNext_setReg_pcReg, withPcEntry_withReg,
    withPcEntry_andThen]

/-- A load does not see the entry, where its access looks at no register. -/
theorem loadOp_setReg_pcReg (op rA rB v : Byte) {access : Word → State → Res Word}
    (hacc : ∀ adr, access adr (s.setReg pcReg w) = access adr s) :
    loadOp op rA rB v access (s.setReg pcReg w) = withPcEntry w (loadOp op rA rB v access s) := by
  simp only [loadOp, hacc, readReg_setReg_pcReg, setRegNext_setReg_pcReg, withPcEntry_withReg, withPcEntry_andThen]

/-- A store does not see the entry, where its access looks at no register. -/
theorem storeOp_setReg_pcReg (op rA rB v : Byte) {access : Word → Word → State → Res State}
    (hacc : ∀ adr x, access adr x (s.setReg pcReg w) = withPcEntry w (access adr x s)) :
    storeOp op rA rB v access (s.setReg pcReg w) = withPcEntry w (storeOp op rA rB v access s) := by
  have hgo (r : Res State) : (withPcEntry w r).andThen fallThrough = r.andThen fun t => withPcEntry w (fallThrough t) :=
    Res.andThen_assoc ..
  simp only [storeOp, hacc, hgo, readReg_setReg_pcReg, withPcEntry_withReg, withPcEntry_andThen]

/-- A conditional branch does not see the entry. -/
theorem branchOp_setReg_pcReg (op rA rB : Byte) (taken : Word → Bool) :
    branchOp op rA rB taken (s.setReg pcReg w) = withPcEntry w (branchOp op rA rB taken s) := by
  simp only [branchOp, readReg_setReg_pcReg, jumpTo_setReg_pcReg, fallThrough_setReg_pcReg, withPcEntry_withReg,
    withPcEntry_andThen, apply_ite (withPcEntry w)]

/-- No instruction sees the entry 0x20 or changes it (40_lifter_ir.md R98). -/
theorem exec_setReg_pcReg (i : Instr) : exec i (s.setReg pcReg w) = withPcEntry w (exec i s) := by
  cases i with
  | add | sub | and | orr | xor | mul | div | mod | tcu | tcs => exact regRegRegOp_setReg_pcReg ..
  | not | mov | sxt | seq => exact regRegOp_setReg_pcReg ..
  | lsh | ash => exact bidirectionalShift_setReg_pcReg ..
  | set => simp only [exec, execSet, setRegNext_setReg_pcReg, withPcEntry_withReg]
  | sup =>
    simp only [exec, execSup, readReg_setReg_pcReg, setRegNext_setReg_pcReg, withPcEntry_withReg, withPcEntry_andThen]
  | sia =>
    simp only [exec, execSia, shiftBy_setReg, readReg_setReg_pcReg, setRegNext_setReg_pcReg, withPcEntry_withReg,
      withPcEntry_andThen]
  | ldw => exact loadOp_setReg_pcReg (access := readWord) s w _ _ _ _ fun adr => rfl
  | ldb =>
    rw [exec, execLdb]
    exact loadOp_setReg_pcReg s w _ _ _ _ fun adr => rfl
  | stw => exact storeOp_setReg_pcReg s w _ _ _ _ (writeWord_setReg_pcReg s w)
  | stb =>
    simp only [exec, execStb]
    exact storeOp_setReg_pcReg s w _ _ _ _ fun adr x => rfl
  | bve | bvn => exact branchOp_setReg_pcReg ..
  | jmp =>
    simp only [exec, execJmp, readReg_setReg_pcReg, jumpTo_setReg_pcReg, withPcEntry_withReg, withPcEntry_andThen]
  | cal =>
    simp only [exec, execCal, readReg_setReg_pcReg, setReg_lrReg_setReg_pcReg, jumpTo_setReg_pcReg, withPcEntry_withReg,
      withPcEntry_andThen, State.setReg_pc]
  | ret =>
    simp only [exec, execRet, readReg_setReg_pcReg, setReg_lrReg_setReg_pcReg, jumpTo_setReg_pcReg, withPcEntry_andThen]
  | nop | jmi | int | snd | hlt => rfl

/-- No step sees the entry: the fetch looks at pc and memory alone. -/
theorem step_setReg_pcReg : step (s.setReg pcReg w) = withPcEntry w (step s) := by
  unfold step
  rw [State.setReg_status]
  cases s.status with
  | running =>
    simp only [exec_setReg_pcReg, withPcEntry_andThen]
    rfl
  | halted | syscall | fault | refused => rfl

end PcEntry

/-- A completed instruction leaves the entry 0x20 as it was: it writes no pc operand (40_lifter_ir.md R98). -/
theorem Completed.reg_pcReg {s t : State} (h : Completed s t) : t.reg pcReg = s.reg pcReg := by
  cases h with
  | result a v n ha => exact State.reg_setReg_ne _ v (Ne.symm ha)
  | link v p => exact State.reg_setReg_ne s v (by decide)
  | word | byte | goto | label | halted | syscall => rfl

/-- Settles O55: a step commutes with putting a word in the entry, and a completed instruction leaves the entry. -/
theorem pcEntryIsInvisible : Obligations.PcEntryIsInvisible := by
  intro s t w
  refine ⟨fun h => ⟨?_, ?_⟩, fun r h => ?_, fun r h => ?_⟩
  · obtain ⟨-, i, -, hi⟩ := step_eq_next h
    exact (exec_completed hi).reg_pcReg
  · rw [step_setReg_pcReg, h]
    rfl
  · rw [step_setReg_pcReg, h]
    rfl
  · rw [step_setReg_pcReg, h]
    rfl

/-! ### The fallback -/

/-- A sequence over one register is none exactly when the field is out of range. -/
theorem lift1_eq_none {f1 : Byte} {k : RegId → List IrOp} : lift1 f1 k = none ↔ regFieldOk f1 = false := by
  rw [lift1, Option.map_eq_none_iff, regId?_eq_none]

/-- A sequence over two registers is none exactly when a field is out of range. -/
theorem lift2_eq_none {f1 f2 : Byte} {k : RegId → RegId → List IrOp} :
    lift2 f1 f2 k = none ↔ (regFieldOk f1 && regFieldOk f2) = false := by
  obtain ⟨hf, hok⟩ | ⟨a, hf, hok⟩ := regId?_cases f1
  · simp only [lift2, hf, hok, Option.bind_none, Bool.false_and]
  · rw [lift2, hf, hok, Option.bind_some, Bool.true_and]
    exact lift1_eq_none

/-- A sequence over three registers is none exactly when a field is out of range. -/
theorem lift3_eq_none {f1 f2 f3 : Byte} {k : RegId → RegId → RegId → List IrOp} :
    lift3 f1 f2 f3 k = none ↔ (regFieldOk f1 && regFieldOk f2 && regFieldOk f3) = false := by
  obtain ⟨hf, hok⟩ | ⟨a, hf, hok⟩ := regId?_cases f1
  · simp only [lift3, hf, hok, Option.bind_none, Bool.false_and]
  · rw [lift3, hf, hok, Option.bind_some, Bool.true_and]
    exact lift2_eq_none

/-- The instructions of the mnemonic SND. -/
theorem mnemonic_eq_snd {i : Instr} : i.mnemonic = .snd ↔ ∃ rA rB rC, i = .snd rA rB rC := by
  refine ⟨fun h => ?_, ?_⟩
  · cases i with
    | snd rA rB rC => exact ⟨rA, rB, rC, rfl⟩
    | _ => cases h
  · rintro ⟨rA, rB, rC, rfl⟩
    rfl

/-- An instruction but SND has no sequence exactly when a register field is out of range (40_lifter_ir.md R84 (b)). -/
theorem liftOps_eq_none {i : Instr} {answer : Option HostLabel} (hsnd : i.mnemonic ≠ .snd) :
    liftOps i answer = none ↔ i.wf = false := by
  cases i with
  | add | sub | and | orr | xor | mul | div | mod | tcu | tcs | lsh | ash => exact lift3_eq_none
  | not | mov | sxt | seq | ldw | ldb | stw | stb | bve | bvn => exact lift2_eq_none
  | set | sup | sia | jmp | cal => exact lift1_eq_none
  | jmi => cases answer <;> exact ⟨nofun, nofun⟩
  | nop | ret | int | hlt => exact ⟨nofun, nofun⟩
  | snd => exact absurd rfl hsnd

/-- Only SND's canonical sequence holds the marker (40_lifter_ir.md R84). -/
theorem unimplemented_mem_liftOps {i : Instr} {answer : Option HostLabel} {ops : List IrOp} (h : liftOps i answer = some ops)
    (hmem : IrOp.unimplemented ∈ ops) : i.mnemonic = .snd := by
  cases i with
  | add | sub | and | orr | xor | mul | div | mod | tcu | tcs | lsh | ash =>
    obtain ⟨a, b, c, rfl⟩ := lift3_eq_some h
    simp [binarySeq, compareSeq, shiftSeq] at hmem
  | not | mov | sxt | seq | ldw | ldb | stw | stb | bve | bvn =>
    obtain ⟨a, b, rfl⟩ := lift2_eq_some h
    simp [branchSeq] at hmem
  | set | sup | sia | jmp | cal =>
    obtain ⟨a, rfl⟩ := lift1_eq_some h
    simp at hmem
  | jmi => cases answer <;> cases h <;> simp at hmem
  | nop | ret | int | hlt =>
    cases h
    simp at hmem
  | snd => rfl

/-- SND lifts to the fallback, whatever its operands are. -/
theorem lift_of_snd {i : Instr} (h : i.mnemonic = .snd) (address : Word) (answer : Option HostLabel) :
    lift i address answer = fallbackLift := by
  obtain ⟨rA, rB, rC, rfl⟩ := mnemonic_eq_snd.1 h
  rfl

/-- Wherever the marker stands in a lift, it is the fallback. -/
theorem lift_of_unimplemented_mem {i : Instr} {address : Word} {answer : Option HostLabel}
    (h : IrOp.unimplemented ∈ (lift i address answer).ops) : lift i address answer = fallbackLift := by
  obtain hfall | ⟨ops, hops, hlift⟩ := lift_cases i address answer
  · exact hfall
  · rw [hlift] at h
    exact lift_of_snd (unimplemented_mem_liftOps hops h) address answer

/-- An instruction lifts to the fallback exactly when it is SND or has a register out of range (40_lifter_ir.md R84). -/
theorem lift_eq_fallback {i : Instr} {address : Word} {answer : Option HostLabel} :
    lift i address answer = fallbackLift ↔ i.mnemonic = .snd ∨ i.wf = false := by
  by_cases hsnd : i.mnemonic = .snd
  · exact iff_of_true (lift_of_snd hsnd address answer) (.inl hsnd)
  · rw [← liftOps_eq_none (answer := answer) hsnd, or_iff_right hsnd, lift]
    cases hops : liftOps i answer with
    | none => exact iff_of_true rfl rfl
    | some ops =>
      refine iff_of_false (fun h => ?_) nofun
      have hmem : IrOp.unimplemented ∈ ops := by rw [(Lifted.mk.inj h).1]; exact List.mem_singleton_self _
      exact hsnd (unimplemented_mem_liftOps hops hmem)

/-- A record lifts as the instruction it stands for (log 19). -/
theorem liftRecord_of_some {d : Decoded} {i : Instr} (h : d.instr? = some i) (address : Word) (port : Word → Option HostLabel) :
    liftRecord d address port = lift i address ((labelRequest i).bind port) := by
  rw [liftRecord, h]

/-- A record that stands for no instruction lifts to the fallback. -/
theorem liftRecord_of_none {d : Decoded} (h : d.instr? = none) (address : Word) (port : Word → Option HostLabel) :
    liftRecord d address port = fallbackLift := by
  rw [liftRecord, h]

/-- A record lifts to the fallback exactly when it stands for no well-formed instruction but SND. -/
theorem liftRecord_eq_fallback {d : Decoded} {address : Word} {port : Word → Option HostLabel} :
    liftRecord d address port = fallbackLift ↔ ∀ i, d.instr? = some i → i.wf = true → i.mnemonic = .snd := by
  cases h : d.instr? with
  | none => exact iff_of_true (liftRecord_of_none h address port) nofun
  | some i =>
    rw [liftRecord_of_some h, lift_eq_fallback]
    simp only [Option.some.injEq, forall_eq', ← Bool.not_eq_true]
    tauto

/-- Settles O15: a record stands for the instruction of its opcode and operands, and an instruction falls back exactly when it is SND or
has a register out of range, which the decoder never returns. -/
theorem fallbackExactly : Obligations.FallbackExactly := by
  intro d address port
  refine ⟨fun i hop hos => ?_, ?_, fun h => ?_, fun w hw => ?_⟩
  · exact liftRecord_of_some (Decoded.instr?_eq_some.2 ⟨hop, hos⟩) address port
  · simp only [liftRecord_eq_fallback, Decoded.instr?_eq_some, mnemonic_eq_snd]
    exact ⟨fun h i hwf hop hos => h i ⟨hop, hos⟩ hwf, fun h i ⟨hop, hos⟩ hwf => h i hwf hop hos⟩
  · cases hd : d.instr? with
    | none => exact liftRecord_of_none hd address port
    | some i =>
      rw [liftRecord_of_some hd] at h ⊢
      exact lift_of_unimplemented_mem h
  · cases hdec : decode w with
    | error e => cases hw.symm.trans (decodeRecord_eq_error.2 hdec)
    | ok i =>
      cases hw.symm.trans (decodeRecord_of_decode hdec)
      rw [liftRecord_of_some (Decoded.instr?_eq_some.2 ⟨rfl, rfl⟩), lift_eq_fallback, wf_of_decode hdec]
      exact or_iff_left nofun

end Sys2Proof.Machine
end

section
/-! PROOFS. The family of 41_arith_logic.md: the arithmetic, bitwise and shift instructions (O18 to O22), where they stop on their operands
(O23), what the instructions with a register result leave unchanged (O46), and sample words (O9). Before each, the laws of the model's
functions that it needs. -/

namespace Sys2Proof.Machine

/-! ### The encoding and the sequence of a form -/

/-- A sequence over two registers, given the raw fields of both. -/
@[simp] theorem lift2_regField (a b : RegId) (k : RegId → RegId → List IrOp) : lift2 (regField a) (regField b) k = some (k a b) := by
  simp only [lift2, regId?_regField, Option.bind_some, Option.map_some]

/-- A sequence over three registers, given the raw fields of all. -/
@[simp] theorem lift3_regField (a b c : RegId) (k : RegId → RegId → RegId → List IrOp) :
    lift3 (regField a) (regField b) (regField c) k = some (k a b c) := by
  simp only [lift3, regId?_regField, Option.bind_some, Option.map_some]

/-- An instruction that has a canonical sequence lifts to it and the instruction's edges. -/
theorem lift_of_ops {i : Instr} {answer : Option HostLabel} {ops : List IrOp} (h : liftOps i answer = some ops) (address : Word) :
    lift i address answer = ⟨ops, liftEdges i address⟩ := by
  rw [lift, h]

/-- The rule of the form reg+reg+reg, from the opcode map's entry and the arm of the lifter (30_encoding.md R65). -/
theorem regRegRegForm_of_lift3 {op : Byte} {m : Mnemonic} {mk : Byte → Byte → Byte → Instr} {seq : RegId → RegId → RegId → List IrOp}
    (hmap : opcodeMap op = some (m, .regRegReg)) (hmk : m.assemble = mk)
    (hops : ∀ rA rB rC answer, liftOps (mk rA rB rC) answer = lift3 rA rB rC seq)
    (hedges : ∀ rA rB rC address, liftEdges (mk rA rB rC) address = []) : RegRegRegForm op mk seq := by
  refine ⟨fun rA rB rC => ?_, fun a b c address answer => ?_⟩
  · simp only [decode_of_map _ _ _ _ hmap, hmk, Format.fieldsOk, regFieldOk, Bool.and_eq_true, decide_eq_true_eq, and_assoc]
  · rw [lift_of_ops ((hops ..).trans (lift3_regField ..)), hedges]

/-- The rule of the form reg+reg, from the opcode map's entry and the arm of the lifter: a3 is neither checked nor taken
(30_encoding.md R62, R67). -/
theorem regRegForm_of_lift2 {op : Byte} {m : Mnemonic} {mk : Byte → Byte → Instr} {seq : RegId → RegId → List IrOp}
    (hmap : opcodeMap op = some (m, .regReg)) (hmk : ∀ rA rB a3, m.assemble rA rB a3 = mk rA rB)
    (hops : ∀ rA rB answer, liftOps (mk rA rB) answer = lift2 rA rB seq)
    (hedges : ∀ rA rB address, liftEdges (mk rA rB) address = []) : RegRegForm op mk seq := by
  refine ⟨fun rA rB a3 => ?_, fun a b address answer => ?_⟩
  · simp only [decode_of_map _ _ _ _ hmap, hmk, Format.fieldsOk, regFieldOk, Bool.and_eq_true, decide_eq_true_eq]
  · rw [lift_of_ops ((hops ..).trans (lift2_regField ..)), hedges]

/-! ### The effect of a form -/

/-- With both sources written, the form reg+reg+reg computes its function and writes the result. -/
theorem regRegRegOp_of_values {op : Byte} {f : Word → Word → Res Word} (a : RegId) {b c : RegId} {s : State} {vb vc : Word}
    (hb : b ≠ pcReg) (hc : c ≠ pcReg) (xb : s.reg b = .value vb) (xc : s.reg c = .value vc) :
    regRegRegOp op (regField a) (regField b) (regField c) f s = (f vb vc).andThen fun v => setRegNext a v s := by
  simp only [regRegRegOp, withReg_regField, readReg_of_value hb xb, readReg_of_value hc xc, Res.andThen_next]

/-- With the source written, the form reg+reg writes its function of it. -/
theorem regRegOp_of_value {op : Byte} {f : Word → Word} (a : RegId) {b : RegId} {s : State} {vb : Word} (hb : b ≠ pcReg)
    (xb : s.reg b = .value vb) : regRegOp op (regField a) (regField b) f s = setRegNext a (f vb) s := by
  simp only [regRegOp, withReg_regField, readReg_of_value hb xb, Res.andThen_next]

/-- An instruction of the form reg+reg+reg whose function never stops computes that function. -/
theorem computesFrom2_of_regRegRegOp {op : Byte} {mk : Byte → Byte → Byte → Instr} {f : Word → Word → Word}
    (h : ∀ rA rB rC s, exec (mk rA rB rC) s = regRegRegOp op rA rB rC (fun vb vc => .next (f vb vc)) s) : ComputesFrom2 mk f := by
  intro a b c s vb vc ha hb hc xb xc
  rw [h, regRegRegOp_of_values a hb hc xb xc]
  exact setRegNext_of_ne ha _ s

/-- An instruction of the form reg+reg computes its function. -/
theorem computesFrom1_of_regRegOp {op : Byte} {mk : Byte → Byte → Instr} {f : Word → Word}
    (h : ∀ rA rB s, exec (mk rA rB) s = regRegOp op rA rB f s) : ComputesFrom1 mk f := by
  intro a b s vb ha hb xb
  rw [h, regRegOp_of_value a hb xb]
  exact setRegNext_of_ne ha _ s

/-! ### Where an instruction stops on its operands -/

/-- Where a result with the destination `a` and the sources `b` and `c` stops on its operands: `StopsFrom2` at one state. -/
def OperandStops (a b c : RegId) (s : State) (r : Res State) : Prop :=
  (a ≠ pcReg → b ≠ pcReg → c ≠ pcReg → (s.reg b = .unwritten ∨ s.reg c = .unwritten) →
    ∃ q, (q = b ∨ q = c) ∧ s.reg q = .unwritten ∧ r = .fault (.unwrittenRead (.reg q))) ∧
  ((a = pcReg ∨ b = pcReg ∨ c = pcReg) → (b = pcReg ∨ s.reg b ≠ .unwritten) → (c = pcReg ∨ s.reg c ≠ .unwritten) →
    r = .refused .pcOperand)

/-- The stops do not say in which order the sources are looked at. -/
theorem OperandStops.symm {a b c : RegId} {s : State} {r : Res State} (h : OperandStops a c b s r) : OperandStops a b c s r := by
  obtain ⟨hfault, hrefused⟩ := h
  refine ⟨fun ha hb hc hu => ?_, fun hp hb hc => hrefused (hp.imp_right Or.symm) hc hb⟩
  obtain ⟨q, hq, hrest⟩ := hfault ha hc hb hu.symm
  exact ⟨q, hq.symm, hrest⟩

/-- Reading a register that is pc or is written refuses, the first, or answers a word. -/
theorem readReg_of_not_unwritten {r : RegId} {s : State} (h : r = pcReg ∨ s.reg r ≠ .unwritten) :
    readReg r s = .refused .pcOperand ∨ r ≠ pcReg ∧ ∃ v, readReg r s = .next v := by
  by_cases hp : r = pcReg
  · exact .inl (readReg_eq_refused.2 ⟨hp, rfl⟩)
  · cases hx : s.reg r with
    | unwritten => exact absurd hx (h.resolve_left hp)
    | value v => exact .inr ⟨hp, v, readReg_of_value hp hx⟩

/-- Reading `b`, then `c`, stops on them as it must; and goes on to a destination pc only where what follows refuses it. -/
theorem operandStops_of_reads {a b c : RegId} {s : State} {k : Word → Word → Res State}
    (hk : a = pcReg → ∀ vb vc, readReg c s = .next vc → k vb vc = .refused .pcOperand) :
    OperandStops a b c s ((readReg b s).andThen fun vb => (readReg c s).andThen fun vc => k vb vc) := by
  refine ⟨fun _ hb hc hu => ?_, fun hp hb hc => ?_⟩
  · cases hx : s.reg b with
    | unwritten => exact ⟨b, .inl rfl, hx, by rw [readReg_of_unwritten hb hx, Res.andThen_fault]⟩
    | value vb =>
      have hxc : s.reg c = .unwritten := hu.resolve_left (by rw [hx]; exact nofun)
      exact ⟨c, .inr rfl, hxc, by rw [readReg_of_value hb hx, Res.andThen_next, readReg_of_unwritten hc hxc, Res.andThen_fault]⟩
  · obtain hrb | ⟨hpb, vb, hrb⟩ := readReg_of_not_unwritten hb
    · rw [hrb, Res.andThen_refused]
    · rw [hrb, Res.andThen_next]
      obtain hrc | ⟨hpc, vc, hrc⟩ := readReg_of_not_unwritten hc
      · rw [hrc, Res.andThen_refused]
      · rw [hrc, Res.andThen_next]
        exact hk (hp.resolve_right (not_or.2 ⟨hpb, hpc⟩)) vb vc hrc

/-- The form reg+reg+reg stops on its operands, where its function does not stop before the destination is looked at. -/
theorem regRegRegOp_operandStops {op : Byte} {f : Word → Word → Res Word} {a b c : RegId} {s : State}
    (hf : ∀ vb vc, readReg c s = .next vc → ∃ v, f vb vc = .next v) :
    OperandStops a b c s (regRegRegOp op (regField a) (regField b) (regField c) f s) := by
  simp only [regRegRegOp, withReg_regField]
  refine operandStops_of_reads fun ha vb vc hvc => ?_
  obtain ⟨v, hv⟩ := hf vb vc hvc
  rw [hv, Res.andThen_next, ha, setRegNext_pc]

/-- A bidirectional shift stops on its operands: it reads the count before the source (log 15). -/
theorem bidirectionalShift_operandStops {right : ShiftKind} {op : Byte} (a b c : RegId) (s : State) :
    OperandStops a b c s (bidirectionalShift right op (regField a) (regField b) (regField c) s) := by
  simp only [bidirectionalShift_eq, withReg_regField]
  refine (operandStops_of_reads fun ha vc vb _ => ?_).symm
  rw [ha, setRegNext_pc]

/-- An instruction of the form reg+reg+reg whose function never stops, stops on its operands alone. -/
theorem stopsFrom2_of_regRegRegOp {op : Byte} {mk : Byte → Byte → Byte → Instr} {f : Word → Word → Word}
    (h : ∀ rA rB rC s, exec (mk rA rB rC) s = regRegRegOp op rA rB rC (fun vb vc => .next (f vb vc)) s) : StopsFrom2 mk := by
  intro a b c s
  rw [h]
  exact regRegRegOp_operandStops fun _ _ _ => ⟨_, rfl⟩

/-- An instruction that is a bidirectional shift stops on its operands. -/
theorem stopsFrom2_of_bidirectionalShift {right : ShiftKind} {op : Byte} {mk : Byte → Byte → Byte → Instr}
    (h : ∀ rA rB rC s, exec (mk rA rB rC) s = bidirectionalShift right op rA rB rC s) : StopsFrom2 mk := by
  intro a b c s
  rw [h]
  exact bidirectionalShift_operandStops a b c s

/-- An instruction of the form reg+reg stops on its operands. -/
theorem stopsFrom1_of_regRegOp {op : Byte} {mk : Byte → Byte → Instr} {f : Word → Word}
    (h : ∀ rA rB s, exec (mk rA rB) s = regRegOp op rA rB f s) : StopsFrom1 mk := by
  intro a b s
  simp only [h, regRegOp, withReg_regField]
  refine ⟨fun _ hb hx => ?_, fun hp hb => ?_⟩
  · rw [readReg_of_unwritten hb hx, Res.andThen_fault]
  · obtain hrb | ⟨hpb, vb, hrb⟩ := readReg_of_not_unwritten hb
    · rw [hrb, Res.andThen_refused]
    · rw [hrb, Res.andThen_next, hp.resolve_right hpb, setRegNext_pc]

/-! ### Addition, the bitwise operations, and division -/

/-- Settles O18: each is of the form reg+reg+reg, and the product of words is the product of their numbers modulo 2^32. -/
theorem addSubMulRules : Obligations.AddSubMulRules := by
  refine ⟨⟨?_, ?_⟩, ⟨?_, ?_⟩, ?_, ?_⟩
  · exact regRegRegForm_of_lift3 (m := .add) rfl rfl (fun _ _ _ _ => rfl) fun _ _ _ _ => rfl
  · exact computesFrom2_of_regRegRegOp fun _ _ _ _ => rfl
  · exact regRegRegForm_of_lift3 (m := .sub) rfl rfl (fun _ _ _ _ => rfl) fun _ _ _ _ => rfl
  · exact computesFrom2_of_regRegRegOp fun _ _ _ _ => rfl
  · exact regRegRegForm_of_lift3 (m := .mul) rfl rfl (fun _ _ _ _ => rfl) fun _ _ _ _ => rfl
  · have hmul : (fun b c : Word => BitVec.ofNat 32 (b.toNat * c.toNat)) = fun b c => b * c := by
      funext b c
      rw [BitVec.ofNat_mul, BitVec.ofNat_toNat, BitVec.ofNat_toNat, BitVec.setWidth_eq, BitVec.setWidth_eq]
    rw [hmul]
    exact computesFrom2_of_regRegRegOp fun _ _ _ _ => rfl

/-- Settles O20: each is of the form reg+reg+reg, with a function that never stops. -/
theorem bitwiseRules : Obligations.BitwiseRules := by
  refine ⟨⟨?_, ?_⟩, ⟨?_, ?_⟩, ?_, ?_, ?_⟩
  · exact regRegRegForm_of_lift3 (m := .and) rfl rfl (fun _ _ _ _ => rfl) fun _ _ _ _ => rfl
  · exact computesFrom2_of_regRegRegOp fun _ _ _ _ => rfl
  · exact regRegRegForm_of_lift3 (m := .orr) rfl rfl (fun _ _ _ _ => rfl) fun _ _ _ _ => rfl
  · exact computesFrom2_of_regRegRegOp fun _ _ _ _ => rfl
  · exact regRegRegForm_of_lift3 (m := .xor) rfl rfl (fun _ _ _ _ => rfl) fun _ _ _ _ => rfl
  · exact computesFrom2_of_regRegRegOp fun _ _ _ _ => rfl
  · exact stopsFrom2_of_regRegRegOp fun _ _ _ _ => rfl

/-- Settles O21: NOT is of the form reg+reg. -/
theorem notRule : Obligations.NotRule :=
  ⟨regRegForm_of_lift2 (m := .not) rfl (fun _ _ _ => rfl) (fun _ _ _ => rfl) fun _ _ _ => rfl,
    computesFrom1_of_regRegOp fun _ _ _ => rfl⟩

/-- A division by a divisor other than 0 completes. -/
theorem divU_of_ne {a b : Word} (h : b ≠ 0) : divU a b = .next (BitVec.ofNat 32 (a.toNat / b.toNat)) := if_neg h

/-- A remainder by a divisor other than 0 completes. -/
theorem modU_of_ne {a b : Word} (h : b ≠ 0) : modU a b = .next (BitVec.ofNat 32 (a.toNat % b.toNat)) := if_neg h

/-- The remainder is the dividend less the divisor times the quotient (40_lifter_ir.md R94). -/
theorem sub_mul_quotient (a b : Word) :
    a - b * BitVec.ofNat 32 (a.toNat / b.toNat) = BitVec.ofNat 32 (a.toNat % b.toNat) := by
  have hword (v : Word) : BitVec.ofNat 32 v.toNat = v := by rw [BitVec.ofNat_toNat, BitVec.setWidth_eq]
  have hsum : b * BitVec.ofNat 32 (a.toNat / b.toNat) + BitVec.ofNat 32 (a.toNat % b.toNat) = a :=
    calc b * BitVec.ofNat 32 (a.toNat / b.toNat) + BitVec.ofNat 32 (a.toNat % b.toNat)
        = BitVec.ofNat 32 (b.toNat * (a.toNat / b.toNat) + a.toNat % b.toNat) := by rw [BitVec.ofNat_add, BitVec.ofNat_mul, hword]
      _ = a := by rw [Nat.div_add_mod, hword]
  exact sub_eq_of_eq_add' hsum.symm

/-- Settles O19: both are of the form reg+reg+reg, with the quotient and the remainder, which fault by 0. -/
theorem divModRules : Obligations.DivModRules := by
  refine ⟨?_, ?_, fun a b c s vb vc ha hb hc xb xc => ⟨fun hne => ⟨?_, ?_⟩, fun hzero => ⟨?_, ?_⟩⟩⟩
  · exact regRegRegForm_of_lift3 (m := .div) rfl rfl (fun _ _ _ _ => rfl) fun _ _ _ _ => rfl
  · exact regRegRegForm_of_lift3 (m := .mod) rfl rfl (fun _ _ _ _ => rfl) fun _ _ _ _ => rfl
  · rw [exec, execDiv, regRegRegOp_of_values a hb hc xb xc, divU_of_ne hne]
    exact setRegNext_of_ne ha _ s
  · rw [exec, execMod, regRegRegOp_of_values a hb hc xb xc, modU_of_ne hne, sub_mul_quotient]
    exact setRegNext_of_ne ha _ s
  · rw [exec, execDiv, regRegRegOp_of_values a hb hc xb xc, divU, if_pos hzero, Res.andThen_fault]
  · rw [exec, execMod, regRegRegOp_of_values a hb hc xb xc, modU, if_pos hzero, Res.andThen_fault]

/-- Settles O23: all but DIV and MOD have functions that never stop, and those two stop on a divisor 0 alone. -/
theorem arithmeticOperandStops : Obligations.ArithmeticOperandStops := by
  refine ⟨?_, ?_, ?_, ?_, ?_, ?_, ?_, ?_, fun a b c s hdivisor i hi => ?_⟩
  · exact stopsFrom2_of_regRegRegOp fun _ _ _ _ => rfl
  · exact stopsFrom2_of_regRegRegOp fun _ _ _ _ => rfl
  · exact stopsFrom2_of_regRegRegOp fun _ _ _ _ => rfl
  · exact stopsFrom2_of_regRegRegOp fun _ _ _ _ => rfl
  · exact stopsFrom2_of_regRegRegOp fun _ _ _ _ => rfl
  · exact stopsFrom2_of_bidirectionalShift fun _ _ _ _ => rfl
  · exact stopsFrom2_of_bidirectionalShift fun _ _ _ _ => rfl
  · exact stopsFrom1_of_regRegOp fun _ _ _ => rfl
  · have hne (vc : Word) (hvc : readReg c s = .next vc) : vc ≠ 0 := by
      obtain ⟨hc, xc⟩ := readReg_eq_next.1 hvc
      rintro rfl
      exact hdivisor.resolve_left hc xc
    simp only [List.mem_cons, List.not_mem_nil, or_false] at hi
    obtain rfl | rfl := hi
    · exact regRegRegOp_operandStops fun _ vc hvc => ⟨_, divU_of_ne (hne vc hvc)⟩
    · exact regRegRegOp_operandStops fun _ vc hvc => ⟨_, modU_of_ne (hne vc hvc)⟩

/-! ### The shifts -/

/-- A shift by 32 or more draws its result (40_lifter_ir.md R95; log 5). -/
theorem shiftBy_of_ge {k : ShiftKind} {v c : Word} {s : State} (h : ¬ c.toNat < 32) :
    shiftBy k v c s = (Config.shiftOversize k v c s.draws, s.setDraws (s.draws + 1)) := if_neg h

/-- The state after a shift's result is written: by fewer than 32 it is the shifted word, else a free value is drawn. -/
def shiftedState (k : ShiftKind) (a : RegId) (v c : Word) (s : State) : State :=
  if c.toNat < 32 then (s.setReg a (shiftBelow32 k v c.toNat)).setPc (s.pc + 4)
  else ((s.setReg a (Config.shiftOversize k v c s.draws)).setDraws (s.draws + 1)).setPc (s.pc + 4)

/-- Writing a shift's result and going on. -/
theorem setRegNext_shiftBy {a : RegId} (ha : a ≠ pcReg) (k : ShiftKind) (v c : Word) (s : State) :
    setRegNext a (shiftBy k v c s).1 (shiftBy k v c s).2 = .next (shiftedState k a v c s) := by
  rw [setRegNext_of_ne ha, shiftedState]
  split
  · next hlt => rw [shiftBy_of_lt hlt]
  · next hge => rw [shiftBy_of_ge hge]; rfl

/-- With both sources written, a bidirectional shift writes the result of the arm of its count's sign. -/
theorem bidirectionalShift_of_values {right : ShiftKind} {op : Byte} {a b c : RegId} {s : State} {vb vc : Word} (ha : a ≠ pcReg)
    (hb : b ≠ pcReg) (hc : c ≠ pcReg) (xb : s.reg b = .value vb) (xc : s.reg c = .value vc) :
    bidirectionalShift right op (regField a) (regField b) (regField c) s =
      .next (if 0 ≤ vc.toInt then shiftedState .shl a vb vc s else shiftedState right a vb (-vc) s) := by
  simp only [bidirectionalShift_eq, withReg_regField, readReg_of_value hb xb, readReg_of_value hc xc, Res.andThen_next, shiftArm]
  split <;> exact setRegNext_shiftBy ha ..

/-- A count that is not negative is below 32 as a signed number exactly when it is as an unsigned one. -/
theorem toNat_lt_32_of_nonneg {v : Word} (h : 0 ≤ v.toInt) : v.toNat < 32 ↔ v.toInt < 32 := by
  rw [BitVec.toInt_eq_toNat_cond] at h ⊢
  split at h <;> split <;> omega

/-- The magnitude of a negative count, -2^31 too, is its negation as an unsigned number. -/
theorem toNat_neg_of_neg {v : Word} (h : v.toInt < 0) : (-v).toNat = (-v.toInt).toNat := by
  rw [BitVec.toInt_eq_toNat_cond] at h ⊢
  rw [BitVec.toNat_neg]
  split at h <;> split <;> omega

/-- A bidirectional shift by its signed count: to the left by 0 to 31, to the right by the magnitude of -1 to -31, and a free value for
any other (41_arith_logic.md R110, R111). -/
theorem bidirectionalShift_by_signed_count {right : ShiftKind} {op : Byte} {a b c : RegId} {s : State} {vb vc : Word}
    (ha : a ≠ pcReg) (hb : b ≠ pcReg) (hc : c ≠ pcReg) (xb : s.reg b = .value vb) (xc : s.reg c = .value vc) :
    bidirectionalShift right op (regField a) (regField b) (regField c) s =
      .next (if 0 ≤ vc.toInt then
          if vc.toInt < 32 then (s.setReg a (vb <<< vc.toNat)).setPc (s.pc + 4)
          else ((s.setReg a (Config.shiftOversize .shl vb vc s.draws)).setDraws (s.draws + 1)).setPc (s.pc + 4)
        else if -32 < vc.toInt then (s.setReg a (shiftBelow32 right vb (-vc.toInt).toNat)).setPc (s.pc + 4)
          else ((s.setReg a (Config.shiftOversize right vb (0 - vc) s.draws)).setDraws (s.draws + 1)).setPc (s.pc + 4)) := by
  rw [bidirectionalShift_of_values ha hb hc xb xc]
  by_cases hsign : 0 ≤ vc.toInt
  · simp only [if_pos hsign, shiftedState, toNat_lt_32_of_nonneg hsign, shiftBelow32]
  · have hneg : (-vc).toNat = (-vc.toInt).toNat := toNat_neg_of_neg (by omega)
    have hlt : (-vc.toInt).toNat < 32 ↔ -32 < vc.toInt := by omega
    simp only [if_neg hsign, shiftedState, hneg, hlt, zero_sub]

/-- Settles O22: both are bidirectional shifts, which differ in the filling of the right arm. -/
theorem shiftRules : Obligations.ShiftRules := by
  refine ⟨?_, ?_, fun a b c s vb vc ha hb hc xb xc => ⟨?_, ?_⟩⟩
  · exact regRegRegForm_of_lift3 (m := .lsh) rfl rfl (fun _ _ _ _ => rfl) fun _ _ _ _ => rfl
  · exact regRegRegForm_of_lift3 (m := .ash) rfl rfl (fun _ _ _ _ => rfl) fun _ _ _ _ => rfl
  · exact bidirectionalShift_by_signed_count (right := .lsr) ha hb hc xb xc
  · exact bidirectionalShift_by_signed_count (right := .asr) ha hb hc xb xc

/-! ### The frame of a register result -/

/-- The raw field of the register that an instruction's result goes to; none for the stores, the transfers and the system
instructions. -/
def destField : Instr → Option Byte
  | .add a _ _ | .sub a _ _ | .mul a _ _ | .div a _ _ | .mod a _ _ | .and a _ _ | .orr a _ _ | .xor a _ _ | .not a _
  | .lsh a _ _ | .ash a _ _ | .set a _ | .mov a _ | .sup a _ | .sxt a _ | .ldw a _ _ | .ldb a _ _ | .tcu a _ _ | .tcs a _ _
  | .seq a _ _ | .sia a _ _ => some a
  | .nop | .stw _ _ _ | .stb _ _ _ | .jmi _ | .jmp _ | .bve _ _ _ | .bvn _ _ _ | .cal _ | .ret | .int _ | .snd _ _ _ | .hlt => none

/-- The instruction may draw a free value: it shifts by a count that its operands give (40_lifter_ir.md R95; log 5). -/
def mayDraw : Instr → Bool
  | .lsh _ _ _ | .ash _ _ _ | .sia _ _ _ => true
  | _ => false

/-- What an instruction with a register result has done to the state when it completes: the result is in its destination, pc at the
sequential successor, and only an instruction that may draw has drawn. -/
theorem exec_eq_next_of_destField {i : Instr} {f : Byte} {s t : State} (hd : destField i = some f) (h : exec i s = .next t) :
    ∃ a v n, regId? f = some a ∧ t = ((s.setDraws n).setReg a v).setPc (s.pc + 4) ∧ (mayDraw i = false → n = s.draws) := by
  cases i with
  | add | sub | mul | and | orr | xor | div | mod | tcu | tcs =>
    cases hd
    obtain ⟨a, _, _, _, _, v, ha, -, -, -, -, -, -, -, -, rfl⟩ := regRegRegOp_eq_next.1 h
    exact ⟨a, v, s.draws, ha, rfl, fun _ => rfl⟩
  | not | mov | sxt | seq =>
    cases hd
    obtain ⟨a, _, _, ha, -, -, -, -, rfl⟩ := regRegOp_eq_next.1 h
    exact ⟨a, _, s.draws, ha, rfl, fun _ => rfl⟩
  | ldw | ldb =>
    cases hd
    simp only [exec, execLdw, execLdb, loadOp_eq_next] at h
    obtain ⟨a, _, _, w, ha, -, -, -, -, -, rfl⟩ := h
    exact ⟨a, w, s.draws, ha, rfl, fun _ => rfl⟩
  | set =>
    cases hd
    obtain ⟨a, ha, h⟩ := withReg_eq_next.1 h
    obtain ⟨-, rfl⟩ := setRegNext_eq_next.1 h
    exact ⟨a, _, s.draws, ha, rfl, fun _ => rfl⟩
  | sup =>
    cases hd
    obtain ⟨a, ha, h⟩ := withReg_eq_next.1 h
    obtain ⟨_, -, h⟩ := Res.andThen_eq_next.1 h
    obtain ⟨-, rfl⟩ := setRegNext_eq_next.1 h
    exact ⟨a, _, s.draws, ha, rfl, fun _ => rfl⟩
  | lsh | ash =>
    cases hd
    obtain ⟨a, v, n, ha, -, rfl⟩ := bidirectionalShift_eq_next h
    exact ⟨a, v, n, ha, rfl, nofun⟩
  | sia _ v w =>
    cases hd
    obtain ⟨a, ha, h⟩ := withReg_eq_next.1 h
    obtain ⟨va, -, h⟩ := Res.andThen_eq_next.1 h
    obtain ⟨-, rfl⟩ := setRegNext_eq_next.1 h
    obtain ⟨x, n, hx⟩ := shiftBy_cases .shl (zext8 v) (zext8 w) s
    rw [hx]
    exact ⟨a, va + x, n, ha, rfl, nofun⟩
  | nop | stw | stb | jmi | jmp | bve | bvn | cal | ret | int | snd | hlt => cases hd

/-- A completed instruction whose result goes to `a` leaves everything else but pc and the model's count of draws. -/
theorem frame_of_destField {a : RegId} {i : Instr} {s t : State} (hd : destField i = some (regField a)) (h : exec i s = .next t) :
    SameRegsBut a s t ∧ SameMemory s t ∧ t.pc = s.pc + 4 ∧ t.status = s.status ∧ t.temps = s.temps ∧ t.labels = s.labels := by
  obtain ⟨a', v, n, ha, rfl, -⟩ := exec_eq_next_of_destField hd h
  cases (regId?_regField a).symm.trans ha
  exact ⟨fun q hq => State.reg_setReg_ne _ v hq, fun _ => rfl, rfl, rfl, rfl, rfl⟩

/-- A completed instruction with a register result that draws nothing leaves the count of draws. -/
theorem draws_of_destField {i : Instr} {f : Byte} {s t : State} (hd : destField i = some f) (hn : mayDraw i = false)
    (h : exec i s = .next t) : t.draws = s.draws := by
  obtain ⟨_, _, n, -, rfl, hdraws⟩ := exec_eq_next_of_destField hd h
  exact hdraws hn

/-- Settles O46: every listed instruction's result goes to `a`, and those of the first list draw nothing. -/
theorem registerResultFrame : Obligations.RegisterResultFrame := by
  intro a rB rC imm s t
  refine ⟨fun i hi h => ?_, fun i hi h => ?_⟩
  · have hdest : destField i = some (regField a) ∧ mayDraw i = false := by
      revert i
      simp [destField, mayDraw]
    obtain ⟨hd, hn⟩ := hdest
    obtain ⟨hregs, hmem, hpc, hstatus, htemps, hlabels⟩ := frame_of_destField hd h
    exact ⟨hregs, hmem, hpc, hstatus, htemps, hlabels, draws_of_destField hd hn h⟩
  · have hd : destField i = some (regField a) := by
      revert i
      simp [destField]
    exact frame_of_destField hd h

/-! ### Sample words -/

/-- Settles O9: five of the words are the canonical words of their instructions; RET's has its ignored fields set. -/
theorem sampleWordsDecode : Obligations.SampleWordsDecode :=
  ⟨decode_encode (i := .add 2 3 0) rfl, decode_encode (i := .set 0 0x0100) rfl, decode_encode (i := .jmi 0xABCDEF) rfl,
    decode_encode (i := .ldw 1 2 4) rfl, by decide, decode_encode (i := .sia 5 0xFF 0) rfl⟩

end Sys2Proof.Machine
end

section
/-! PROOFS. The family of 42_move_const.md: SET, MOV, SUP and SXT (O24 to O26). Before them, the encoding and the sequence of the form
reg+imm16, and what its two instructions do to a register. -/

namespace Sys2Proof.Machine

/-! ### The form reg+imm16 -/

/-- A sequence over one register, given its raw field. -/
@[simp] theorem lift1_regField (a : RegId) (k : RegId → List IrOp) : lift1 (regField a) k = some (k a) := by
  rw [lift1, regId?_regField, Option.map_some]

/-- The encoding of the form reg+imm16, from the opcode map's entry: a1 alone is checked, and the immediate is a2 before a3
(30_encoding.md R57, R66). -/
theorem decode_regImm16 {op : Byte} {m : Mnemonic} {mk : Byte → BitVec 16 → Instr} (hmap : opcodeMap op = some (m, .regImm16))
    (hmk : ∀ rA hi lo, m.assemble rA hi lo = mk rA (hi ++ lo)) (rA hi lo : Byte) : decode (op ++ rA ++ hi ++ lo) =
      if rA.toNat ≤ 0x24 then .ok (mk rA (hi ++ lo)) else .error .invalidRegisterField := by
  simp only [decode_of_map _ _ _ _ hmap, hmk, Format.fieldsOk, regFieldOk, decide_eq_true_eq]

/-! ### SET -/

/-- SET looks at nothing but its destination (42_move_const.md R112). -/
theorem exec_set_regField (a : RegId) (v : BitVec 16) (s : State) :
    exec (.set (regField a) v) s = setRegNext a (v.zeroExtend 32) s :=
  withReg_regField ..

/-- SET completes from every state, for every register but pc. -/
theorem exec_set_of_ne {a : RegId} (ha : a ≠ pcReg) (v : BitVec 16) (s : State) :
    exec (.set (regField a) v) s = .next ((s.setReg a (v.zeroExtend 32)).setPc (s.pc + 4)) :=
  (exec_set_regField a v s).trans (setRegNext_of_ne ha _ s)

/-- Settles O24: SET is of the form reg+imm16, and reads no register. -/
theorem setRule : Obligations.SetRule := by
  refine ⟨decode_regImm16 (m := .set) rfl fun _ _ _ => rfl, fun a v => ⟨fun address _ => ?_, fun s => ⟨fun ha => ?_, ?_⟩⟩⟩
  · exact lift_of_ops (i := .set (regField a) v) (lift1_regField ..) address
  · exact exec_set_of_ne ha v s
  · rintro rfl
    rw [exec_set_regField, setRegNext_pc]

/-! ### MOV and SXT -/

/-- Settles O25: both are of the form reg+reg, whose source is read before the destination is looked at. -/
theorem movSxtRules : Obligations.MovSxtRules := by
  refine ⟨⟨?_, ?_, ?_⟩, ?_, ?_, ?_⟩
  · exact regRegForm_of_lift2 (m := .mov) rfl (fun _ _ _ => rfl) (fun _ _ _ => rfl) fun _ _ _ => rfl
  · exact computesFrom1_of_regRegOp fun _ _ _ => rfl
  · exact stopsFrom1_of_regRegOp fun _ _ _ => rfl
  · exact regRegForm_of_lift2 (m := .sxt) rfl (fun _ _ _ => rfl) (fun _ _ _ => rfl) fun _ _ _ => rfl
  · exact computesFrom1_of_regRegOp fun _ _ _ => rfl
  · exact stopsFrom1_of_regRegOp fun _ _ _ => rfl

/-! ### SUP -/

/-- SUP reads its register and writes it back with the immediate above the old low half-word (42_move_const.md R114). -/
theorem exec_sup_regField (a : RegId) (v : BitVec 16) (s : State) :
    exec (.sup (regField a) v) s = (readReg a s).andThen fun va => setRegNext a (v ++ va.extractLsb' 0 16) s := by
  simp only [exec, execSup, withReg_regField, sup_formula]

/-- With its register written, SUP completes. -/
theorem exec_sup_of_value {a : RegId} {s : State} {va : Word} (ha : a ≠ pcReg) (xa : s.reg a = .value va) (v : BitVec 16) :
    exec (.sup (regField a) v) s = .next ((s.setReg a (v ++ va.extractLsb' 0 16)).setPc (s.pc + 4)) := by
  rw [exec_sup_regField, readReg_of_value ha xa, Res.andThen_next, setRegNext_of_ne ha]

/-- The low half-word of a zero-extended half-word is that half-word. -/
theorem extractLsb'_zeroExtend_16 (v : BitVec 16) : (v.zeroExtend 32).extractLsb' 0 16 = v :=
  (BitVec.extractLsb'_setWidth_of_le (by decide)).trans BitVec.extractLsb'_eq_self

/-- Right after `set rA lo`, `sup rA hi` leaves `hi ‖ lo` in rA: what rA held before does not matter (42_move_const.md R114). -/
theorem exec_set_andThen_sup {a : RegId} (ha : a ≠ pcReg) (hi lo : BitVec 16) (s : State) :
    Res.andThen (exec (.set (regField a) lo) s) (exec (.sup (regField a) hi)) =
      .next ((s.setReg a (hi ++ lo)).setPc (s.pc + 4 + 4)) := by
  have hset : ((s.setReg a (lo.zeroExtend 32)).setPc (s.pc + 4)).reg a = .value (lo.zeroExtend 32) := by
    rw [State.reg_setPc, State.reg_setReg_same]
  rw [exec_set_of_ne ha, Res.andThen_next, exec_sup_of_value ha hset, extractLsb'_zeroExtend_16, State.setPc_pc, State.setReg_setPc,
    State.setReg_setReg, State.setPc_setPc]

/-- Settles O26: SUP is of the form reg+imm16, and stops where its read does. -/
theorem supRule : Obligations.SupRule := by
  refine ⟨decode_regImm16 (m := .sup) rfl fun _ _ _ => rfl, fun a v => ⟨fun address _ => ?_, ?_, fun s ha => ⟨?_, ?_, ?_⟩⟩⟩
  · exact lift_of_ops (i := .sup (regField a) v) (lift1_regField ..) address
  · rintro s rfl
    rw [exec_sup_regField, readReg_pc, Res.andThen_refused]
  · exact fun va xa => exec_sup_of_value ha xa v
  · intro xa
    rw [exec_sup_regField, readReg_of_unwritten ha xa, Res.andThen_fault]
  · exact fun lo => exec_set_andThen_sup ha v lo s

end Sys2Proof.Machine
end

section
/-! PROOFS. The family of 43_load_store.md: the effective address (O27), the loads and stores (O28 to O31), and what the stores leave
unchanged (O47). Before them, the encoding and the sequence of the form reg+reg+imm8, and what a load and a store do once their operands
are read. -/

namespace Sys2Proof.Machine

/-! ### The effective address -/

/-- A byte below 0x80 is the same word under both extensions (43_load_store.md R116). -/
theorem signExtend_eq_zeroExtend_of_lt {v : Byte} (h : v.toNat < 0x80) : v.signExtend 32 = v.zeroExtend 32 :=
  BitVec.signExtend_eq_setWidth_of_msb_false (BitVec.msb_eq_false_iff_two_mul_lt.2 (by omega))

/-- From 0x80 on, the zero-extended byte is 0x100 above the sign-extended one, modulo 2^32 (43_load_store.md R116). -/
theorem zeroExtend_eq_signExtend_add_of_ge {v : Byte} (h : 0x80 ≤ v.toNat) : v.zeroExtend 32 = v.signExtend 32 + 0x100 := by
  have hmsb : v.msb = true := BitVec.msb_eq_true_iff_two_mul_ge.2 (by omega)
  have hsign : (v.signExtend 32).toNat = v.toNat + (2 ^ 32 - 2 ^ 8) := by
    rw [BitVec.toNat_signExtend, hmsb, if_pos rfl, BitVec.toNat_setWidth]
    omega
  apply BitVec.eq_of_toNat_eq
  rw [BitVec.toNat_add, hsign, BitVec.toNat_setWidth, show (0x100 : Word).toNat = 0x100 from rfl]
  omega

/-- The offset is the extension that LS_OFFSET_SIGNED names: where the parameter is not asked, the two are one. -/
theorem offset32_eq (v : Byte) : offset32 v = if Config.lsOffsetSigned then v.signExtend 32 else v.zeroExtend 32 := by
  cases hmsb : v.msb with
  | true => simp only [offset32, hmsb, Bool.true_and]
  | false =>
    have hsame : v.signExtend 32 = v.zeroExtend 32 := BitVec.signExtend_eq_setWidth_of_msb_false hmsb
    simp only [offset32, hmsb, Bool.false_and, Bool.false_eq_true, hsame, ite_self]

/-- Settles O27: the two extensions are the same byte below 0x80, and 0x100 apart from there on. -/
theorem effectiveAddressRule : Obligations.EffectiveAddressRule := by
  refine fun base v => ⟨?_, signExtend_eq_zeroExtend_of_lt, fun h => ?_⟩
  · rw [effAddr, offset32_eq]
  · rw [zeroExtend_eq_signExtend_add_of_ge h, add_assoc]

/-! ### The form reg+reg+imm8 -/

/-- The rule of the form reg+reg+imm8, from the opcode map's entry and the arms of the lifter: a3 is taken and never checked
(30_encoding.md R63, R66). -/
theorem regRegImm8Form_of_lift2 {op : Byte} {m : Mnemonic} {mk : Byte → Byte → Byte → Instr}
    {seq : RegId → RegId → Byte → List IrOp} {edges : Word → List Edge} (hmap : opcodeMap op = some (m, .regRegImm8))
    (hmk : m.assemble = mk) (hops : ∀ rA rB v answer, liftOps (mk rA rB v) answer = lift2 rA rB fun a b => seq a b v)
    (hedges : ∀ rA rB v address, liftEdges (mk rA rB v) address = edges address) : RegRegImm8Form op mk seq edges := by
  refine ⟨fun rA rB v => ?_, fun a b v address answer => ?_⟩
  · simp only [decode_of_map _ _ _ _ hmap, hmk, Format.fieldsOk, regFieldOk, Bool.and_eq_true, decide_eq_true_eq]
  · rw [lift_of_ops ((hops ..).trans (lift2_regField ..)), hedges]

/-! ### The effect of a load -/

/-- A load whose base is written and whose access answers a word writes that word to its destination. -/
theorem loadOp_of_access_next {op v : Byte} (a : RegId) {b : RegId} {s : State} {base w : Word} {access : Word → State → Res Word}
    (hb : b ≠ pcReg) (xb : s.reg b = .value base) (h : access (effAddr base v) s = .next w) :
    loadOp op (regField a) (regField b) v access s = setRegNext a w s := by
  simp only [loadOp, withReg_regField, readReg_of_value hb xb, Res.andThen_next, h]

/-- Settles O28: LDW is a load of the four bytes' word, where the alignment rule lets it through. -/
theorem ldwRule : Obligations.LdwRule := by
  refine ⟨regRegImm8Form_of_lift2 (m := .ldw) rfl rfl (fun _ _ _ _ => rfl) fun _ _ _ _ => rfl, ?_⟩
  intro a b v s base b0 b1 b2 b3 hb xb h0 h1 h2 h3
  have permitted (h : (effAddr base v).toNat % 4 = 0 ∨ Config.misalignedPolicy = .bytewise) :
      exec (.ldw (regField a) (regField b) v) s = setRegNext a (b3 ++ b2 ++ b1 ++ b0) s :=
    loadOp_of_access_next a hb xb ((readWord_of_permitted s h).trans (readFour_of_some h0 h1 h2 h3))
  have misaligned (h : (effAddr base v).toNat % 4 ≠ 0) (hp : Config.misalignedPolicy = .fault) :
      exec (.ldw (regField a) (regField b) v) s = .fault (.misalignedAccess (effAddr base v)) :=
    loadOp_of_access_fault a hb xb (readWord_of_misaligned s h hp)
  refine ⟨fun ha h4 => ?_, fun ha h4 => ?_, fun ha h4 => ?_, fun ha h4 => ?_⟩
  · rw [permitted (.inl h4), setRegNext_of_ne ha]
  · cases hp : Config.misalignedPolicy with
    | bytewise => exact (permitted (.inr hp)).trans (setRegNext_of_ne ha _ s)
    | fault => exact misaligned h4 hp
  · rw [permitted (.inl h4), ha, setRegNext_pc]
  · cases hp : Config.misalignedPolicy with
    | bytewise => exact (permitted (.inr hp)).trans (ha ▸ setRegNext_pc _ s)
    | fault => exact misaligned h4 hp

/-- Settles O30: LDB is a load of the zero-extended byte, which no alignment rule stands before. -/
theorem ldbRule : Obligations.LdbRule := by
  refine ⟨regRegImm8Form_of_lift2 (m := .ldb) rfl rfl (fun _ _ _ _ => rfl) fun _ _ _ _ => rfl, ?_⟩
  intro a b v s base m hb xb hm
  have hload : exec (.ldb (regField a) (regField b) v) s = setRegNext a (m.zeroExtend 32) s := by
    rw [exec, execLdb]
    exact loadOp_of_access_next a hb xb (by rw [readByte_eq_next.2 hm, Res.andThen_next, zext8])
  exact ⟨fun ha => by rw [hload, setRegNext_of_ne ha], fun ha => by rw [hload, ha, setRegNext_pc]⟩

/-! ### The effect of a store -/

/-- A store whose base and data register are written does what its access answers, and goes on to the sequential successor. -/
theorem storeOp_of_values {op v : Byte} {a b : RegId} {s : State} {base w : Word} {access : Word → Word → State → Res State}
    (ha : a ≠ pcReg) (hb : b ≠ pcReg) (xb : s.reg b = .value base) (xa : s.reg a = .value w) :
    storeOp op (regField a) (regField b) v access s = (access (effAddr base v) w s).andThen fallThrough := by
  simp only [storeOp, withReg_regField, readReg_of_value hb xb, readReg_of_value ha xa, Res.andThen_next]

/-- A word store that the alignment rule lets through stores the four bytes (20_memory.md R40). -/
theorem writeWord_of_permitted {a : Word} (w : Word) (s : State) (h : a.toNat % 4 = 0 ∨ Config.misalignedPolicy = .bytewise) :
    writeWord a w s = .next (writeFour a w s) := by
  rw [writeWord, wordAccess_eq, if_pos h, Res.andThen_next]

/-- A misaligned word store under the policy fault stores nothing. -/
theorem writeWord_of_misaligned {a : Word} (w : Word) (s : State) (h : a.toNat % 4 ≠ 0) (hp : Config.misalignedPolicy = .fault) :
    writeWord a w s = .fault (.misalignedAccess a) := by
  rw [writeWord, wordAccess_eq_fault.2 ⟨h, hp, rfl⟩, Res.andThen_fault]

/-- Settles O29: STW is a store of the data's four bytes, where the alignment rule lets it through. -/
theorem stwRule : Obligations.StwRule := by
  refine ⟨regRegImm8Form_of_lift2 (m := .stw) rfl rfl (fun _ _ _ _ => rfl) fun _ _ _ _ => rfl, ?_⟩
  intro a b v s base w ha hb xb xa
  have hstore : exec (.stw (regField a) (regField b) v) s = (writeWord (effAddr base v) w s).andThen fallThrough :=
    storeOp_of_values ha hb xb xa
  have permitted (h : (effAddr base v).toNat % 4 = 0 ∨ Config.misalignedPolicy = .bytewise) :
      exec (.stw (regField a) (regField b) v) s =
        .next ((s.setMem (writeFour (effAddr base v) w s).mem).setPc (s.pc + 4)) := by
    rw [hstore, writeWord_of_permitted w s h]
    rfl
  obtain ⟨h0, h1, h2, h3⟩ := read_writeFour (effAddr base v) w s
  refine ⟨(writeFour (effAddr base v) w s).mem, h0, h1, h2, h3, fun adr => read_writeFour_ne, fun h4 => permitted (.inl h4),
    fun h4 => ?_⟩
  cases hp : Config.misalignedPolicy with
  | bytewise => exact permitted (.inr hp)
  | fault => exact hstore.trans (by rw [writeWord_of_misaligned w s h4 hp, Res.andThen_fault])

/-- Settles O31: STB is a store of the data's low byte, which no alignment rule stands before. -/
theorem stbRule : Obligations.StbRule := by
  refine ⟨regRegImm8Form_of_lift2 (m := .stb) rfl rfl (fun _ _ _ _ => rfl) fun _ _ _ _ => rfl, ?_⟩
  intro a b v s base w ha hb xb xa
  have hstore : exec (.stb (regField a) (regField b) v) s = .next (advance (writeByte (effAddr base v) (field3 w) s)) := by
    rw [exec, execStb, storeOp_of_values ha hb xb xa]
    rfl
  exact ⟨_, hstore, rfl, Memory.read_write_same .., fun adr h => Memory.read_write_ne _ _ h⟩

/-! ### The frame of a store -/

/-- A completed store did what its access answers at the effective address of its base's value, and went on. -/
theorem storeOp_eq_next_of_base {op rA v : Byte} {b : RegId} {base : Word} {access : Word → Word → State → Res State} {s t : State}
    (xb : s.reg b = .value base) (h : storeOp op rA (regField b) v access s = .next t) :
    ∃ w u, access (effAddr base v) w s = .next u ∧ t = advance u := by
  obtain ⟨_, b', base', w, u, -, hb, -, -, xb', -, hu, ht⟩ := storeOp_eq_next.1 h
  cases (regId?_regField b).symm.trans hb
  cases xb.symm.trans xb'
  exact ⟨w, u, hu, ht⟩

/-- Settles O47: a completed store changed memory and pc alone, and memory at the stored bytes alone. -/
theorem storeFrame : Obligations.StoreFrame := by
  intro rA b v base s t xb
  refine ⟨fun h => ?_, fun h => ?_⟩
  · obtain ⟨w, u, hu, rfl⟩ := storeOp_eq_next_of_base xb h
    cases writeWord_eq_next hu
    exact ⟨fun _ => rfl, rfl, rfl, rfl, rfl, rfl, fun adr => read_writeFour_ne⟩
  · rw [exec, execStb] at h
    obtain ⟨w, u, hu, rfl⟩ := storeOp_eq_next_of_base xb h
    cases hu
    exact ⟨fun _ => rfl, rfl, rfl, rfl, rfl, rfl, fun adr hadr => Memory.read_write_ne _ _ hadr⟩

end Sys2Proof.Machine
end

section
/-! PROOFS. The family of 44_control.md: the control transfers JMI, JMP, BVE, BVN, CAL and RET (O33 to O37), JMI's label request (O16),
a call and its return (O38), and what the transfers and the system instructions leave unchanged (O48). Before them, the encodings of the
formats that they use, and what a transfer through a register does for each answer of the read of that register. -/

namespace Sys2Proof.Machine

/-! ### Encodings -/

/-- A word whose opcode is mapped to a format that passes its raw fields decodes to what the mnemonic assembles. -/
theorem decode_of_fieldsOk {op a1 a2 a3 : Byte} {m : Mnemonic} {f : Format} (hmap : opcodeMap op = some (m, f))
    (hf : f.fieldsOk a1 a2 a3 = true) : decode (op ++ a1 ++ a2 ++ a3) = .ok (m.assemble a1 a2 a3) :=
  (decode_of_map _ _ _ _ hmap).trans (if_pos hf)

/-- The encoding of the form reg, from the opcode map's entry: a1 alone is checked and taken (30_encoding.md R59, R67). -/
theorem decode_reg {op : Byte} {m : Mnemonic} {mk : Byte → Instr} (hmap : opcodeMap op = some (m, .reg))
    (hmk : ∀ rA a2 a3, m.assemble rA a2 a3 = mk rA) (rA a2 a3 : Byte) :
    decode (op ++ rA ++ a2 ++ a3) = if rA.toNat ≤ 0x24 then .ok (mk rA) else .error .invalidRegisterField := by
  simp only [decode_of_map _ _ _ _ hmap, hmk, Format.fieldsOk, regFieldOk, decide_eq_true_eq]

/-! ### JMI and its label request -/

/-- JMI is the one instruction that asks the label port (44_control.md R121). -/
theorem labelRequest_eq_some {i : Instr} {t : Word} (h : labelRequest i = some t) : ∃ v, i = .jmi v ∧ t = zext24 v := by
  cases i with
  | jmi v => exact ⟨v, rfl, (Option.some.inj h).symm⟩
  | _ => cases h

/-- A sequence of one operation that stops it leaves the state of that operation, without temporaries. -/
theorem evalSeq_of_stop {x : IrOp} {address : Word} {op : Byte} {s t : State}
    (h : evalOp address op x (s.setTemps []) = .next (.stop t)) : evalSeq [x] address op s = t.setTemps [] := by
  simp only [evalSeq, List.length_singleton, evalOps, h]

/-- Settles O16: the jump to the handle's address and the jump to the constant stop in the same state. -/
theorem labelAnswerDoesNotChangeMeaning : Obligations.LabelAnswerDoesNotChangeMeaning := by
  refine ⟨fun i t => labelRequest_eq_some, fun i s address t h ht haddr => ?_⟩
  obtain ⟨v, rfl, rfl⟩ := labelRequest_eq_some ht
  refine ⟨lift_of_ops rfl address, lift_of_ops rfl address, ?_⟩
  have hgoto : evalSeq [.goto (.host h)] address (Instr.jmi v).opcode s = ((s.setTemps []).setPc (zext24 v)).setTemps [] :=
    haddr ▸ evalSeq_of_stop rfl
  exact hgoto.trans (evalSeq_of_stop (x := .jump (.constPtr (zext24 v))) rfl).symm

/-- Settles O33: JMI is of the form imm24, and its meaning goes through the label that it requests. -/
theorem jmiRule : Obligations.JmiRule :=
  ⟨fun _ _ _ => decode_of_fieldsOk (m := .jmi) rfl rfl,
    fun _ => ⟨rfl, fun address _ => ⟨lift_of_ops rfl address, lift_of_ops rfl address⟩, fun _ => rfl⟩⟩

/-! ### Transfers through a register -/

/-- What follows the read of a register, for each of the read's answers. -/
theorem readReg_andThen (a : RegId) (s : State) (k : Word → Res State) :
    (∀ w, a ≠ pcReg → s.reg a = .value w → (readReg a s).andThen k = k w) ∧
    (a ≠ pcReg → s.reg a = .unwritten → (readReg a s).andThen k = .fault (.unwrittenRead (.reg a))) ∧
    (a = pcReg → (readReg a s).andThen k = .refused .pcOperand) := by
  refine ⟨fun w ha xa => ?_, fun ha xa => ?_, fun ha => ?_⟩
  · rw [readReg_of_value ha xa, Res.andThen_next]
  · rw [readReg_of_unwritten ha xa, Res.andThen_fault]
  · rw [ha, readReg_pc, Res.andThen_refused]

/-- JMP reads its target and changes pc alone (44_control.md R122). -/
theorem exec_jmp_regField (a : RegId) (s : State) :
    exec (.jmp (regField a)) s = (readReg a s).andThen fun target => .next (s.setPc target) :=
  withReg_regField ..

/-- CAL reads its target before it writes the link register (44_control.md R125). -/
theorem exec_cal_regField (a : RegId) (s : State) :
    exec (.cal (regField a)) s = (readReg a s).andThen fun target => .next ((s.setReg lrReg (s.pc + 4)).setPc target) :=
  withReg_regField ..

/-- Settles O34: JMP is of the form reg, and stops where its read does. -/
theorem jmpRule : Obligations.JmpRule := by
  refine ⟨decode_reg (m := .jmp) rfl fun _ _ _ => rfl, fun a => ⟨fun address _ => ?_, fun s => ?_⟩⟩
  · exact lift_of_ops (i := .jmp (regField a)) (lift1_regField ..) address
  · rw [exec_jmp_regField]
    exact readReg_andThen a s _

/-- Settles O36: CAL is of the form reg, and stops where its read does. -/
theorem calRule : Obligations.CalRule := by
  refine ⟨decode_reg (m := .cal) rfl fun _ _ _ => rfl, fun a => ⟨fun address _ => ?_, fun s => ?_⟩⟩
  · exact lift_of_ops (i := .cal (regField a)) (lift1_regField ..) address
  · rw [exec_cal_regField]
    exact readReg_andThen a s _

/-! ### The conditional branches -/

/-- A branch reads rB, then does what JMP does through rA where its condition `c` holds, and what NOP does where it does not
(44_control.md R123, R124). -/
theorem branchOp_regField (op : Byte) (a b : RegId) {taken : Word → Bool} {c : Word → Prop} [DecidablePred c]
    (h : ∀ vb, taken vb = true ↔ c vb) (s : State) : branchOp op (regField a) (regField b) taken s =
      (readReg b s).andThen fun vb => if c vb then exec (.jmp (regField a)) s else exec .nop s := by
  rw [branchOp, withReg_regField, withReg_regField]
  exact congrArg (Res.andThen _) (funext fun vb => if_congr (h vb) (exec_jmp_regField a s).symm rfl)

/-- BVE is taken when rB holds the zero-extended immediate. -/
theorem exec_bve_regField (a b : RegId) (v : Byte) (s : State) : exec (.bve (regField a) (regField b) v) s =
    (readReg b s).andThen fun vb => if vb = v.zeroExtend 32 then exec (.jmp (regField a)) s else exec .nop s :=
  branchOp_regField 0x24 a b (fun _ => decide_eq_true_iff) s

/-- BVN is taken when rB holds anything but the zero-extended immediate. -/
theorem exec_bvn_regField (a b : RegId) (v : Byte) (s : State) : exec (.bvn (regField a) (regField b) v) s =
    (readReg b s).andThen fun vb => if vb ≠ v.zeroExtend 32 then exec (.jmp (regField a)) s else exec .nop s :=
  branchOp_regField 0x25 a b (fun _ => by rw [Bool.not_eq_true', equalsImm, decide_eq_false_iff_not, zext8]) s

/-- Settles O35: both branches read rB, and are JMP where they are taken and NOP where they are not. -/
theorem branchRules : Obligations.BranchRules := by
  refine ⟨?_, ?_, fun a b v s i hi => ?_, fun a b v s vb hb xb => ?_⟩
  · exact regRegImm8Form_of_lift2 (m := .bve) rfl rfl (fun _ _ _ _ => rfl) fun _ _ _ _ => rfl
  · exact regRegImm8Form_of_lift2 (m := .bvn) rfl rfl (fun _ _ _ _ => rfl) fun _ _ _ _ => rfl
  · obtain ⟨k, hk⟩ : ∃ k, exec i s = (readReg b s).andThen k := by
      simp only [List.mem_cons, List.not_mem_nil, or_false] at hi
      obtain rfl | rfl := hi
      · exact ⟨_, exec_bve_regField a b v s⟩
      · exact ⟨_, exec_bvn_regField a b v s⟩
    obtain ⟨-, hunwritten, hpc⟩ := readReg_andThen b s k
    rw [hk]
    exact ⟨hpc, hunwritten⟩
  · have hbve : exec (.bve (regField a) (regField b) v) s =
        if vb = v.zeroExtend 32 then exec (.jmp (regField a)) s else exec .nop s := by
      rw [exec_bve_regField, readReg_of_value hb xb, Res.andThen_next]
    have hbvn : exec (.bvn (regField a) (regField b) v) s =
        if vb ≠ v.zeroExtend 32 then exec (.jmp (regField a)) s else exec .nop s := by
      rw [exec_bvn_regField, readReg_of_value hb xb, Res.andThen_next]
    have hjmp := readReg_andThen a s fun target => .next (s.setPc target)
    rw [← exec_jmp_regField] at hjmp
    obtain ⟨hvalue, hunwritten, hpc⟩ := hjmp
    refine ⟨fun h => hbve.trans (if_neg h), fun h => hbvn.trans (if_neg (not_not.2 h)),
      fun target ha xa => ⟨fun h => ?_, fun h => ?_⟩, fun ha xa => ⟨fun h => ?_, fun h => ?_⟩,
      fun ha => ⟨fun h => ?_, fun h => ?_⟩⟩
    · rw [hbve, if_pos h, hvalue target ha xa]
    · rw [hbvn, if_pos h, hvalue target ha xa]
    · rw [hbve, if_pos h, hunwritten ha xa]
    · rw [hbvn, if_pos h, hunwritten ha xa]
    · rw [hbve, if_pos h, hpc ha]
    · rw [hbvn, if_pos h, hpc ha]

/-! ### RET, and a call with its return -/

/-- The link register is not pc. -/
theorem lrReg_ne_pcReg : lrReg ≠ pcReg := by decide

/-- With the link register written, RET goes to its old value and leaves it 0 (44_control.md R126). -/
theorem exec_ret_of_value {s : State} {target : Word} (h : s.reg lrReg = .value target) :
    exec .ret s = .next ((s.setReg lrReg 0).setPc target) := by
  rw [exec, execRet, readReg_of_value lrReg_ne_pcReg h, Res.andThen_next, jumpTo]

/-- Settles O37: the link register that one RET leaves is the target 0 of the next. -/
theorem retRule : Obligations.RetRule := by
  refine ⟨fun _ _ _ => decode_of_fieldsOk (m := .ret) rfl rfl, fun address _ => lift_of_ops rfl address,
    fun s => ⟨fun target h => ⟨exec_ret_of_value h, ?_⟩, fun h => ?_⟩⟩
  · have hcleared : ((s.setReg lrReg 0).setPc target).reg lrReg = .value 0 := by rw [State.reg_setPc, State.reg_setReg_same]
    rw [exec_ret_of_value h, Res.andThen_next, exec_ret_of_value hcleared, State.setReg_setPc, State.setReg_setReg, State.setPc_setPc]
  · rw [exec, execRet, readReg_of_unwritten lrReg_ne_pcReg h, Res.andThen_fault]

/-- Settles O38: the return finds the call's link, and both change the link register and pc alone. -/
theorem callThenReturnComesBack : Obligations.CallThenReturnComesBack := by
  intro a s target ha xa
  have hlink : ((s.setReg lrReg (s.pc + 4)).setPc target).reg lrReg = .value (s.pc + 4) := by
    rw [State.reg_setPc, State.reg_setReg_same]
  refine ⟨(s.setReg lrReg 0).setPc (s.pc + 4), ?_, rfl, ?_, fun q hq => State.reg_setReg_ne s 0 hq, fun _ => rfl⟩
  · rw [exec_cal_regField, readReg_of_value ha xa, Res.andThen_next, Res.andThen_next, exec_ret_of_value hlink, State.setReg_setPc,
      State.setReg_setReg, State.setPc_setPc]
  · rw [State.reg_setPc, State.reg_setReg_same]

/-! ### The frame of the transfers and the system instructions -/

/-- A completed transfer through a register has read some target and done its effect. -/
theorem transfer_eq_next {op rA : Byte} {s t : State} (u : Word → State)
    (h : (withReg op rA fun a => (readReg a s).andThen fun target => .next (u target)) = .next t) : ∃ target, t = u target := by
  obtain ⟨_, -, h⟩ := withReg_eq_next.1 h
  obtain ⟨target, -, h⟩ := Res.andThen_eq_next.1 h
  cases h
  exact ⟨target, rfl⟩

/-- A completed branch changed pc alone, taken or not. -/
theorem branchOp_next_setPc {op rA rB : Byte} {taken : Word → Bool} {s t : State} (h : branchOp op rA rB taken s = .next t) :
    ∃ p, t = s.setPc p := by
  obtain ⟨_, _, _, -, -, -, -, ⟨-, -, target, -, ht⟩ | ⟨-, ht⟩⟩ := branchOp_eq_next.1 h
  · exact ⟨target, ht⟩
  · exact ⟨_, ht⟩

/-- Settles O48: JMP, the branches and NOP change pc alone, JMI pc and the label table, CAL and RET pc and the link register, HLT the
status, and INT the status and pc. -/
theorem transferAndSystemFrame : Obligations.TransferAndSystemFrame := by
  intro rA rB v v24 s t
  refine ⟨fun i hi h => ?_, fun h => ?_, fun i hi h => ?_, fun i hi h => ?_⟩
  · obtain ⟨p, rfl⟩ : ∃ p, t = s.setPc p := by
      simp only [List.mem_cons, List.not_mem_nil, or_false] at hi
      obtain rfl | rfl | rfl | rfl := hi
      · exact transfer_eq_next s.setPc h
      · exact branchOp_next_setPc h
      · exact branchOp_next_setPc h
      · cases h
        exact ⟨s.pc + 4, rfl⟩
    exact ⟨fun _ => rfl, fun _ => rfl, rfl, rfl, rfl, rfl⟩
  · cases h
    exact ⟨fun _ => rfl, fun _ => rfl, rfl, rfl, rfl, ite_eq_or_eq _ _ _⟩
  · obtain ⟨w, p, rfl⟩ : ∃ w p, t = (s.setReg lrReg w).setPc p := by
      simp only [List.mem_cons, List.not_mem_nil, or_false] at hi
      obtain rfl | rfl := hi
      · exact ⟨s.pc + 4, transfer_eq_next (s.setReg lrReg (s.pc + 4)).setPc h⟩
      · obtain ⟨target, -, h⟩ := Res.andThen_eq_next.1 h
        cases h
        exact ⟨0, target, rfl⟩
    exact ⟨fun q hq => State.reg_setReg_ne s w hq, fun _ => rfl, rfl, rfl, rfl, rfl⟩
  · obtain ⟨p, st, rfl⟩ : ∃ p st, t = (s.setPc p).setStatus st := by
      simp only [List.mem_cons, List.not_mem_nil, or_false] at hi
      obtain rfl | rfl := hi
      · cases h
        exact ⟨s.pc, .halted, rfl⟩
      · cases h
        exact ⟨s.pc + 4, .syscall v24, rfl⟩
    exact ⟨fun _ => rfl, fun _ => rfl, rfl, rfl, rfl⟩

end Sys2Proof.Machine
end

section
/-! PROOFS. The family of 45_compare_sia.md: the comparisons into a register (O39, O40) and shift-and-add (O41). Before each, the closed
form of what it computes. -/

namespace Sys2Proof.Machine

/-! ### The comparisons into a register -/

/-- A decided proposition as a word (00_scope.md R10). -/
theorem boolToWord_decide (p : Prop) [Decidable p] : boolToWord (decide p) = if p then 1 else 0 := by
  simp only [boolToWord, decide_eq_true_eq]

/-- In any linear order, "above" less "below" is -1, 0 or 1 as the first is below, equal to or above the second. -/
theorem above_sub_below {α : Type} [LinearOrder α] (x y : α) :
    boolToWord (decide (y < x)) - boolToWord (decide (x < y)) = if x < y then 0xFFFFFFFF else if x = y then 0 else 1 := by
  simp only [boolToWord_decide]
  obtain hlt | rfl | hgt := lt_trichotomy x y
  · rw [if_neg hlt.asymm, if_pos hlt, if_pos hlt]
    rfl
  · rw [if_neg (lt_irrefl x), if_neg (lt_irrefl x), if_pos rfl]
    rfl
  · rw [if_pos hgt, if_neg hgt.asymm, if_neg hgt.asymm, if_neg hgt.ne']
    rfl

/-- TCU's result by the unsigned order (45_compare_sia.md R127). -/
theorem compareU_eq (b c : Word) : compareU b c = if b.toNat < c.toNat then 0xFFFFFFFF else if b = c then 0 else 1 := by
  simp only [compareU, above_sub_below, BitVec.toNat_inj]

/-- TCS's result by the signed order (45_compare_sia.md R128). -/
theorem compareS_eq (b c : Word) : compareS b c = if b.toInt < c.toInt then 0xFFFFFFFF else if b = c then 0 else 1 := by
  simp only [compareS, above_sub_below, BitVec.toInt_inj]

/-- Settles O39: each is of the form reg+reg+reg, with a function that never stops. -/
theorem threeWayCompareRules : Obligations.ThreeWayCompareRules := by
  refine ⟨⟨?_, ?_, ?_⟩, ?_, ?_, ?_⟩
  · exact regRegRegForm_of_lift3 (m := .tcu) rfl rfl (fun _ _ _ _ => rfl) fun _ _ _ _ => rfl
  · simp only [← compareU_eq]
    exact computesFrom2_of_regRegRegOp fun _ _ _ _ => rfl
  · exact stopsFrom2_of_regRegRegOp fun _ _ _ _ => rfl
  · exact regRegRegForm_of_lift3 (m := .tcs) rfl rfl (fun _ _ _ _ => rfl) fun _ _ _ _ => rfl
  · simp only [← compareS_eq]
    exact computesFrom2_of_regRegRegOp fun _ _ _ _ => rfl
  · exact stopsFrom2_of_regRegRegOp fun _ _ _ _ => rfl

/-- SEQ's result: whether the source is the zero-extended immediate (45_compare_sia.md R129). -/
theorem boolToWord_equalsImm (b : Word) (v : Byte) : boolToWord (equalsImm b v) = if b = v.zeroExtend 32 then 1 else 0 :=
  boolToWord_decide _

/-- Settles O40: SEQ is of the form reg+reg+imm8 by its encoding, and of the form reg+reg by its effect. -/
theorem seqRule : Obligations.SeqRule := by
  refine ⟨?_, fun v => ⟨?_, ?_⟩⟩
  · exact regRegImm8Form_of_lift2 (m := .seq) rfl rfl (fun _ _ _ _ => rfl) fun _ _ _ _ => rfl
  · simp only [← boolToWord_equalsImm]
    exact computesFrom1_of_regRegOp fun _ _ _ => rfl
  · exact stopsFrom1_of_regRegOp fun _ _ _ => rfl

/-! ### Shift-and-add -/

/-- The encoding of the form reg+imm8+imm8, from the opcode map's entry: a1 alone is checked (30_encoding.md R64, R66). -/
theorem decode_regImm8Imm8 {op : Byte} {m : Mnemonic} {mk : Byte → Byte → Byte → Instr}
    (hmap : opcodeMap op = some (m, .regImm8Imm8)) (hmk : m.assemble = mk) (rA v0 v1 : Byte) :
    decode (op ++ rA ++ v0 ++ v1) = if rA.toNat ≤ 0x24 then .ok (mk rA v0 v1) else .error .invalidRegisterField := by
  simp only [decode_of_map _ _ _ _ hmap, hmk, Format.fieldsOk, regFieldOk, decide_eq_true_eq]

/-- The state after SIA with the value `va` in its register: what is added is the literal shifted by a count below 32, else a free value
that is drawn (45_compare_sia.md R130; log 5). -/
def siaState (a : RegId) (va : Word) (v0 v1 : Byte) (s : State) : State :=
  if v1.toNat < 32 then (s.setReg a (va + (v0.zeroExtend 32) <<< v1.toNat)).setPc (s.pc + 4)
  else ((s.setReg a (va + Config.shiftOversize .shl (v0.zeroExtend 32) (v1.zeroExtend 32) s.draws)).setDraws
    (s.draws + 1)).setPc (s.pc + 4)

/-- SIA reads its register before the count is looked at, and writes it back with the shifted literal added. -/
theorem exec_sia_regField (a : RegId) (v0 v1 : Byte) (s : State) : exec (.sia (regField a) v0 v1) s =
    (readReg a s).andThen fun va => setRegNext a (va + (shiftBy .shl (zext8 v0) (zext8 v1) s).1)
      (shiftBy .shl (zext8 v0) (zext8 v1) s).2 :=
  withReg_regField ..

/-- A zero-extended byte is the same number. -/
theorem toNat_zext8 (v : Byte) : (zext8 v).toNat = v.toNat :=
  BitVec.toNat_setWidth_of_le (by decide)

/-- Writing back the sum of SIA, and going on. -/
theorem setRegNext_add_shiftBy {a : RegId} (ha : a ≠ pcReg) (va : Word) (v0 v1 : Byte) (s : State) :
    setRegNext a (va + (shiftBy .shl (zext8 v0) (zext8 v1) s).1) (shiftBy .shl (zext8 v0) (zext8 v1) s).2 =
      .next (siaState a va v0 v1 s) := by
  have hcount : (zext8 v1).toNat < 32 ↔ v1.toNat < 32 := by rw [toNat_zext8]
  rw [setRegNext_of_ne ha, siaState]
  split
  · next hlt =>
    rw [shiftBy_of_lt (hcount.2 hlt), toNat_zext8]
    rfl
  · next hge =>
    rw [shiftBy_of_ge (mt hcount.1 hge)]
    rfl

/-- Settles O41: SIA is of the form reg+imm8+imm8, and stops where its read does. -/
theorem siaRule : Obligations.SiaRule := by
  refine ⟨decode_regImm8Imm8 (m := .sia) rfl rfl, fun a v0 v1 => ⟨fun address _ => ?_, fun s ha => ?_, fun s ha => ?_⟩⟩
  · exact lift_of_ops (i := .sia (regField a) v0 v1) (lift1_regField ..) address
  · obtain ⟨-, -, hpc⟩ := readReg_andThen a s _
    rw [exec_sia_regField, hpc ha]
  · obtain ⟨hvalue, hunwritten, -⟩ := readReg_andThen a s _
    rw [exec_sia_regField]
    exact ⟨fun va xa => (hvalue va ha xa).trans (setRegNext_add_shiftBy ha va v0 v1 s), hunwritten ha⟩

end Sys2Proof.Machine
end

section
/-! PROOFS. The family of 46_system.md: NOP, HLT, INT and SND (O42 to O45). Before them, what the three that have a meaning do from every
state, and that a run which an instruction ended stays ended. -/

namespace Sys2Proof.Machine

/-- A stopped machine runs no further (60_exceptions.md R150). -/
theorem refRun_of_stopped {s : State} (h : s.status ≠ .running) (k : Nat) : refRun k s = s := by
  obtain ⟨href, -⟩ := stoppedRunStaysStopped k s h
  exact href

/-! ### NOP -/

/-- NOP goes to the sequential successor (46_system.md R131). -/
theorem exec_nop (s : State) : exec .nop s = .next (s.setPc (s.pc + 4)) :=
  fallThrough_eq s

/-- Settles O42: NOP's opcode and its ignored fields may all be 0, so that its canonical word is the all-zero word. -/
theorem nopRule : Obligations.NopRule :=
  ⟨fun _ _ _ => decode_of_fieldsOk (m := .nop) rfl rfl, decode_encode (i := .nop) rfl, fun address _ => lift_of_ops rfl address,
    exec_nop⟩

/-! ### HLT and INT, which end the run -/

/-- HLT changes the status alone: pc keeps HLT's address (46_system.md R132). -/
theorem exec_hlt (s : State) : exec .hlt s = .next (s.setStatus .halted) := rfl

/-- INT sets the status and goes to the sequential successor (46_system.md R133). -/
theorem exec_int (v : BitVec 24) (s : State) :
    exec (.int v) s = .next ((s.setStatus (.syscall v)).setPc (s.pc + 4)) := rfl

/-- Settles O43: the halted state is stopped, hence final. -/
theorem hltRule : Obligations.HltRule := by
  refine ⟨fun _ _ _ => decode_of_fieldsOk (m := .hlt) rfl rfl, fun address _ => lift_of_ops rfl address,
    fun s => ⟨exec_hlt s, refRun_of_stopped ?_⟩⟩
  rw [State.setStatus_status]
  exact nofun

/-- Settles O44: the state in a system call is stopped, hence final. -/
theorem intRule : Obligations.IntRule := by
  refine ⟨fun _ _ _ => decode_of_fieldsOk (m := .int) rfl rfl, fun v => ⟨fun address _ => lift_of_ops rfl address,
    fun s => ⟨exec_int v s, refRun_of_stopped ?_⟩⟩⟩
  rw [State.setPc_status, State.setStatus_status]
  exact nofun

/-! ### SND -/

/-- The encoding of the form reg+reg+reg, from the opcode map's entry: every field is checked (30_encoding.md R65, R66). -/
theorem decode_regRegReg {op : Byte} {m : Mnemonic} {mk : Byte → Byte → Byte → Instr} (hmap : opcodeMap op = some (m, .regRegReg))
    (hmk : m.assemble = mk) (rA rB rC : Byte) : decode (op ++ rA ++ rB ++ rC) =
      if rA.toNat ≤ 0x24 ∧ rB.toNat ≤ 0x24 ∧ rC.toNat ≤ 0x24 then .ok (mk rA rB rC) else .error .invalidRegisterField := by
  simp only [decode_of_map _ _ _ _ hmap, hmk, Format.fieldsOk, regFieldOk, Bool.and_eq_true, decide_eq_true_eq, and_assoc]

/-- SND refuses before it looks at its operands (46_system.md R134). -/
theorem exec_snd (rA rB rC : Byte) (s : State) : exec (.snd rA rB rC) s = .refused (.unmodelled 0xFD) := rfl

/-- Settles O45: SND is decoded as any instruction of the form reg+reg+reg, and its lift is the fallback. -/
theorem sndAlwaysRefused : Obligations.SndAlwaysRefused :=
  ⟨⟨decode_regRegReg (m := .snd) rfl rfl, fun _ _ _ => lift_of_snd rfl⟩, exec_snd⟩

end Sys2Proof.Machine
end

section
/-! PROOFS. The family of 60_exceptions.md: that a stopped instruction has no effect (O13), what a completed one leaves as the status
(O56), and what an instruction may stop for (O58). Before them, the status after an instruction, and the refusals of the operations. -/

namespace Sys2Proof.Machine

/-! ### The status that a completed instruction leaves -/

/-- A completed instruction other than HLT and INT leaves the status as it was. -/
theorem status_of_exec_eq_next {i : Instr} {s t : State} (hhlt : i ≠ .hlt) (hint : ∀ code, i ≠ .int code)
    (h : exec i s = .next t) : t.status = s.status := by
  cases i with
  | add | sub | mul | and | orr | xor | div | mod | not | lsh | ash | set | mov | sup | sxt | ldw | ldb | tcu | tcs | seq | sia =>
    obtain ⟨_, _, _, -, rfl, -⟩ := exec_eq_next_of_destField rfl h
    rfl
  | stw =>
    obtain ⟨_, _, _, _, u, -, -, -, -, -, -, hu, rfl⟩ := storeOp_eq_next.1 h
    cases writeWord_eq_next hu
    rfl
  | stb =>
    rw [exec, execStb] at h
    obtain ⟨_, _, _, _, u, -, -, -, -, -, -, hu, rfl⟩ := storeOp_eq_next.1 h
    cases hu
    rfl
  | jmp =>
    obtain ⟨_, rfl⟩ := transfer_eq_next s.setPc h
    rfl
  | cal =>
    obtain ⟨_, rfl⟩ := transfer_eq_next (s.setReg lrReg (s.pc + 4)).setPc h
    rfl
  | bve | bvn =>
    obtain ⟨_, rfl⟩ := branchOp_next_setPc h
    rfl
  | ret =>
    obtain ⟨_, -, h⟩ := Res.andThen_eq_next.1 h
    cases h
    rfl
  | nop | jmi =>
    cases h
    rfl
  | snd => cases h
  | hlt => exact absurd rfl hhlt
  | int code => exact absurd rfl (hint code)

/-- A completed instruction is HLT, and halted; or INT, and in the system call of its code; or neither, and left the status. -/
theorem exec_status_cases {i : Instr} {s t : State} (h : exec i s = .next t) :
    (i = .hlt ∧ t.status = .halted) ∨ (∃ code, i = .int code ∧ t.status = .syscall code) ∨
    (i ≠ .hlt ∧ (∀ code, i ≠ .int code) ∧ t.status = s.status) := by
  by_cases hhlt : i = .hlt
  · subst hhlt
    cases h
    exact .inl ⟨rfl, rfl⟩
  · by_cases hint : ∃ code, i = .int code
    · obtain ⟨code, rfl⟩ := hint
      cases h
      exact .inr (.inl ⟨code, rfl, rfl⟩)
    · have hint' : ∀ code, i ≠ .int code := not_exists.1 hint
      exact .inr (.inr ⟨hhlt, hint', status_of_exec_eq_next hhlt hint' h⟩)

/-- Settles O56: HLT halts, INT enters the system call of its code, and any other instruction leaves the machine running. -/
theorem onlyIntTrapsOnlyHltHalts : Obligations.OnlyIntTrapsOnlyHltHalts := by
  intro i s t hrun h
  obtain ⟨rfl, ht⟩ | ⟨code, rfl, ht⟩ | ⟨hhlt, hint, ht⟩ := exec_status_cases h
  · simp [ht]
  · simp [ht]
  · simp [ht, hrun, hhlt, hint]

/-! ### A stop has no effect -/

/-- Where an evaluation ends in a status that no completed instruction leaves, only the status has changed (60_exceptions.md R144). -/
theorem conclude_eq_setStatus {s : State} {m : Res State} {st : Status} (hnext : ∀ t, m = .next t → t.status ≠ st)
    (h : (s.conclude m).status = st) : s.conclude m = s.setStatus st := by
  subst h
  cases m with
  | next t => exact absurd rfl (hnext t rfl)
  | fault e => rfl
  | refused e => rfl

/-- A running machine's completed instruction leaves the status running, halted or in a system call. -/
theorem status_ne_of_exec_eq_next {i : Instr} {s t : State} (hrun : s.status = .running) (h : exec i s = .next t) :
    (∀ r, t.status ≠ .fault r) ∧ ∀ r, t.status ≠ .refused r := by
  obtain ⟨-, ht⟩ | ⟨code, -, ht⟩ | ⟨-, -, ht⟩ := exec_status_cases h
  · rw [ht]; exact ⟨nofun, nofun⟩
  · rw [ht]; exact ⟨nofun, nofun⟩
  · rw [ht, hrun]; exact ⟨nofun, nofun⟩

/-- Settles O13: the evaluation ends as the instruction's meaning concludes, and no completed instruction leaves a fault or a refusal as
the status. -/
theorem liftedStopHasNoEffect : Obligations.LiftedStopHasNoEffect := by
  intro i s ht hrun
  rw [evalLifted_eq_conclude i ht]
  constructor
  · refine fun r => conclude_eq_setStatus fun t h => ?_
    obtain ⟨hfault, -⟩ := status_ne_of_exec_eq_next hrun h
    exact hfault r
  · refine fun r => conclude_eq_setStatus fun t h => ?_
    obtain ⟨-, hrefused⟩ := status_ne_of_exec_eq_next hrun h
    exact hrefused r

/-! ### Operations that refuse only a pc operand -/

/-- The operation refuses only where pc is read or written as an operand (40_lifter_ir.md R98). -/
def RefusesOnlyPc {α : Type} (m : Res α) : Prop := ∀ e, m = .refused e → e = .pcOperand

section RefusesOnlyPc

variable {α β : Type}

/-- A completed operation does not refuse. -/
theorem RefusesOnlyPc.next (a : α) : RefusesOnlyPc (.next a : Res α) := nofun

/-- Going on refuses where one of the two parts does. -/
theorem RefusesOnlyPc.andThen {r : Res α} {k : α → Res β} (hr : RefusesOnlyPc r) (hk : ∀ a, RefusesOnlyPc (k a)) :
    RefusesOnlyPc (r.andThen k) := by
  intro e h
  obtain h | ⟨a, -, h⟩ := Res.andThen_eq_refused.1 h
  · exact hr e h
  · exact hk a e h

end RefusesOnlyPc

/-- A register read. -/
theorem RefusesOnlyPc.readReg (r : RegId) (s : State) : RefusesOnlyPc (readReg r s) :=
  fun _ h => (readReg_eq_refused.1 h).2

/-- A register result. -/
theorem RefusesOnlyPc.setRegNext (r : RegId) (v : Word) (s : State) : RefusesOnlyPc (setRegNext r v s) :=
  fun _ h => (setRegNext_eq_refused.1 h).2

/-- A transfer to the value of a register. -/
theorem RefusesOnlyPc.transfer (r : RegId) (s : State) (u : Word → State) :
    RefusesOnlyPc ((Machine.readReg r s).andThen fun target => .next (u target)) :=
  (readReg r s).andThen fun target => next (u target)

/-- A byte read. -/
theorem RefusesOnlyPc.readByte (a : Word) (s : State) : RefusesOnlyPc (readByte a s) :=
  fun _ h => absurd h readByte_ne_refused

/-- The alignment rule. -/
theorem RefusesOnlyPc.wordAccess (a : Word) : RefusesOnlyPc (wordAccess a) :=
  fun _ h => absurd h wordAccess_ne_refused

/-- A word read. -/
theorem RefusesOnlyPc.readWord (a : Word) (s : State) : RefusesOnlyPc (readWord a s) :=
  (wordAccess a).andThen fun _ _ h => absurd h readFour_ne_refused

/-- A word store. -/
theorem RefusesOnlyPc.writeWord (a v : Word) (s : State) : RefusesOnlyPc (writeWord a v s) :=
  (wordAccess a).andThen fun _ => next _

/-- A division. -/
theorem RefusesOnlyPc.divU (a b : Word) : RefusesOnlyPc (divU a b) := by
  intro e h
  obtain hd | ⟨_, hd⟩ := divU_cases a b <;> cases hd.symm.trans h

/-- A remainder. -/
theorem RefusesOnlyPc.modU (a b : Word) : RefusesOnlyPc (modU a b) := by
  intro e h
  obtain hd | ⟨_, hd⟩ := modU_cases a b <;> cases hd.symm.trans h

/-! ### How an instruction refuses -/

/-- The operation refuses as Unmodelled of the opcode where its register fields are not all in range, and else only a pc operand. -/
structure Refuses (ok : Bool) (op : Byte) (m : Res State) : Prop where
  unmodelled : ok = false → m = .refused (.unmodelled op)
  pcOperand : ok = true → RefusesOnlyPc m

/-- An operation without a register field. -/
theorem Refuses.of_no_field {op : Byte} {m : Res State} (h : RefusesOnlyPc m) : Refuses true op m :=
  ⟨nofun, fun _ => h⟩

/-- A register field out of range refuses, whatever follows; else what follows does. -/
theorem Refuses.withReg {ok : Bool} {op f : Byte} {k : RegId → Res State} (h : ∀ a, Refuses ok op (k a)) :
    Refuses (regFieldOk f && ok) op (withReg op f k) := by
  obtain ⟨hf, hok⟩ | ⟨a, hf, hok⟩ := regId?_cases f
  · rw [withReg_of_none hf, hok, Bool.false_and]
    exact ⟨fun _ => rfl, nofun⟩
  · rw [withReg_of_some hf, hok, Bool.true_and]
    exact h a

/-- One register field. -/
theorem Refuses.withReg1 {op f : Byte} {k : RegId → Res State} (h : ∀ a, RefusesOnlyPc (k a)) :
    Refuses (regFieldOk f) op (Machine.withReg op f k) := by
  rw [← Bool.and_true (regFieldOk f)]
  exact withReg fun a => of_no_field (h a)

/-- Two register fields. -/
theorem Refuses.withReg2 {op f1 f2 : Byte} {k : RegId → RegId → Res State} (h : ∀ a b, RefusesOnlyPc (k a b)) :
    Refuses (regFieldOk f1 && regFieldOk f2) op (Machine.withReg op f1 fun a => Machine.withReg op f2 (k a)) :=
  withReg fun a => withReg1 (h a)

/-- Three register fields. -/
theorem Refuses.withReg3 {op f1 f2 f3 : Byte} {k : RegId → RegId → RegId → Res State} (h : ∀ a b c, RefusesOnlyPc (k a b c)) :
    Refuses (regFieldOk f1 && regFieldOk f2 && regFieldOk f3) op
      (Machine.withReg op f1 fun a => Machine.withReg op f2 fun b => Machine.withReg op f3 (k a b)) := by
  rw [Bool.and_assoc]
  exact withReg fun a => withReg2 (h a)

/-- The form reg+reg+reg, where its function refuses nothing else. -/
theorem Refuses.regRegRegOp {op rA rB rC : Byte} {f : Word → Word → Res Word} {s : State} (hf : ∀ vb vc, RefusesOnlyPc (f vb vc)) :
    Refuses (regFieldOk rA && regFieldOk rB && regFieldOk rC) op (regRegRegOp op rA rB rC f s) :=
  withReg3 fun a b c => (RefusesOnlyPc.readReg b s).andThen fun vb => (RefusesOnlyPc.readReg c s).andThen fun vc =>
    (hf vb vc).andThen fun v => .setRegNext a v s

/-- The form reg+reg. -/
theorem Refuses.regRegOp {op rA rB : Byte} {f : Word → Word} {s : State} :
    Refuses (regFieldOk rA && regFieldOk rB) op (regRegOp op rA rB f s) :=
  withReg2 fun a b => (RefusesOnlyPc.readReg b s).andThen fun vb => .setRegNext a (f vb) s

/-- A bidirectional shift. -/
theorem Refuses.bidirectionalShift {right : ShiftKind} {op rA rB rC : Byte} {s : State} :
    Refuses (regFieldOk rA && regFieldOk rB && regFieldOk rC) op (bidirectionalShift right op rA rB rC s) :=
  withReg3 fun a b c => (RefusesOnlyPc.readReg c s).andThen fun _ => (RefusesOnlyPc.readReg b s).andThen fun _ => .setRegNext a _ _

/-- A load, where its access refuses nothing else. -/
theorem Refuses.loadOp {op rA rB v : Byte} {access : Word → State → Res Word} {s : State}
    (h : ∀ adr, RefusesOnlyPc (access adr s)) : Refuses (regFieldOk rA && regFieldOk rB) op (loadOp op rA rB v access s) :=
  withReg2 fun a b => (RefusesOnlyPc.readReg b s).andThen fun base => (h (effAddr base v)).andThen fun w => .setRegNext a w s

/-- A store, where its access refuses nothing else. -/
theorem Refuses.storeOp {op rA rB v : Byte} {access : Word → Word → State → Res State} {s : State}
    (h : ∀ adr w, RefusesOnlyPc (access adr w s)) : Refuses (regFieldOk rA && regFieldOk rB) op (storeOp op rA rB v access s) :=
  withReg2 fun a b => (RefusesOnlyPc.readReg b s).andThen fun base => (RefusesOnlyPc.readReg a s).andThen fun w =>
    (h (effAddr base v) w).andThen fun t => .next (advance t)

/-- A conditional branch, taken or not. -/
theorem Refuses.branchOp {op rA rB : Byte} {taken : Word → Bool} {s : State} :
    Refuses (regFieldOk rA && regFieldOk rB) op (branchOp op rA rB taken s) :=
  withReg2 fun a b => (RefusesOnlyPc.readReg b s).andThen fun vb => by
    split
    · exact .transfer a s s.setPc
    · exact .next _

/-- Every instruction but SND refuses as Unmodelled where a register is out of range, and else only a pc operand. -/
theorem exec_refuses {i : Instr} (hsnd : i.mnemonic ≠ .snd) (s : State) : Refuses i.wf i.opcode (exec i s) := by
  cases i with
  | add | sub | mul | and | orr | xor | tcu | tcs => exact .regRegRegOp fun _ _ => .next _
  | div => exact .regRegRegOp .divU
  | mod => exact .regRegRegOp .modU
  | lsh | ash => exact .bidirectionalShift
  | not | mov | sxt | seq => exact .regRegOp
  | set => exact .withReg1 fun a => .setRegNext a _ s
  | sup | sia => exact .withReg1 fun a => (RefusesOnlyPc.readReg a s).andThen fun _ => .setRegNext a _ _
  | ldw => exact .loadOp fun adr => .readWord adr s
  | ldb =>
    rw [exec, execLdb]
    exact .loadOp fun adr => (RefusesOnlyPc.readByte adr s).andThen fun b => .next (zext8 b)
  | stw => exact .storeOp fun adr w => .writeWord adr w s
  | stb =>
    rw [exec, execStb]
    exact .storeOp fun adr w => .next _
  | bve | bvn => exact .branchOp
  | jmp => exact .withReg1 fun a => .transfer a s s.setPc
  | cal => exact .withReg1 fun a => .transfer a s (s.setReg lrReg (s.pc + 4)).setPc
  | ret => exact .of_no_field (.transfer lrReg s (s.setReg lrReg 0).setPc)
  | nop | jmi | int | hlt => exact .of_no_field (.next _)
  | snd => exact absurd rfl hsnd

/-- An instruction with a register out of range refuses as Unmodelled of its opcode, SND as it does with any registers. -/
theorem exec_of_not_wf {i : Instr} (h : i.wf = false) (s : State) : exec i s = .refused (.unmodelled i.opcode) := by
  by_cases hsnd : i.mnemonic = .snd
  · obtain ⟨rA, rB, rC, rfl⟩ := mnemonic_eq_snd.1 hsnd
    exact exec_snd rA rB rC s
  · exact (exec_refuses hsnd s).unmodelled h

/-- Settles O58: each cause of a fault is one of those listed; an instruction refuses a register out of range before all else, SND always,
and every other instruction only a pc operand. -/
theorem instructionStops : Obligations.InstructionStops := by
  refine fun i s => ⟨fun h => exec_of_not_wf h s, fun r h => ?_, fun r h => ?_⟩
  · cases exec_faulted h with
    | reg q _ _ => exact .inl ⟨q, rfl⟩
    | mem adr _ => exact .inr (.inl ⟨adr, rfl⟩)
    | divisor hi => exact .inr (.inr (.inl ⟨rfl, hi⟩))
    | misaligned adr h4 hp hi =>
      obtain ⟨a, b, v, hi⟩ := hi
      exact .inr (.inr (.inr ⟨adr, a, b, v, rfl, h4, hp, hi⟩))
  · cases hwf : i.wf with
    | false =>
      cases (exec_of_not_wf hwf s).symm.trans h
      exact .inr ⟨rfl, .inl rfl⟩
    | true =>
      by_cases hsnd : i.mnemonic = .snd
      · obtain ⟨rA, rB, rC, rfl⟩ := mnemonic_eq_snd.1 hsnd
        cases h
        exact .inr ⟨rfl, .inr ⟨rA, rB, rC, rfl⟩⟩
      · exact .inl ⟨(exec_refuses hsnd s).pcOperand hwf r h, rfl⟩

end Sys2Proof.Machine
end

section
/-! PROOFS. The family of 70_reset_and_hazards.md: the state after reset (O53). Before it, the memory with no byte written, the registers
after reset, and the invariant that every step keeps from there (`Completed.inv`). -/

namespace Sys2Proof.Machine

/-- Where no byte is written, every address reads as unwritten. -/
@[simp] theorem Memory.read_nil (adr : Nat) : Memory.read [] adr = none := rfl

/-- The memory with no byte written is in canonical form. -/
@[simp] theorem Memory.wf_nil : Memory.wf [] = true := rfl

/-- Every register holds 0 after reset: the model's choice (log 1). -/
@[simp] theorem State.reg_reset (r : RegId) : State.reset.reg r = .value 0 :=
  Vector.getElem_replicate r.isLt

/-- The state after reset has the invariant: its memory, its temporaries and its label table are empty. -/
theorem State.inv_reset : State.reset.Inv where
  memory := Memory.wf_nil
  temps := rfl
  labels := List.nodup_nil

/-- Settles O53: the state after reset has the invariant, no byte of its memory is written, and its other fields are the model's choices. -/
theorem resetState : Obligations.ResetState :=
  ⟨State.inv_reset, Memory.read_nil, State.reg_reset, rfl, rfl, rfl⟩

end Sys2Proof.Machine
end
